-- ==== Sys2Proof/Word.lean ====
section
/-! DEFINITION. The word types of SPRDEC (spec rules R8, R14). Every value is unsigned. -/

namespace Sys2Proof

/-- A byte of ROM, WM, OUT or the host port (R35, R40: every access is one byte). -/
abbrev Byte := BitVec 8

/-- An absolute ROM offset: `ADDR_BITS` = 24 (R5). -/
abbrev RomAddr := BitVec 24

/-- A WM index as the focus pointers hold it (R14: 10 bits). -/
abbrev WmIndex := BitVec 10

/-- A host port address (R26: 12 bits). -/
abbrev HostAddr := BitVec 12

end Sys2Proof
end

