-- ==== Sys2Proof/Config.lean ====
section
/-! DEFINITION. The fixed parameters of R5, the parameters a model takes as arguments, and the free values:
constants without a body, so that nothing in Lean can tell what they are. -/

namespace Sys2Proof.Config

/-- `PLANE_SIZE` (R5): bytes of one plane. -/
def planeSize : Nat := 0x188

/-- `OUT_SIZE` (R5): bytes of OUT, and of WM (R10, R12). -/
def outSize : Nat := 0x310

/-- `MAX_TILES` (R5): the largest legal width and height in tiles. -/
def maxTiles : Nat := 7

/-- `TILE_PX` (R5): pixels per tile side. -/
def tilePx : Nat := 8

/-- The largest `ROM_SIZE` (R5). -/
def romSizeMax : Nat := 0x800000

/-- `RLE_MAX_PREFIX` (R5): the largest legal count of leading 1-bits in a run. -/
def rleMaxPrefix : Nat := 14

/-- The parameters R5 leaves to the model's argument. State carries them and no step changes them (log 1). -/
structure Params where
  /-- `ROM_SIZE`, 1 ≤ `ROM_SIZE` ≤ 0x800000 (D2, OPEN). -/
  romSize : Nat
  /-- `MODE0_FLIP`, default false (D14, OPEN). -/
  mode0Flip : Bool
deriving DecidableEq, Repr

/-- FREE VALUE (U1, U2; log 3): the byte at an address of a memory the spec leaves unspecified after reset.
The first argument tells memories and resets apart. -/
opaque freeMemByte : Nat → Nat → Byte

/-- FREE VALUE (U3; log 4): the byte a host read of the debug view or a window returns while busy. -/
opaque freeReadByte : Nat → Byte

/-- FREE VALUE (U4; log 5): which of a changed ROM byte's values a fetch returns. -/
opaque freeRomPick : Nat → Nat

end Sys2Proof.Config
end

