-- ==== Sys2Proof/Syntax.lean ====
section
/-! DEFINITION. The instruction set: one constructor for each row of spec/opcode_table.json. The stream tokens (R46, R53),
the implicit engine steps (R50), the host commands (R55). -/

namespace Sys2Proof

inductive Instr where
  /-- `HDR`: the header byte `wwwwhhhh` (R46, R58). -/
  | hdr (w h : BitVec 4)
  /-- `ORIENT`: the initial orientation bit (R59). -/
  | orient (o : Bool)
  /-- `MODE0`, `MODE1`, `MODE2`: the packing mode token (R61). -/
  | mode0
  | mode1
  | mode2
  /-- `KIND_RLE`, `KIND_DATA`: the packet kind bit (R62). -/
  | kindRle
  | kindData
  /-- `ENDDATA`: the escape code 00 (R65). -/
  | endData
  /-- `PAIR1`, `PAIR2`, `PAIR3`: a direct-write code (R65). -/
  | pair1
  | pair2
  | pair3
  /-- `RUN_n0` to `RUN_n14`: a run of length 2^(n+1) - 1 + v (R47, R66, R67). -/
  | runN0 (v : BitVec 1)
  | runN1 (v : BitVec 2)
  | runN2 (v : BitVec 3)
  | runN3 (v : BitVec 4)
  | runN4 (v : BitVec 5)
  | runN5 (v : BitVec 6)
  | runN6 (v : BitVec 7)
  | runN7 (v : BitVec 8)
  | runN8 (v : BitVec 9)
  | runN9 (v : BitVec 10)
  | runN10 (v : BitVec 11)
  | runN11 (v : BitVec 12)
  | runN12 (v : BitVec 13)
  | runN13 (v : BitVec 14)
  | runN14 (v : BitVec 15)
  /-- `RUN_OVERLONG`: fifteen 1-bits, illegal (R52, R66). -/
  | runOverlong
  /-- `PASS_SETUP`: the implicit step at the start of a pass (R60). -/
  | passSetup
  /-- `RLE_WRITE`: the implicit step that writes one zero cell (R68). -/
  | rleWrite
  /-- `UNPACK`: the final reconstruction (R80). -/
  | unpack
  /-- `INTERLEAVE`: the plane interleave (R85). -/
  | interleave
  /-- `START`: a write of `d` to CTRL with `d[0]` = 1 (R89). -/
  | start (d : Byte)
  /-- `CTRLWR`: a write of `d` to CTRL with `d[0]` = 0 (R90). -/
  | ctrlWr (d : Byte)
  /-- `CLRST`: a write of `d` to STATUS (R91). -/
  | clrSt (d : Byte)
  /-- `SRCWR0`, `SRCWR1`, `SRCWR2`: a write of one byte of SRC (R92). -/
  | srcWr0 (d : Byte)
  | srcWr1 (d : Byte)
  | srcWr2 (d : Byte)
  /-- `RD`: a host read of address `a` (R93). -/
  | rd (a : HostAddr)
deriving DecidableEq, Repr

end Sys2Proof
end

