-- ==== Sys2Proof/WellFormed.lean ====
section
/-! DEFINITION. Which terms of `Instr` an encoding stands for. Operand widths are in the types; what is left is the data bit
that tells START from CTRLWR (R55: `xxxxxxx1` and `xxxxxxx0`). -/

namespace Sys2Proof

/-- The instruction is one that an encoding of the spec can give. -/
def WellFormed (i : Instr) : Bool :=
  match i with
  | .hdr _ _ => true
  | .orient _ => true
  | .mode0 => true
  | .mode1 => true
  | .mode2 => true
  | .kindRle => true
  | .kindData => true
  | .endData => true
  | .pair1 => true
  | .pair2 => true
  | .pair3 => true
  | .runN0 _ => true
  | .runN1 _ => true
  | .runN2 _ => true
  | .runN3 _ => true
  | .runN4 _ => true
  | .runN5 _ => true
  | .runN6 _ => true
  | .runN7 _ => true
  | .runN8 _ => true
  | .runN9 _ => true
  | .runN10 _ => true
  | .runN11 _ => true
  | .runN12 _ => true
  | .runN13 _ => true
  | .runN14 _ => true
  | .runOverlong => true
  | .passSetup => true
  | .rleWrite => true
  | .unpack => true
  | .interleave => true
  | .start d => d.getLsbD 0
  | .ctrlWr d => !d.getLsbD 0
  | .clrSt _ => true
  | .srcWr0 _ => true
  | .srcWr1 _ => true
  | .srcWr2 _ => true
  | .rd _ => true

end Sys2Proof
end

