-- ==== Sys2Proof/Decode.lean ====
section
/-! DEFINITION. The decoder (R46 to R52, R55) and, after it, the encoder. A token is read bit by bit, so the decoder is written
once over any source of bits: the machine reads the ROM through its bit cursor with it (Machine/Fetch.lean), `decode` reads
a list of bits. -/

namespace Sys2Proof

/-! ### Reading bits -/

/-- Reads one bit: the bit and the source after it, or why there is none. -/
abbrev BitSource (σ ε : Type) := σ → Except ε (Bool × σ)

/-- `ReadBits(k)` (R9): `k` bits, the first one the most significant, after the value `v` read so far. -/
def readBitsFrom {σ ε : Type} (rd : BitSource σ ε) : Nat → Nat → σ → Except ε (Nat × σ)
  | 0, v, s => .ok (v, s)
  | k + 1, v, s =>
    match rd s with
    | .error e => .error e
    | .ok (b, s1) => readBitsFrom rd k (2 * v + b.toNat) s1

/-! ### Tokens -/

/-- The header token of a byte: W in bits 7:4, H in bits 3:0 (R47). -/
def hdrOfByte (b : Byte) : Instr := .hdr (b.extractLsb' 4 4) (b.extractLsb' 0 4)

/-- The two-bit code of a pair (R47, R65). -/
def pairOfCode (c : Nat) : Instr :=
  match c with
  | 0 => .endData
  | 1 => .pair1
  | 2 => .pair2
  | _ => .pair3

/-- The run token with `n` leading 1-bits and value `v` (R47); `n` above 14 has none (R52). -/
def runToken (n v : Nat) : Option Instr :=
  match n with
  | 0 => some (.runN0 (BitVec.ofNat 1 v))
  | 1 => some (.runN1 (BitVec.ofNat 2 v))
  | 2 => some (.runN2 (BitVec.ofNat 3 v))
  | 3 => some (.runN3 (BitVec.ofNat 4 v))
  | 4 => some (.runN4 (BitVec.ofNat 5 v))
  | 5 => some (.runN5 (BitVec.ofNat 6 v))
  | 6 => some (.runN6 (BitVec.ofNat 7 v))
  | 7 => some (.runN7 (BitVec.ofNat 8 v))
  | 8 => some (.runN8 (BitVec.ofNat 9 v))
  | 9 => some (.runN9 (BitVec.ofNat 10 v))
  | 10 => some (.runN10 (BitVec.ofNat 11 v))
  | 11 => some (.runN11 (BitVec.ofNat 12 v))
  | 12 => some (.runN12 (BitVec.ofNat 13 v))
  | 13 => some (.runN13 (BitVec.ofNat 14 v))
  | 14 => some (.runN14 (BitVec.ofNat 15 v))
  | _ => none

/-- `F-BIT` read as the orientation (R59). -/
def orientFrom {σ ε : Type} (rd : BitSource σ ε) (s : σ) : Except ε (Instr × σ) :=
  match rd s with
  | .error e => .error e
  | .ok (b, s1) => .ok (.orient b, s1)

/-- `F-MODE` (R61): `0`, `10` or `11`. -/
def modeFrom {σ ε : Type} (rd : BitSource σ ε) (s : σ) : Except ε (Instr × σ) :=
  match rd s with
  | .error e => .error e
  | .ok (false, s1) => .ok (.mode0, s1)
  | .ok (true, s1) =>
    match rd s1 with
    | .error e => .error e
    | .ok (m, s2) => .ok (if m then .mode2 else .mode1, s2)

/-- `F-BIT` read as the packet kind (R62). -/
def kindFrom {σ ε : Type} (rd : BitSource σ ε) (s : σ) : Except ε (Instr × σ) :=
  match rd s with
  | .error e => .error e
  | .ok (k, s1) => .ok (if k then .kindData else .kindRle, s1)

/-- `F-PAIR` (R65): two bits, the first one `c[1]`. -/
def pairFrom {σ ε : Type} (rd : BitSource σ ε) (s : σ) : Except ε (Instr × σ) :=
  match readBitsFrom rd 2 0 s with
  | .error e => .error e
  | .ok (c, s1) => .ok (pairOfCode c, s1)

/-- What one bit of a run's unary part says, after `n` leading 1-bits (R66). -/
inductive RunBit where
  | overlong
  | more
  | value
deriving DecidableEq, Repr

/-- R66: the 15th consecutive 1-bit is too many, a 0-bit ends the unary part. -/
def runBit (n : Nat) (b : Bool) : RunBit :=
  if b then (if n = Config.rleMaxPrefix then .overlong else .more) else .value

/-- The value part of a run with `n` leading 1-bits: n+1 bits (R67). -/
def runValueFrom {σ ε : Type} (rd : BitSource σ ε) (n : Nat) (s : σ) : Except ε (Option Instr × σ) :=
  match readBitsFrom rd (n + 1) 0 s with
  | .error e => .error e
  | .ok (v, s1) => .ok (runToken n v, s1)

/-- `F-RUN` after `n` leading 1-bits (R51); the first argument bounds the bits of the unary part still to be read. -/
def runFrom {σ ε : Type} (rd : BitSource σ ε) : Nat → Nat → σ → Except ε (Option Instr × σ)
  | 0, _, s => .ok (none, s)
  | fuel + 1, n, s =>
    match rd s with
    | .error e => .error e
    | .ok (b, s1) =>
      match runBit n b with
      | .overlong => .ok (some .runOverlong, s1)
      | .more => runFrom rd fuel (n + 1) s1
      | .value => runValueFrom rd n s1

/-! ### Host commands -/

/-- The command of a host write (R55); `none` for the writes that are ignored (R33). -/
def hostWriteInstr (a : HostAddr) (d : Byte) : Option Instr :=
  if a = 0x000#12 then some (if d.getLsbD 0 then .start d else .ctrlWr d)
  else if a = 0x001#12 then some (.clrSt d)
  else if a = 0x004#12 then some (.srcWr0 d)
  else if a = 0x005#12 then some (.srcWr1 d)
  else if a = 0x006#12 then some (.srcWr2 d)
  else none

/-! ### Decoding a list of bits -/

/-- Where the bits stand: the phase that reads a token (R50), or the host port (R55). -/
inductive Context where
  | header
  | orient
  | passSetup
  | mode
  | kind
  | data
  | run
  | rleWrite
  | unpack
  | interleave
  | hostWrite
  | hostRead
deriving DecidableEq, Repr

/-- Why bits are no instruction. -/
inductive DecodeError where
  /-- the bits end inside the token -/
  | truncated
  /-- a host write that is no command: it is ignored (R33) -/
  | ignoredWrite
  /-- a unary part past its bound; the 15th 1-bit is the token RUN_OVERLONG, so no bits give this -/
  | noRun
deriving DecidableEq, Repr

/-- The next bit of a list. -/
def listBit : BitSource (List Bool) DecodeError
  | [] => .error .truncated
  | b :: bs => .ok (b, bs)

/-- The header from a list of bits: one whole byte (R46). -/
def headerFromList (bs : List Bool) : Except DecodeError (Instr × List Bool) :=
  match readBitsFrom listBit 8 0 bs with
  | .error e => .error e
  | .ok (v, r) => .ok (hdrOfByte (BitVec.ofNat 8 v), r)

/-- A run from a list of bits. -/
def runFromList (bs : List Bool) : Except DecodeError (Instr × List Bool) :=
  match runFrom listBit (Config.rleMaxPrefix + 1) 0 bs with
  | .error e => .error e
  | .ok (some i, r) => .ok (i, r)
  | .ok (none, _) => .error .noRun

/-- A host write from its 20-bit word, address first (R55). -/
def hostWriteFromList (bs : List Bool) : Except DecodeError (Instr × List Bool) :=
  match readBitsFrom listBit 20 0 bs with
  | .error e => .error e
  | .ok (w, r) =>
    match hostWriteInstr (BitVec.ofNat 12 (w / 256)) (BitVec.ofNat 8 w) with
    | some i => .ok (i, r)
    | none => .error .ignoredWrite

/-- A host read from its 12-bit address (R55). -/
def hostReadFromList (bs : List Bool) : Except DecodeError (Instr × List Bool) :=
  match readBitsFrom listBit 12 0 bs with
  | .error e => .error e
  | .ok (a, r) => .ok (.rd (BitVec.ofNat 12 a), r)

/-- The instruction at the front of `bs` and the bits after it. Total on any bits. -/
def decode (c : Context) (bs : List Bool) : Except DecodeError (Instr × List Bool) :=
  match c with
  | .header => headerFromList bs
  | .orient => orientFrom listBit bs
  | .passSetup => .ok (.passSetup, bs)
  | .mode => modeFrom listBit bs
  | .kind => kindFrom listBit bs
  | .data => pairFrom listBit bs
  | .run => runFromList bs
  | .rleWrite => .ok (.rleWrite, bs)
  | .unpack => .ok (.unpack, bs)
  | .interleave => .ok (.interleave, bs)
  | .hostWrite => hostWriteFromList bs
  | .hostRead => hostReadFromList bs

/-! ### Bytes and bits -/

/-- The `k` low bits of `v`, most significant first. -/
def bitsOfNat : Nat → Nat → List Bool
  | 0, _ => []
  | k + 1, v => v.testBit k :: bitsOfNat k v

/-- The bits of bytes in stream order: increasing offset, bit 7 first (R38). -/
def bitsOfBytes : List Byte → List Bool
  | [] => []
  | b :: bs => bitsOfNat 8 b.toNat ++ bitsOfBytes bs

/-- The number a list of bits writes, most significant first. -/
def natOfBits (bs : List Bool) : Nat := bs.foldl (fun v b => 2 * v + b.toNat) 0

/-- Packs bits into bytes in stream order, the last byte filled up with 0-bits (R53 `PAD`); the first argument bounds the
number of bytes. -/
def bytesOfBits : Nat → List Bool → List Byte
  | 0, _ => []
  | n + 1, bs =>
    if bs.isEmpty then []
    else BitVec.ofNat 8 (natOfBits ((bs ++ List.replicate 8 false).take 8)) :: bytesOfBits n (bs.drop 8)

/-- Decodes bytes in a context (the bits of `bitsOfBytes`). -/
def decodeBytes (c : Context) (bytes : List Byte) : Except DecodeError (Instr × List Bool) :=
  decode c (bitsOfBytes bytes)

/-! ### The encoder -/

/-- The bits of `F-RUN` (R46): n 1-bits, a 0-bit, n+1 value bits. -/
def runBits (n v : Nat) : List Bool := List.replicate n true ++ false :: bitsOfNat (n + 1) v

/-- The 20-bit word of a host write: address, then data (R55). -/
def hostWriteBits (a d : Nat) : List Bool := bitsOfNat 12 a ++ bitsOfNat 8 d

/-- The bits of an instruction in reading order. -/
def encode (i : Instr) : List Bool :=
  match i with
  | .hdr w h => bitsOfNat 4 w.toNat ++ bitsOfNat 4 h.toNat
  | .orient o => [o]
  | .mode0 => [false]
  | .mode1 => [true, false]
  | .mode2 => [true, true]
  | .kindRle => [false]
  | .kindData => [true]
  | .endData => [false, false]
  | .pair1 => [false, true]
  | .pair2 => [true, false]
  | .pair3 => [true, true]
  | .runN0 v => runBits 0 v.toNat
  | .runN1 v => runBits 1 v.toNat
  | .runN2 v => runBits 2 v.toNat
  | .runN3 v => runBits 3 v.toNat
  | .runN4 v => runBits 4 v.toNat
  | .runN5 v => runBits 5 v.toNat
  | .runN6 v => runBits 6 v.toNat
  | .runN7 v => runBits 7 v.toNat
  | .runN8 v => runBits 8 v.toNat
  | .runN9 v => runBits 9 v.toNat
  | .runN10 v => runBits 10 v.toNat
  | .runN11 v => runBits 11 v.toNat
  | .runN12 v => runBits 12 v.toNat
  | .runN13 v => runBits 13 v.toNat
  | .runN14 v => runBits 14 v.toNat
  | .runOverlong => List.replicate 15 true
  | .passSetup => []
  | .rleWrite => []
  | .unpack => []
  | .interleave => []
  | .start d => hostWriteBits 0x000 d.toNat
  | .ctrlWr d => hostWriteBits 0x000 d.toNat
  | .clrSt d => hostWriteBits 0x001 d.toNat
  | .srcWr0 d => hostWriteBits 0x004 d.toNat
  | .srcWr1 d => hostWriteBits 0x005 d.toNat
  | .srcWr2 d => hostWriteBits 0x006 d.toNat
  | .rd a => bitsOfNat 12 a.toNat

/-- Where an instruction's bits are read (the "context" of its row). -/
def contextOf (i : Instr) : Context :=
  match i with
  | .hdr _ _ => .header
  | .orient _ => .orient
  | .mode0 => .mode
  | .mode1 => .mode
  | .mode2 => .mode
  | .kindRle => .kind
  | .kindData => .kind
  | .endData => .data
  | .pair1 => .data
  | .pair2 => .data
  | .pair3 => .data
  | .runN0 _ => .run
  | .runN1 _ => .run
  | .runN2 _ => .run
  | .runN3 _ => .run
  | .runN4 _ => .run
  | .runN5 _ => .run
  | .runN6 _ => .run
  | .runN7 _ => .run
  | .runN8 _ => .run
  | .runN9 _ => .run
  | .runN10 _ => .run
  | .runN11 _ => .run
  | .runN12 _ => .run
  | .runN13 _ => .run
  | .runN14 _ => .run
  | .runOverlong => .run
  | .passSetup => .passSetup
  | .rleWrite => .rleWrite
  | .unpack => .unpack
  | .interleave => .interleave
  | .start _ => .hostWrite
  | .ctrlWr _ => .hostWrite
  | .clrSt _ => .hostWrite
  | .srcWr0 _ => .hostWrite
  | .srcWr1 _ => .hostWrite
  | .srcWr2 _ => .hostWrite
  | .rd _ => .hostRead

/-! ### Words of the opcode table -/

/-- The token widths and contexts a table word of `nbits` bits may be read with, in the order they are tried (log 19).
A table word is the row's pattern read as one number; its bits stand at the low end of the word. -/
def tableReadings (nbits : Nat) : List (Nat × Context) :=
  match nbits with
  | 1 => [(1, .orient)]
  | 2 => [(2, .data)]
  | 4 => [(4, .run)]
  | 6 => [(6, .run)]
  | 8 => [(8, .run), (8, .header)]
  | 10 => [(10, .run)]
  | 12 => [(12, .run), (12, .hostRead)]
  | 14 => [(14, .run)]
  | 15 => [(15, .run)]
  | 16 => [(16, .run), (15, .run), (14, .run), (12, .run), (10, .run), (12, .hostRead)]
  | 18 => [(18, .run)]
  | 20 => [(20, .run), (20, .hostWrite)]
  | 22 => [(22, .run)]
  | 24 => [(24, .run), (22, .run), (20, .run), (18, .run), (20, .hostWrite)]
  | 26 => [(26, .run)]
  | 28 => [(28, .run)]
  | 30 => [(30, .run)]
  | 32 => [(30, .run), (28, .run), (26, .run)]
  | _ => []

/-- The first reading that consumes exactly its width. -/
def firstReading (w : Nat) : List (Nat × Context) → Option Instr
  | [] => none
  | (k, c) :: rest =>
    if w < 2 ^ k then
      match decode c (bitsOfNat k w) with
      | .ok (i, []) => some i
      | _ => firstReading w rest
    else firstReading w rest

/-- The instruction this decoder reads from a word of the opcode table. -/
def decodeTableWord (nbits w : Nat) : Option Instr := firstReading w (tableReadings nbits)

end Sys2Proof
end

