-- ==== Sys2Proof/Machine/State.lean ====
section
/-! DEFINITION. The state of SPRDEC (10_state.md), the inputs that may reach it, the reasons a step can stop, and the state
after reset (R106). Plain data throughout. -/

namespace Sys2Proof.Machine

/-- `PHASE` (R24): the values the rules produce; 14 and 15 "are never produced". -/
inductive Phase where
  | idle
  | header
  | orient
  | passSetup
  | mode
  | kind
  | data
  | rlePrefix
  | rleValue
  | rleWrite
  | unpack
  | interleave
  | done
  | error
deriving DecidableEq, Repr

/-- `ERRCODE` (R29, R95): values 0x04..0xFF "are never produced". -/
inductive ErrCode where
  | none
  | romOob
  | dim
  | rleLen
deriving DecidableEq, Repr

/-- What an address that a memory does not list reads as (see `unlistedByte`). -/
inductive Fill where
  /-- every unlisted byte is 0x00 -/
  | zero
  /-- every unlisted byte is a free value (R10, R12: unspecified after reset); the number tells one reset of one
  memory from another -/
  | unspecified (draw : Nat)
deriving DecidableEq, Repr

/-- A memory: the listed bytes, by rising address, and what the other addresses read as. -/
structure Memory where
  cells : List Host.Cell
  fill : Fill
deriving DecidableEq, Repr

/-- One input event (R87, R88): a host access, the host changing a ROM byte (R44, R109), or the platform driving RST to a
level (R87, R106). -/
inductive Event where
  | hostWrite (a : HostAddr) (d : Byte)
  | hostRead (a : HostAddr)
  | romWrite (a : RomAddr) (d : Byte)
  | rst (level : Bool)
deriving DecidableEq, Repr

/-- A pending input: it arrives after `delay` more engine steps, or at once when the engine takes no steps (R88, U5; log 6). -/
structure Input where
  delay : Nat
  event : Event
deriving DecidableEq, Repr

structure State where
  /-- `IN_PTR` (R14): ROM offset of the next byte to fetch -/
  inPtr : RomAddr
  /-- `IN_BYTE` (R14): the current input byte, its bit 7 the next bit -/
  inByte : Byte
  /-- `IN_CNT` (R14): unread bits left in `IN_BYTE` -/
  inCnt : BitVec 4
  /-- `HDR` (R14, R16) -/
  hdr : Byte
  /-- `PPTR`, the primary focus pointer (R17) -/
  pptr : WmIndex
  /-- `SPTR`, the secondary focus pointer (R17) -/
  sptr : WmIndex
  /-- `ROW` (R18) -/
  row : Byte
  /-- `COL` (R18) -/
  col : Byte
  /-- `ROT` (R18) -/
  rot : BitVec 2
  /-- `ORIENT` (R19) -/
  orient : Bool
  /-- `ORIENT0` (R19) -/
  orient0 : Bool
  /-- `FPD` (R20) -/
  fpd : Bool
  /-- `MODE` (R21) -/
  mode : BitVec 2
  /-- `FLIPL` (R23) -/
  flipL : Bool
  /-- `RLEN` (R22) -/
  rlen : BitVec 4
  /-- `RLECNT` (R22) -/
  rlecnt : BitVec 16
  /-- `PHASE` (R24) -/
  phase : Phase
  /-- `CTRL.FLIP` (R27) -/
  ctrlFlip : Bool
  /-- `CTRL.IRQ_EN` (R27) -/
  ctrlIrqEn : Bool
  /-- `STATUS.BUSY` (R28) -/
  busy : Bool
  /-- `STATUS.DONE` (R28) -/
  done : Bool
  /-- `STATUS.ERR` (R28) -/
  err : Bool
  /-- `ERRCODE` (R29) -/
  errCode : ErrCode
  /-- `SRC` (R30) -/
  src : RomAddr
  /-- `FAULTADDR` (R31) -/
  faultAddr : RomAddr
  /-- `WM`, the work memory (R10) -/
  wm : Memory
  /-- `OUT`, the output memory (R12) -/
  out : Memory
  /-- `ROM`, the image (R13) -/
  rom : Memory
  /-- the parameters of R5; no step changes them -/
  cfg : Config.Params
  /-- `RST` (R87): the level of the reset input; `true` while RST is asserted (R106; log 7) -/
  rst : Bool
  /-- `hrdata` (R87): the byte the last host read returned (log 8) -/
  hrdata : Byte
  /-- the inputs to come, in order (R88; log 6) -/
  inputs : List Input
  /-- earlier bytes of the ROM locations the host changed since START while busy (R109; log 5) -/
  romStale : List Host.Cell
  /-- the model's own counter: how many free values have been drawn (log 17) -/
  freeCtr : Nat
deriving DecidableEq, Repr

/-- Why a step stops with a fault. -/
inductive Fault where
  /-- An engine step would read or write WM at an index of 0x310 or more, or `HDR` names a plane of more than 0x188 bytes.
  Raised by the cell writes and by UNPACK, in states no run reaches (R25). Safe. -/
  | wmOutOfRange
  /-- A ROM change names an offset of `ROM_SIZE` or more, which the image does not have (R13). Raised by the input event
  `romWrite`. Safe. -/
  | romOutOfRange
deriving DecidableEq, Repr

/-- Why a step has no meaning. -/
inductive Refusal where
  /-- An instruction without a meaning yet. Raised by `exec` only. Safe. -/
  | notModelled (mnemonic : String)
  /-- `RLE_VALUE` with `RLEN` = 15, a value no rule produces; U16 says: refuse. Raised by the engine's token read. Safe. -/
  | runLengthUnreachable
deriving DecidableEq, Repr

/-- The machine after reset, RST released (R106): the reset column of R14, R27 to R31. WM and OUT are unspecified (log 3); the ROM lists
nothing (log 2); the parameters are those of log 1; no input is pending. -/
def State.reset : State where
  inPtr := 0
  inByte := 0
  inCnt := 0
  hdr := 0
  pptr := 0
  sptr := 0
  row := 0
  col := 0
  rot := 3
  orient := false
  orient0 := false
  fpd := false
  mode := 0
  flipL := false
  rlen := 0
  rlecnt := 0
  phase := .idle
  ctrlFlip := false
  ctrlIrqEn := false
  busy := false
  done := false
  err := false
  errCode := .none
  src := 0
  faultAddr := 0
  wm := { cells := [], fill := .unspecified 0 }
  out := { cells := [], fill := .unspecified 1 }
  rom := { cells := [], fill := .zero }
  cfg := { romSize := Config.romSizeMax, mode0Flip := false }
  rst := false
  hrdata := 0
  inputs := []
  romStale := []
  freeCtr := 2

end Sys2Proof.Machine
end

