-- ==== Sys2Proof/Machine/Flags.lean ====
section
/-! DEFINITION. Status: which phases are busy (R24, R28), the encodings of PHASE and ERRCODE (R24, R29), the bytes CTRL, STATUS
and INFO read as (R26 to R28), the interrupt line (R34). -/

namespace Sys2Proof.Machine

/-- A phase in which the engine takes steps (R24: not quiescent). -/
def phaseBusy (p : Phase) : Bool :=
  match p with
  | .idle => false
  | .header => true
  | .orient => true
  | .passSetup => true
  | .mode => true
  | .kind => true
  | .data => true
  | .rlePrefix => true
  | .rleValue => true
  | .rleWrite => true
  | .unpack => true
  | .interleave => true
  | .done => false
  | .error => false

/-- The encoding of PHASE (R24). -/
def phaseCode (p : Phase) : BitVec 4 :=
  match p with
  | .idle => 0
  | .header => 1
  | .orient => 2
  | .passSetup => 3
  | .mode => 4
  | .kind => 5
  | .data => 6
  | .rlePrefix => 7
  | .rleValue => 8
  | .rleWrite => 9
  | .unpack => 10
  | .interleave => 11
  | .done => 12
  | .error => 13

/-- The encoding of ERRCODE (R29, R95). -/
def errCodeByte (c : ErrCode) : Byte :=
  match c with
  | .none => 0x00
  | .romOob => 0x01
  | .dim => 0x02
  | .rleLen => 0x03

/-- CTRL as read (R27): START reads 0, bits 7:3 read 0. -/
def ctrlByte (s : State) : Byte :=
  0#5 ++ BitVec.ofBool s.ctrlIrqEn ++ BitVec.ofBool s.ctrlFlip ++ 0#1

/-- STATUS as read (R28). -/
def statusByte (s : State) : Byte :=
  0#5 ++ BitVec.ofBool s.err ++ BitVec.ofBool s.done ++ BitVec.ofBool s.busy

/-- INFO as read (R26): `[1:0]` MODE, `[2]` ORIENT0, `[3]` ORIENT, `[4]` FPD, `[5]` FLIPL. -/
def infoByte (s : State) : Byte :=
  0#2 ++ BitVec.ofBool s.flipL ++ BitVec.ofBool s.fpd ++ BitVec.ofBool s.orient ++ BitVec.ofBool s.orient0 ++ s.mode

/-- The interrupt output (R34): a level. -/
def irq (s : State) : Bool := s.ctrlIrqEn && (s.done || s.err)

end Sys2Proof.Machine
end

