-- ==== Sys2Proof/Machine/Operands.lean ====
section
/-! DEFINITION. Fields and operand transforms: the header's W and H (R16), plane bases (R10), the cell write transforms (R63),
`nibrev` (R75), run lengths (R47). -/

namespace Sys2Proof.Machine

/-- `W = HDR[7:4]`, the width in tiles (R16). -/
def State.tilesWide (s : State) : Nat := (s.hdr.extractLsb' 4 4).toNat

/-- `H = HDR[3:0]`, the height in tiles (R16). -/
def State.tilesHigh (s : State) : Nat := (s.hdr.extractLsb' 0 4).toNat

/-- R58: a dimension is legal in 1..7. -/
def legalDim (n : Nat) : Bool := decide (1 ≤ n) && decide (n ≤ Config.maxTiles)

/-- `base(o)`: the first byte of BUF1 or BUF2 (R10). -/
def planeBase (o : Bool) : WmIndex := if o then 0x188#10 else 0x000#10

/-- `shl2` (R9). -/
def shl2 (x : Byte) : Byte := x <<< 2

/-- `swap`, the exchange of the nibbles (R9). -/
def swapNibbles (x : Byte) : Byte := (x <<< 4) ||| (x >>> 4)

/-- `rotr2` (R9). -/
def rotr2 (x : Byte) : Byte := (x >>> 2) ||| (x <<< 6)

/-- `T(x, ROT)` (R63). -/
def cellTransform (x : Byte) (rot : BitVec 2) : Byte :=
  if rot = 3#2 then rotr2 x
  else if rot = 2#2 then swapNibbles x
  else if rot = 1#2 then shl2 x
  else x

/-- A byte whose bit `k` is `b` and whose other bits are 0. -/
def bitAt (b : Bool) (k : Nat) : Byte := if b then 1#8 <<< k else 0#8

/-- `nibrev` (R75): the bits of each nibble reversed in place. -/
def nibrev (x : Byte) : Byte :=
  bitAt (x.getLsbD 3) 0 ||| bitAt (x.getLsbD 2) 1 ||| bitAt (x.getLsbD 1) 2 ||| bitAt (x.getLsbD 0) 3 |||
  bitAt (x.getLsbD 7) 4 ||| bitAt (x.getLsbD 6) 5 ||| bitAt (x.getLsbD 5) 6 ||| bitAt (x.getLsbD 4) 7

/-- `nibrev` where the flip enable is set (R76). -/
def flipIf (f : Bool) (x : Byte) : Byte := if f then nibrev x else x

/-- The run length of a run token (R47): 2^(n+1) - 1 + v. -/
def runCount (n v : Nat) : Nat := 2 ^ (n + 1) - 1 + v

end Sys2Proof.Machine
end

