-- ==== Sys2Proof/Machine/Ops.lean ====
section
/-! DEFINITION. The shared operations: memory, the ROM fetch (R56) and the bit read (R57), the cell write (R64), the advance
transition (R69) and its dispatch (R70), the entry into the error state (R96). There is no return from an error (R98): START
or RST leave the error state. -/

namespace Sys2Proof.Machine

/-! ### Memory -/

/-- What an address a memory does not list reads as (log 2, log 3). -/
def unlistedByte (f : Fill) (a : Nat) : Byte :=
  match f with
  | .zero => 0x00
  | .unspecified draw => Config.freeMemByte draw a

/-- The listed byte at an address. -/
def findCell : List Host.Cell → Nat → Option Byte
  | [], _ => none
  | (b, v) :: rest, a => if b = a then some v else findCell rest a

/-- Lists a byte, keeping the addresses rising. -/
def setCell : List Host.Cell → Nat → Byte → List Host.Cell
  | [], a, v => [(a, v)]
  | (b, w) :: rest, a, v =>
    if a < b then (a, v) :: (b, w) :: rest
    else if a = b then (a, v) :: rest
    else (b, w) :: setCell rest a v

/-- Takes an address out of the list. -/
def dropCell (cs : List Host.Cell) (a : Nat) : List Host.Cell := cs.filter fun c => c.1 != a

/-- Reads one byte. -/
def Memory.read (m : Memory) (a : Nat) : Byte := (findCell m.cells a).getD (unlistedByte m.fill a)

/-- Writes one byte; writing what the unlisted address reads as takes the address out of the list. -/
def Memory.write (m : Memory) (a : Nat) (v : Byte) : Memory :=
  if v = unlistedByte m.fill a then { m with cells := dropCell m.cells a }
  else { m with cells := setCell m.cells a v }

/-- The memory of zero bytes. -/
def Memory.zero : Memory := { cells := [], fill := .zero }

/-- The memory whose every byte is unspecified (R10, R12). -/
def Memory.unspecified (draw : Nat) : Memory := { cells := [], fill := .unspecified draw }

/-- The canonical form: addresses strictly rising, no entry equal to what the unlisted address reads as. -/
def Memory.wf (m : Memory) : Bool :=
  decide (m.cells.Pairwise fun x y => x.1 < y.1) && m.cells.all fun c => c.2 != unlistedByte m.fill c.1

/-- Every listed address is below `n`. -/
def Memory.below (m : Memory) (n : Nat) : Bool := m.cells.all fun c => decide (c.1 < n)

/-! ### Named updates of State -/

/-- `goto p`. -/
def State.setPhase (s : State) (p : Phase) : State := { s with phase := p }

/-- Moves the bit cursor (R15). -/
def State.setCursor (s : State) (ptr : RomAddr) (byte : Byte) (cnt : BitVec 4) : State :=
  { s with inPtr := ptr, inByte := byte, inCnt := cnt }

/-- Writes one byte of WM. -/
def State.writeWm (s : State) (a : Nat) (v : Byte) : State := { s with wm := s.wm.write a v }

/-! ### The bit reader -/

/-- The byte of ROM a fetch returns: the byte there, or, for a byte the host changed while the engine is busy, its old or
its new value by a free choice (R109; log 5). -/
def romByte (s : State) (a : Nat) : Byte × State :=
  match s.romStale.filter fun c => c.1 == a with
  | [] => (s.rom.read a, s)
  | c :: cs =>
    let values := s.rom.read a :: (c :: cs).map Prod.snd
    (values.getD (Config.freeRomPick s.freeCtr % values.length) (s.rom.read a), { s with freeCtr := s.freeCtr + 1 })

/-- `RomFetch()` (R56). An error carries the state at the failing read, where `IN_PTR` is the offset that was to be read. -/
def romFetch (s : State) : Except State (Byte × State) :=
  if s.cfg.romSize ≤ s.inPtr.toNat then .error s
  else
    let r := romByte s s.inPtr.toNat
    .ok (r.1, { r.2 with inPtr := r.2.inPtr + 1 })

/-- Takes the next bit out of `IN_BYTE` (R57, the part after the refill). -/
def shiftBit (s : State) : Bool × State :=
  (s.inByte.getLsbD 7, s.setCursor s.inPtr (s.inByte <<< 1) (s.inCnt - 1))

/-- `ReadBit()` (R57): refills only when a bit is needed. -/
def readBit : BitSource State State := fun s =>
  if s.inCnt = 0 then
    match romFetch s with
    | .error e => .error e
    | .ok (b, s1) => .ok (shiftBit (s1.setCursor s1.inPtr b 8))
  else .ok (shiftBit s)

/-! ### Errors -/

/-- `raise E(a)` (R96): the entry into the error state. -/
def raise (c : ErrCode) (a : RomAddr) (s : State) : State :=
  { s with errCode := c, faultAddr := a, busy := false, err := true, phase := .error }

/-! ### Cells -/

/-- `CellWrite(x)` (R64); `none` where `PPTR` is no index of WM (log 12). -/
def cellWrite (x : Byte) (s : State) : Option State :=
  if s.pptr.toNat < Config.outSize then
    some (s.writeWm s.pptr.toNat (s.wm.read s.pptr.toNat ||| cellTransform x s.rot))
  else none

/-- The result of the advance transition (R69). -/
inductive AdvanceResult where
  | notYetReady
  | restart
  | done
deriving DecidableEq, Repr

/-- `Advance()` (R69). -/
def advance (s : State) : AdvanceResult × State :=
  if s.row.toNat + 1 ≠ Config.tilePx * s.tilesHigh then
    (.notYetReady, { s with row := s.row + 1, pptr := s.pptr + 1 })
  else if s.rot ≠ 0 then
    (.notYetReady, { s with row := 0, rot := s.rot - 1, pptr := s.sptr })
  else if s.col.toNat + 8 ≠ Config.tilePx * s.tilesWide then
    (.notYetReady, { s with row := 0, rot := 3, col := s.col + 8, pptr := s.pptr + 1, sptr := s.pptr + 1 })
  else if s.fpd = false then
    (.restart, { s with row := 0, rot := 3, col := 0, orient := !s.orient, fpd := true })
  else
    (.done, { s with row := 0, rot := 3, col := 0 })

/-- `Dispatch(r, cont)` (R70). -/
def dispatch (r : AdvanceResult) (cont : Phase) (s : State) : State :=
  match r with
  | .notYetReady => s.setPhase cont
  | .restart => s.setPhase .passSetup
  | .done => s.setPhase .unpack

end Sys2Proof.Machine
end

