-- ==== Sys2Proof/Machine/Header.lean ====
section
/-! DEFINITION. The header and orientation tokens (40_bitreader_header.md). The engine's token read has moved the bit cursor past
the token when a meaning runs (Machine/Fetch.lean). -/

namespace Sys2Proof.Machine

/-- HDR (R58): latch the byte, then check the dimensions. The fault address is the offset of the header byte, which the
fetch left at `IN_PTR` - 1 (DEDUCED, log 10). -/
def execHdr (w h : BitVec 4) (s : State) : Host.Outcome State Fault Refusal :=
  let s1 := { s with hdr := w ++ h }
  if legalDim w.toNat && legalDim h.toNat then .next (s1.setPhase .orient)
  else .next (raise .dim (s1.inPtr - 1) s1)

/-- ORIENT (R59). -/
def execOrient (o : Bool) (s : State) : Host.Outcome State Fault Refusal :=
  .next { s with orient := o, orient0 := o, phase := .passSetup }

end Sys2Proof.Machine
end

