-- ==== Sys2Proof/Machine/HostPort.lean ====
section
/-! DEFINITION. The host commands (44_host_commands.md) and the host port map (R26). -/

namespace Sys2Proof.Machine

/-! ### Writes -/

/-- What a host write leads to: `t`, or, while RST is asserted, the state as it is, since SPRDEC then "holds the reset values"
(R106; log 7). -/
def hostWrites (s t : State) : State := if s.rst then s else t

/-- `CtrlWrite(d)` (R90). -/
def ctrlWrite (d : Byte) (s : State) : State :=
  { s with ctrlFlip := d.getLsbD 1, ctrlIrqEn := d.getLsbD 2 }

/-- What START does when the engine is not busy (R89, after the CTRL write). OUT is not written. The engine holds no ROM byte
across decodes (R44), so the record of changed bytes ends here (log 5). -/
def startDecode (s : State) : State :=
  { s with
    wm := Memory.zero
    inPtr := s.src, inByte := 0, inCnt := 0
    hdr := 0
    pptr := 0, sptr := 0
    row := 0, col := 0, rot := 3
    orient := false, orient0 := false, fpd := false, mode := 0
    rlen := 0, rlecnt := 0
    flipL := s.ctrlFlip
    errCode := .none, faultAddr := 0
    done := false, err := false, busy := true
    phase := .header
    romStale := [] }

/-- START (R89): the CTRL write first; ignored beyond it while busy (D23). -/
def execStart (d : Byte) (s : State) : Host.Outcome State Fault Refusal :=
  let s1 := ctrlWrite d s
  .next (hostWrites s (if s1.busy then s1 else startDecode s1))

/-- CTRLWR (R90). -/
def execCtrlWr (d : Byte) (s : State) : Host.Outcome State Fault Refusal := .next (hostWrites s (ctrlWrite d s))

/-- CLRST (R91): write 1 to clear. -/
def execClrSt (d : Byte) (s : State) : Host.Outcome State Fault Refusal :=
  .next (hostWrites s { s with
    done := if d.getLsbD 1 then false else s.done
    err := if d.getLsbD 2 then false else s.err })

/-- SRCWR0 (R92): `SRC[7:0]`. -/
def execSrcWr0 (d : Byte) (s : State) : Host.Outcome State Fault Refusal :=
  .next (hostWrites s { s with src := s.src.extractLsb' 8 16 ++ d })

/-- SRCWR1 (R92): `SRC[15:8]`. -/
def execSrcWr1 (d : Byte) (s : State) : Host.Outcome State Fault Refusal :=
  .next (hostWrites s { s with src := s.src.extractLsb' 16 8 ++ d ++ s.src.extractLsb' 0 8 })

/-- SRCWR2 (R92): `SRC[23:16]`. -/
def execSrcWr2 (d : Byte) (s : State) : Host.Outcome State Fault Refusal :=
  .next (hostWrites s { s with src := d ++ s.src.extractLsb' 0 16 })

/-! ### Reads -/

/-- Byte `k` of a 24-bit register, little-endian (R26, D25). -/
def byteOf24 (x : RomAddr) (k : Nat) : Byte := x.extractLsb' (8 * k) 8

/-- The low and the high byte of a focus pointer (R26). -/
def pointerByte (p : WmIndex) (k : Nat) : Byte :=
  if k = 0 then p.extractLsb' 0 8 else 0#6 ++ p.extractLsb' 8 2

/-- The debug view and the two windows (R32): the addresses whose reads are exact only when not busy. -/
def isDebugView (a : HostAddr) : Bool :=
  let n := a.toNat
  (decide (0x00C ≤ n) && decide (n ≤ 0x00E)) || (decide (0x010 ≤ n) && decide (n ≤ 0x01E)) ||
  (decide (0x400 ≤ n) && decide (n ≤ 0x70F)) || (decide (0x800 ≤ n) && decide (n ≤ 0xB0F))

/-- The registers of the debug view, 0x00C to 0x01E (R26). -/
def debugByte (s : State) (n : Nat) : Byte :=
  match n with
  | 0x00C => byteOf24 s.inPtr 0
  | 0x00D => byteOf24 s.inPtr 1
  | 0x00E => byteOf24 s.inPtr 2
  | 0x010 => s.hdr
  | 0x011 => infoByte s
  | 0x012 => s.row
  | 0x013 => s.col
  | 0x014 => 0#6 ++ s.rot
  | 0x015 => s.inByte
  | 0x016 => 0#4 ++ s.inCnt
  | 0x017 => 0#4 ++ phaseCode s.phase
  | 0x018 => pointerByte s.pptr 0
  | 0x019 => pointerByte s.pptr 1
  | 0x01A => pointerByte s.sptr 0
  | 0x01B => pointerByte s.sptr 1
  | 0x01C => 0#4 ++ s.rlen
  | 0x01D => s.rlecnt.extractLsb' 0 8
  | 0x01E => s.rlecnt.extractLsb' 8 8
  | _ => 0x00

/-- The registers that read exactly in every phase, 0x000 to 0x00A (R26, R33). -/
def controlByte (s : State) (n : Nat) : Byte :=
  match n with
  | 0x000 => ctrlByte s
  | 0x001 => statusByte s
  | 0x002 => errCodeByte s.errCode
  | 0x004 => byteOf24 s.src 0
  | 0x005 => byteOf24 s.src 1
  | 0x006 => byteOf24 s.src 2
  | 0x008 => byteOf24 s.faultAddr 0
  | 0x009 => byteOf24 s.faultAddr 1
  | 0x00A => byteOf24 s.faultAddr 2
  | _ => 0x00

/-- The byte the map of R26 holds at an address; reserved addresses read 0 (R33). -/
def portByte (s : State) (a : HostAddr) : Byte :=
  let n := a.toNat
  if n < 0x00C then controlByte s n
  else if n < 0x01F then debugByte s n
  else if 0x400 ≤ n ∧ n ≤ 0x70F then s.wm.read (n - 0x400)
  else if 0x800 ≤ n ∧ n ≤ 0xB0F then s.out.read (n - 0x800)
  else 0x00

/-- RD (R93): the byte goes to the read data port and nothing else changes. While busy a read of the debug view or a window
returns a free value (U3, log 4). -/
def execRd (a : HostAddr) (s : State) : Host.Outcome State Fault Refusal :=
  if s.busy && isDebugView a then
    .next { s with hrdata := Config.freeReadByte s.freeCtr, freeCtr := s.freeCtr + 1 }
  else .next { s with hrdata := portByte s a }

end Sys2Proof.Machine
end

