-- ==== Sys2Proof/Machine/Packets.lean ====
section
/-! DEFINITION. Pass setup, mode and kind tokens, direct-write and run-length packets (41_packets.md). -/

namespace Sys2Proof.Machine

/-! ### Pass setup, mode and kind -/

/-- PASS_SETUP (R60). -/
def execPassSetup (s : State) : Host.Outcome State Fault Refusal :=
  .next { s with
    pptr := planeBase s.orient
    sptr := planeBase s.orient
    phase := if s.fpd then .mode else .kind }

/-- The packing mode is read once, before the kind bit of the second pass (R61). -/
def setMode (m : BitVec 2) (s : State) : State := { s with mode := m, phase := .kind }

/-- MODE0 (R61). -/
def execMode0 (s : State) : Host.Outcome State Fault Refusal := .next (setMode 0 s)

/-- MODE1 (R61). -/
def execMode1 (s : State) : Host.Outcome State Fault Refusal := .next (setMode 1 s)

/-- MODE2 (R61). -/
def execMode2 (s : State) : Host.Outcome State Fault Refusal := .next (setMode 2 s)

/-- The start of a run-length packet: no 1-bit counted yet (R62, R65). -/
def enterRun (s : State) : State := { s with rlen := 0, phase := .rlePrefix }

/-- KIND_RLE (R62). -/
def execKindRle (s : State) : Host.Outcome State Fault Refusal := .next (enterRun s)

/-- KIND_DATA (R62). -/
def execKindData (s : State) : Host.Outcome State Fault Refusal := .next (s.setPhase .data)

/-! ### Direct-write packet -/

/-- ENDDATA (R65): code 0 starts a run. -/
def execEndData (s : State) : Host.Outcome State Fault Refusal := .next (enterRun s)

/-- A non-zero code (R65): write the cell, advance, continue in DATA. -/
def writePair (c : Byte) (s : State) : Host.Outcome State Fault Refusal :=
  match cellWrite c s with
  | none => .fault .wmOutOfRange
  | some s1 => .next (dispatch (advance s1).1 .data (advance s1).2)

/-- PAIR1 (R65). -/
def execPair1 (s : State) : Host.Outcome State Fault Refusal := writePair 1 s

/-- PAIR2 (R65). -/
def execPair2 (s : State) : Host.Outcome State Fault Refusal := writePair 2 s

/-- PAIR3 (R65). -/
def execPair3 (s : State) : Host.Outcome State Fault Refusal := writePair 3 s

/-! ### Run-length packet -/

/-- A complete run token (R66, R67): the prefix length, the run length, and on to the writes. -/
def startRun (n v : Nat) (s : State) : State :=
  { s with rlen := BitVec.ofNat 4 n, rlecnt := BitVec.ofNat 16 (runCount n v), phase := .rleWrite }

/-- RUN_n0 (R47, R67): 0 leading 1-bits, 1 value bit. -/
def execRunN0 (v : BitVec 1) (s : State) : Host.Outcome State Fault Refusal := .next (startRun 0 v.toNat s)

/-- RUN_n1 (R47, R67): 1 leading 1-bits, 2 value bits. -/
def execRunN1 (v : BitVec 2) (s : State) : Host.Outcome State Fault Refusal := .next (startRun 1 v.toNat s)

/-- RUN_n2 (R47, R67): 2 leading 1-bits, 3 value bits. -/
def execRunN2 (v : BitVec 3) (s : State) : Host.Outcome State Fault Refusal := .next (startRun 2 v.toNat s)

/-- RUN_n3 (R47, R67): 3 leading 1-bits, 4 value bits. -/
def execRunN3 (v : BitVec 4) (s : State) : Host.Outcome State Fault Refusal := .next (startRun 3 v.toNat s)

/-- RUN_n4 (R47, R67): 4 leading 1-bits, 5 value bits. -/
def execRunN4 (v : BitVec 5) (s : State) : Host.Outcome State Fault Refusal := .next (startRun 4 v.toNat s)

/-- RUN_n5 (R47, R67): 5 leading 1-bits, 6 value bits. -/
def execRunN5 (v : BitVec 6) (s : State) : Host.Outcome State Fault Refusal := .next (startRun 5 v.toNat s)

/-- RUN_n6 (R47, R67): 6 leading 1-bits, 7 value bits. -/
def execRunN6 (v : BitVec 7) (s : State) : Host.Outcome State Fault Refusal := .next (startRun 6 v.toNat s)

/-- RUN_n7 (R47, R67): 7 leading 1-bits, 8 value bits. -/
def execRunN7 (v : BitVec 8) (s : State) : Host.Outcome State Fault Refusal := .next (startRun 7 v.toNat s)

/-- RUN_n8 (R47, R67): 8 leading 1-bits, 9 value bits. -/
def execRunN8 (v : BitVec 9) (s : State) : Host.Outcome State Fault Refusal := .next (startRun 8 v.toNat s)

/-- RUN_n9 (R47, R67): 9 leading 1-bits, 10 value bits. -/
def execRunN9 (v : BitVec 10) (s : State) : Host.Outcome State Fault Refusal := .next (startRun 9 v.toNat s)

/-- RUN_n10 (R47, R67): 10 leading 1-bits, 11 value bits. -/
def execRunN10 (v : BitVec 11) (s : State) : Host.Outcome State Fault Refusal := .next (startRun 10 v.toNat s)

/-- RUN_n11 (R47, R67): 11 leading 1-bits, 12 value bits. -/
def execRunN11 (v : BitVec 12) (s : State) : Host.Outcome State Fault Refusal := .next (startRun 11 v.toNat s)

/-- RUN_n12 (R47, R67): 12 leading 1-bits, 13 value bits. -/
def execRunN12 (v : BitVec 13) (s : State) : Host.Outcome State Fault Refusal := .next (startRun 12 v.toNat s)

/-- RUN_n13 (R47, R67): 13 leading 1-bits, 14 value bits. -/
def execRunN13 (v : BitVec 14) (s : State) : Host.Outcome State Fault Refusal := .next (startRun 13 v.toNat s)

/-- RUN_n14 (R47, R67): 14 leading 1-bits, 15 value bits. -/
def execRunN14 (v : BitVec 15) (s : State) : Host.Outcome State Fault Refusal := .next (startRun 14 v.toNat s)

/-- RUN_OVERLONG (R66): the 15th consecutive 1-bit, which the read has consumed; `RLEN` is 14 (R96). The fault address is the
offset of the byte that holds it. -/
def execRunOverlong (s : State) : Host.Outcome State Fault Refusal :=
  .next (raise .rleLen (s.inPtr - 1) { s with rlen := 14 })

/-- R68: after the advance `r`, one cell less to write; the run goes on, hands over to DATA, or is abandoned at the end of
the pass (R73). -/
def finishRunCell (r : AdvanceResult) (s : State) : State :=
  let s1 := { s with rlecnt := s.rlecnt - 1 }
  match r with
  | .notYetReady => if s1.rlecnt = 0 then s1.setPhase .data else s1.setPhase .rleWrite
  | .restart => dispatch .restart .data s1
  | .done => dispatch .done .data s1

/-- RLE_WRITE (R68). -/
def execRleWrite (s : State) : Host.Outcome State Fault Refusal :=
  match cellWrite 0 s with
  | none => .fault .wmOutOfRange
  | some s1 => .next (finishRunCell (advance s1).1 (advance s1).2)

end Sys2Proof.Machine
end

