-- ==== Sys2Proof/Machine/Reconstruct.lean ====
section
/-! DEFINITION. UNPACK and INTERLEAVE (43_reconstruct.md). The procedures that only change WM are functions of the memory. -/

namespace Sys2Proof.Machine

/-! ### The delta decode (R78) -/

/-- The pixels of a byte, from bit `k - 1` down to bit 0: the running bit `run` is XOR-ed with each input bit and becomes the
output bit. Gives the output byte (bits above `k` as in `y`) and the running bit after it. -/
def deltaBits : Nat → Byte → Bool → Byte → Byte × Bool
  | 0, _, run, y => (y, run)
  | k + 1, x, run, y =>
    let run' := run ^^ x.getLsbD k
    deltaBits k x run' (y ||| bitAt run' k)

/-- One byte of the delta decode: pixels left to right, bit 7 first. -/
def deltaByte (x : Byte) (run : Bool) : Byte × Bool := deltaBits 8 x run 0

/-- One pixel row: the tile-columns `cs` from left to right; `colBytes` is 8·H, `b` the plane's first byte. -/
def deltaCols (b colBytes r : Nat) (f : Bool) : List Nat → Bool → Memory → Memory
  | [], _, m => m
  | c :: cs, run, m =>
    let j := b + c * colBytes + r
    let d := deltaByte (m.read j) run
    deltaCols b colBytes r f cs d.2 (m.write j (flipIf f d.1))

/-- `DeltaDecode(b, f)` (R78) on a sprite of `w` by `h` tiles. -/
def deltaDecode (b w h : Nat) (f : Bool) (m : Memory) : Memory :=
  (List.range (8 * h)).foldl (fun m r => deltaCols b (8 * h) r f (List.range w) false m) m

/-! ### The merge (R79) -/

/-- One byte of the merge loop: reorder the byte of the second plane if flipped, then XOR the first plane's byte into it. -/
def mergeByte (pp sp : Nat) (f : Bool) (m : Memory) (j : Nat) : Memory :=
  let m1 := if f then m.write (sp + j) (nibrev (m.read (sp + j))) else m
  m1.write (sp + j) (m1.read (sp + j) ^^^ m1.read (pp + j))

/-- The merge loop over the sprite's bytes, ascending. -/
def mergePlanes (pp sp w h : Nat) (f : Bool) (m : Memory) : Memory :=
  (List.range (8 * w * h)).foldl (mergeByte pp sp f) m

/-- `ResetPtrs()` (R77). -/
def resetPtrs (s : State) : State :=
  if s.orient then { s with pptr := 0x000, sptr := 0x188 } else { s with pptr := 0x188, sptr := 0x000 }

/-- `DeltaDecode` at a focus pointer. -/
def decodePlane (b : Nat) (f : Bool) (s : State) : State :=
  { s with wm := deltaDecode b s.tilesWide s.tilesHigh f s.wm }

/-- `XorMerge()` (R79). -/
def xorMerge (s : State) : State :=
  let s1 := resetPtrs s
  let s2 := resetPtrs (decodePlane s1.pptr.toNat s1.flipL s1)
  { s2 with wm := mergePlanes s2.pptr.toNat s2.sptr.toNat s2.tilesWide s2.tilesHigh s2.flipL s2.wm }

/-! ### The three modes -/

/-- `Mode0()` (R81). -/
def unpackMode0 (s : State) : State :=
  let f := if s.cfg.mode0Flip then s.flipL else false
  decodePlane 0x188 f (decodePlane 0x000 f s)

/-- `Mode1()` (R82). -/
def unpackMode1 (s : State) : State := xorMerge s

/-- `Mode2()` (R83). -/
def unpackMode2 (s : State) : State :=
  let s1 := resetPtrs s
  xorMerge (decodePlane s1.sptr.toNat false s1)

/-- R80: the procedure of the packing mode; mode 3 "cannot occur" and selects none (log 24). -/
def unpackBy (s : State) : State :=
  if s.mode = 0 then unpackMode0 s
  else if s.mode = 1 then unpackMode1 s
  else if s.mode = 2 then unpackMode2 s
  else s

/-- The sprite's bytes fit a plane, as they do for every header R58 lets pass. -/
def planeFits (s : State) : Bool := decide (8 * s.tilesWide * s.tilesHigh ≤ Config.planeSize)

/-- UNPACK (R80); it stops where the plane would leave WM (log 12). -/
def execUnpack (s : State) : Host.Outcome State Fault Refusal :=
  if planeFits s then .next ((unpackBy s).setPhase .interleave) else .fault .wmOutOfRange

/-! ### The interleave (R85) -/

/-- The bytes of index `n - 1` down to 0 of both planes, each pair to OUT. -/
def interleaveFrom (wm : Memory) : Nat → Memory → Memory
  | 0, out => out
  | i + 1, out =>
    interleaveFrom wm i
      ((out.write (2 * i + 1) (wm.read (0x188 + i))).write (2 * i) (wm.read i))

/-- All of OUT (R85). Every byte is written, so nothing of the old OUT is left: the writes go to an empty memory (log 21). -/
def interleavePlanes (wm : Memory) : Memory := interleaveFrom wm Config.planeSize Memory.zero

/-- INTERLEAVE (R85). -/
def execInterleave (s : State) : Host.Outcome State Fault Refusal :=
  .next { s with out := interleavePlanes s.wm, busy := false, done := true, phase := .done }

end Sys2Proof.Machine
end

