-- ==== Sys2Proof/Machine/Dispatch.lean ====
section
/-! DEFINITION. One arm per instruction. -/

namespace Sys2Proof.Machine

def exec (i : Instr) (s : State) : Host.Outcome State Fault Refusal :=
  match i with
  | .hdr w h => Sys2Proof.Machine.execHdr w h s
  | .orient o => Sys2Proof.Machine.execOrient o s
  | .mode0 => Sys2Proof.Machine.execMode0 s
  | .mode1 => Sys2Proof.Machine.execMode1 s
  | .mode2 => Sys2Proof.Machine.execMode2 s
  | .kindRle => Sys2Proof.Machine.execKindRle s
  | .kindData => Sys2Proof.Machine.execKindData s
  | .endData => Sys2Proof.Machine.execEndData s
  | .pair1 => Sys2Proof.Machine.execPair1 s
  | .pair2 => Sys2Proof.Machine.execPair2 s
  | .pair3 => Sys2Proof.Machine.execPair3 s
  | .runN0 v => Sys2Proof.Machine.execRunN0 v s
  | .runN1 v => Sys2Proof.Machine.execRunN1 v s
  | .runN2 v => Sys2Proof.Machine.execRunN2 v s
  | .runN3 v => Sys2Proof.Machine.execRunN3 v s
  | .runN4 v => Sys2Proof.Machine.execRunN4 v s
  | .runN5 v => Sys2Proof.Machine.execRunN5 v s
  | .runN6 v => Sys2Proof.Machine.execRunN6 v s
  | .runN7 v => Sys2Proof.Machine.execRunN7 v s
  | .runN8 v => Sys2Proof.Machine.execRunN8 v s
  | .runN9 v => Sys2Proof.Machine.execRunN9 v s
  | .runN10 v => Sys2Proof.Machine.execRunN10 v s
  | .runN11 v => Sys2Proof.Machine.execRunN11 v s
  | .runN12 v => Sys2Proof.Machine.execRunN12 v s
  | .runN13 v => Sys2Proof.Machine.execRunN13 v s
  | .runN14 v => Sys2Proof.Machine.execRunN14 v s
  | .runOverlong => Sys2Proof.Machine.execRunOverlong s
  | .passSetup => Sys2Proof.Machine.execPassSetup s
  | .rleWrite => Sys2Proof.Machine.execRleWrite s
  | .unpack => Sys2Proof.Machine.execUnpack s
  | .interleave => Sys2Proof.Machine.execInterleave s
  | .start d => Sys2Proof.Machine.execStart d s
  | .ctrlWr d => Sys2Proof.Machine.execCtrlWr d s
  | .clrSt d => Sys2Proof.Machine.execClrSt d s
  | .srcWr0 d => Sys2Proof.Machine.execSrcWr0 d s
  | .srcWr1 d => Sys2Proof.Machine.execSrcWr1 d s
  | .srcWr2 d => Sys2Proof.Machine.execSrcWr2 d s
  | .rd a => Sys2Proof.Machine.execRd a s

end Sys2Proof.Machine
end

