-- ==== Sys2Proof/Machine/Fetch.lean ====
section
/-! DEFINITION. The engine's read of the next token (R50): the phase fixes the format, the bits come from the ROM through the
bit cursor. A run token is read over several steps, one bit of its unary part a step (R66), its value in the last (R67); the
step that completes the token runs it (log 11). -/

namespace Sys2Proof.Machine

/-- What one engine step reads. -/
inductive Fetched where
  /-- a complete token, and the state with the cursor past it -/
  | token (i : Instr) (s : State)
  /-- one bit of a run's unary part (R66), the token not yet complete -/
  | more (s : State)
  /-- a byte at or beyond `ROM_SIZE` was needed (R56); the bits read before it are consumed -/
  | romOutOfRange (s : State)
  /-- the engine takes no steps in this phase -/
  | quiescent
  /-- a run value with `RLEN` = 15, which no rule produces (U16, log 13) -/
  | unreachable

/-- The result of a token reader as a step's read. -/
def ofToken (r : Except State (Instr × State)) : Fetched :=
  match r with
  | .error e => .romOutOfRange e
  | .ok (i, s1) => .token i s1

/-- HEADER (R58): the whole byte at `IN_PTR`. -/
def fetchHeader (s : State) : Fetched :=
  match romFetch s with
  | .error e => .romOutOfRange e
  | .ok (b, s1) => .token (hdrOfByte b) s1

/-- RLE_PREFIX (R66): one bit. -/
def fetchRunBit (s : State) : Fetched :=
  match readBit s with
  | .error e => .romOutOfRange e
  | .ok (b, s1) =>
    match runBit s.rlen.toNat b with
    | .overlong => .token .runOverlong s1
    | .more => .more { s1 with rlen := s1.rlen + 1 }
    | .value => .more (s1.setPhase .rleValue)

/-- RLE_VALUE (R67): the n+1 value bits, n = `RLEN`. -/
def fetchRunValue (s : State) : Fetched :=
  match runValueFrom readBit s.rlen.toNat s with
  | .error e => .romOutOfRange e
  | .ok (some i, s1) => .token i s1
  | .ok (none, _) => .unreachable

/-- The read of one engine step, by phase (R24, R50). -/
def fetch (s : State) : Fetched :=
  match s.phase with
  | .idle => .quiescent
  | .header => fetchHeader s
  | .orient => ofToken (orientFrom readBit s)
  | .passSetup => .token .passSetup s
  | .mode => ofToken (modeFrom readBit s)
  | .kind => ofToken (kindFrom readBit s)
  | .data => ofToken (pairFrom readBit s)
  | .rlePrefix => fetchRunBit s
  | .rleValue => fetchRunValue s
  | .rleWrite => .token .rleWrite s
  | .unpack => .token .unpack s
  | .interleave => .token .interleave s
  | .done => .quiescent
  | .error => .quiescent

/-! ### Placing an instruction where the next step runs it (log 9) -/

/-- Writes bytes into a memory from an address on. -/
def writeBytes (m : Memory) : Nat → List Byte → Memory
  | _, [] => m
  | a, b :: bs => writeBytes (m.write a b) (a + 1) bs

/-- Moves the cursor past `k` bits, as `k` bit reads do. -/
def skipBits : Nat → State → State
  | 0, s => s
  | k + 1, s =>
    match readBit s with
    | .error e => e
    | .ok (_, s1) => skipBits k s1

/-- Stores a token's bits at the start of the ROM and puts the engine in the phase that reads it, the cursor at its first
unread bit; no input comes first. -/
def placeToken (bits : List Bool) (readBefore : Nat) (p : Phase) (n : BitVec 4) (s : State) : State :=
  let bytes := bytesOfBits 8 bits
  skipBits readBefore
    { s with
      rom := writeBytes s.rom 0 bytes
      romStale := []
      cfg := { s.cfg with romSize := max s.cfg.romSize bytes.length }
      inPtr := 0, inByte := 0, inCnt := 0
      rlen := n
      phase := p, busy := true, done := false, err := false, rst := false
      errCode := .none, faultAddr := 0
      inputs := match s.inputs with
        | [] => []
        | q :: rest => { q with delay := q.delay + 1 } :: rest }

/-- Puts a host access in front of the pending inputs. -/
def placeAccess (e : Event) (s : State) : State := { s with inputs := { delay := 0, event := e } :: s.inputs }

/-- Sets up the state so that the very next step runs `i`. For a run token the unary part, which earlier steps read, has been
read; for the overlong prefix its first 14 bits. -/
def placeInstr (i : Instr) (s : State) : State :=
  match contextOf i with
  | .header => placeToken (encode i) 0 .header s.rlen s
  | .orient => placeToken (encode i) 0 .orient s.rlen s
  | .passSetup => placeToken [] 0 .passSetup s.rlen s
  | .mode => placeToken (encode i) 0 .mode s.rlen s
  | .kind => placeToken (encode i) 0 .kind s.rlen s
  | .data => placeToken (encode i) 0 .data s.rlen s
  | .run =>
    if i = .runOverlong then placeToken (encode i) 14 .rlePrefix 14 s
    else
      let n := (encode i).length / 2 - 1
      placeToken (encode i) (n + 1) .rleValue (BitVec.ofNat 4 n) s
  | .rleWrite => placeToken [] 0 .rleWrite s.rlen s
  | .unpack => placeToken [] 0 .unpack s.rlen s
  | .interleave => placeToken [] 0 .interleave s.rlen s
  | .hostWrite =>
    placeAccess (.hostWrite (BitVec.ofNat 12 (natOfBits ((encode i).take 12))) (BitVec.ofNat 8 (natOfBits ((encode i).drop 12)))) s
  | .hostRead => placeAccess (.hostRead (BitVec.ofNat 12 (natOfBits (encode i)))) s

end Sys2Proof.Machine
end

