-- ==== Sys2Proof/Machine/Inputs.lean ====
section
/-! DEFINITION. The inputs that are no host port access: RST (R106) and a ROM byte the host changes (R44, R109). -/

namespace Sys2Proof.Machine

/-- The reset values (R106), whatever the engine was doing (U19), with RST at `level`. WM and OUT become unspecified again
(U1, U2). The ROM, its parameters, the pending inputs and the byte last read belong to the host and stay (log 7). -/
def applyReset (level : Bool) (s : State) : State :=
  { State.reset with
    rst := level
    wm := Memory.unspecified s.freeCtr
    out := Memory.unspecified (s.freeCtr + 1)
    rom := s.rom
    cfg := s.cfg
    hrdata := s.hrdata
    inputs := s.inputs
    freeCtr := s.freeCtr + 2 }

/-- RST is driven to `level` (R106): "While `RST` is asserted, and when it is released, SPRDEC holds the reset values". Driving it
low where it is low already changes nothing. -/
def driveRst (level : Bool) (s : State) : State := if level || s.rst then applyReset level s else s

/-- The host changes a ROM byte. While busy the old byte may still be read by a later fetch (R109; log 5). An offset outside
the image stops the model (log 18). -/
def applyRomWrite (a : RomAddr) (d : Byte) (s : State) : Host.Outcome State Fault Refusal :=
  if a.toNat < s.cfg.romSize then
    .next { s with
      rom := s.rom.write a.toNat d
      romStale := if s.busy then (a.toNat, s.rom.read a.toNat) :: s.romStale else s.romStale }
  else .fault .romOutOfRange

/-- An engine step passes: the next input comes one step sooner (R88). -/
def tickInputs (s : State) : State :=
  { s with
    inputs := match s.inputs with
      | [] => []
      | p :: rest => { p with delay := p.delay - 1 } :: rest }

/-- The input that arrives before the next engine step, if any: its delay is over, or the engine takes no steps (R88, R105). -/
def dueInput (s : State) : Option (Event × State) :=
  match s.inputs with
  | [] => none
  | p :: rest =>
    if p.delay = 0 || !phaseBusy s.phase then some (p.event, { s with inputs := rest }) else none

end Sys2Proof.Machine
end

