-- ==== Sys2Proof/Machine/Step.lean ====
section
/-! DEFINITION. One step: an input that is due, or one engine step (R88). -/

namespace Sys2Proof.Machine

/-- One engine step (R24): read, and run the token if it is complete. A read past the ROM raises ROM_OOB with the offset that
was to be read (R56, R96). In IDLE, DONE and ERROR nothing happens (R105). -/
def engineStep (s : State) : Host.Outcome State Fault Refusal :=
  match fetch s with
  | .token i s1 => exec i s1
  | .more s1 => .next s1
  | .romOutOfRange s1 => .next (raise .romOob s1.inPtr s1)
  | .quiescent => .next s
  | .unreachable => .refused .runLengthUnreachable

/-- One input. A write to an address that is no command is ignored (R33). -/
def inputStep (e : Event) (s : State) : Host.Outcome State Fault Refusal :=
  match e with
  | .hostWrite a d =>
    match hostWriteInstr a d with
    | some i => exec i s
    | none => .next s
  | .hostRead a => exec (.rd a) s
  | .romWrite a d => applyRomWrite a d s
  | .rst level => .next (driveRst level s)

/-- One step of the machine. -/
def step (s : State) : Host.Outcome State Fault Refusal :=
  match dueInput s with
  | some (e, s1) => inputStep e s1
  | none => engineStep (tickInputs s)

/-- `s` with the instruction of an opcode-table word where the next step runs it (log 9). -/
def State.withFetchWord (s : State) (nbits w : Nat) : State :=
  match decodeTableWord nbits w with
  | some i => placeInstr i s
  | none => s

end Sys2Proof.Machine
end

