-- ==== Sys2Proof/Machine/HostSide.lean ====
section
/-! DEFINITION. What the spec writes down of the host's side, as functions beside the machine: the address translator a host uses
to compute SRC (R37; SPRDEC itself does not contain it), and OUT read as tiles (R86). No step uses them. -/

namespace Sys2Proof.Machine

/-- `resolve(bank, addr)` (R37). -/
def resolveAddr (bank addr : Nat) : Nat := if addr < 0x4000 then addr else bank * 0x4000 + (addr - 0x4000)

/-- `relativize(x)` (R37) for x ≥ 0x4000: the bank and the address in the window 0x4000 to 0x7FFF. -/
def relativizeAddr (x : Nat) : Nat × Nat := (x / 0x4000, 0x4000 + x % 0x4000)

/-- `read_u16le` (R37). -/
def readU16le (m : Memory) (off : Nat) : Nat := (m.read off).toNat + 256 * (m.read (off + 1)).toNat

/-- Row `y` of tile `k` of OUT: the BUF1 byte and the BUF2 byte (R86). -/
def outTileRow (out : Memory) (k y : Nat) : Byte × Byte := (out.read (16 * k + 2 * y), out.read (16 * k + 2 * y + 1))

end Sys2Proof.Machine
end

