-- ==== Sys2Proof/Safety.lean ====
section
/-! DEFINITION. The terms the statements use: the bits still unread, the order of the cells (R71), the invariants of R11, R25, R28
and R64, the bound on a decode's work (R74, R114). -/

namespace Sys2Proof.Machine

/-! ### The unread stream (R15, R38) -/

/-- The ROM bytes from offset `a` on, `n` of them. -/
def romBytes (m : Memory) : Nat → Nat → List Byte
  | _, 0 => []
  | a, n + 1 => m.read a :: romBytes m (a + 1) n

/-- The bits the engine has still to read: those left in `IN_BYTE`, then the bytes from `IN_PTR` to the end of the ROM. -/
def unreadBits (s : State) : List Bool :=
  (bitsOfNat 8 s.inByte.toNat).take s.inCnt.toNat ++
    bitsOfBytes (romBytes s.rom s.inPtr.toNat (s.cfg.romSize - s.inPtr.toNat))

/-- What decoding sees in front of the unread bits: in RLE_VALUE the unary part that earlier steps read (R66). -/
def tokenBits (s : State) : List Bool :=
  match s.phase with
  | .rleValue => List.replicate s.rlen.toNat true ++ false :: unreadBits s
  | .rlePrefix => List.replicate s.rlen.toNat true ++ unreadBits s
  | _ => unreadBits s

/-- The decoding context of a phase (R50). -/
def phaseContext (p : Phase) : Option Context :=
  match p with
  | .idle => none
  | .header => some .header
  | .orient => some .orient
  | .passSetup => some .passSetup
  | .mode => some .mode
  | .kind => some .kind
  | .data => some .data
  | .rlePrefix => some .run
  | .rleValue => some .run
  | .rleWrite => some .rleWrite
  | .unpack => some .unpack
  | .interleave => some .interleave
  | .done => none
  | .error => none

/-! ### The cells of a pass (R71) -/

/-- The bytes of the sprite in one plane: 8·W·H. -/
def State.spriteBytes (s : State) : Nat := 8 * s.tilesWide * s.tilesHigh

/-- The cells of a pass: 32·W·H. -/
def State.passCells (s : State) : Nat := 32 * s.tilesWide * s.tilesHigh

/-- The number of the current cell in its pass: how many cells of the pass come before it. -/
def State.cellIndex (s : State) : Nat :=
  s.col.toNat / 8 * (32 * s.tilesHigh) + (3 - s.rot.toNat) * (8 * s.tilesHigh) + s.row.toNat

/-- The WM index of the byte of cell `k` in the plane of orientation `o` (R71). -/
def cellByte (o : Bool) (h k : Nat) : Nat := (planeBase o).toNat + k / (32 * h) * (8 * h) + k % (32 * h) % (8 * h)

/-- The bit-pair position of cell `k` (R71). -/
def cellRot (h k : Nat) : Nat := 3 - k % (32 * h) / (8 * h)

/-- The two bits of cell `k` of the plane of orientation `o`. -/
def cellValue (m : Memory) (o : Bool) (h k : Nat) : Byte := (m.read (cellByte o h k) >>> (2 * cellRot h k)) &&& 3

/-- A phase of a pass after its setup (R25). -/
def inPass (p : Phase) : Bool :=
  match p with
  | .mode => true
  | .kind => true
  | .data => true
  | .rlePrefix => true
  | .rleValue => true
  | .rleWrite => true
  | .idle => false
  | .header => false
  | .orient => false
  | .passSetup => false
  | .unpack => false
  | .interleave => false
  | .done => false
  | .error => false

/-- A phase after the header check and before an error (R58). -/
def headerPassed (p : Phase) : Bool :=
  match p with
  | .orient => true
  | .passSetup => true
  | .mode => true
  | .kind => true
  | .data => true
  | .rlePrefix => true
  | .rleValue => true
  | .rleWrite => true
  | .unpack => true
  | .interleave => true
  | .done => true
  | .idle => false
  | .header => false
  | .error => false

/-- A phase in which no cell of the current pass has been written yet. -/
def passUnbegun (p : Phase) : Bool :=
  match p with
  | .header => true
  | .orient => true
  | .passSetup => true
  | .mode => true
  | .kind => true
  | .idle => false
  | .data => false
  | .rlePrefix => false
  | .rleValue => false
  | .rleWrite => false
  | .unpack => false
  | .interleave => false
  | .done => false
  | .error => false

/-- A phase after the second pass of a decode. -/
def passesDone (p : Phase) : Bool :=
  match p with
  | .unpack => true
  | .interleave => true
  | .done => true
  | .idle => false
  | .header => false
  | .orient => false
  | .passSetup => false
  | .mode => false
  | .kind => false
  | .data => false
  | .rlePrefix => false
  | .rleValue => false
  | .rleWrite => false
  | .error => false

/-! ### Invariants -/

/-- The memories keep their canonical form and their size (R10, R12, R13, R5). -/
structure MemoryInv (s : State) : Prop where
  wm_wf : s.wm.wf = true
  wm_size : s.wm.below Config.outSize = true
  out_wf : s.out.wf = true
  out_size : s.out.below Config.outSize = true
  rom_wf : s.rom.wf = true
  rom_size : s.rom.below s.cfg.romSize = true
  rom_fill : s.rom.fill = .zero
  size_range : 1 ≤ s.cfg.romSize ∧ s.cfg.romSize ≤ Config.romSizeMax

/-- STATUS, ERRCODE and FAULTADDR agree with PHASE (R28, R29, R31). -/
structure StatusInv (s : State) : Prop where
  busy_iff : s.busy = phaseBusy s.phase
  done_phase : s.done = true → s.phase = .done
  err_phase : s.err = true → s.phase = .error
  code_none : s.errCode = .none ↔ s.phase ≠ .error
  addr_zero : s.phase ≠ .error → s.faultAddr = 0

/-- R106: "While `RST` is asserted ... SPRDEC holds the reset values". WM and OUT are unspecified; the ROM, its parameters and the
host's own data are not the block's. -/
def ResetInv (s : State) : Prop :=
  s.rst = true → s = { State.reset with
    rst := true, wm := s.wm, out := s.out, rom := s.rom, cfg := s.cfg
    hrdata := s.hrdata, inputs := s.inputs, freeCtr := s.freeCtr }

/-- R25: where the counters and the focus pointers stand during a pass. -/
structure PassGeometry (s : State) : Prop where
  row_lt : s.row.toNat < 8 * s.tilesHigh
  column : ∃ c, c < s.tilesWide ∧ s.col.toNat = 8 * c ∧
    s.sptr.toNat = (planeBase s.orient).toNat + c * (8 * s.tilesHigh)
  pptr_eq : s.pptr.toNat = s.sptr.toNat + s.row.toNat

/-- The ranges of R14, the geometry of R25 and the flags' course (R18 to R22). -/
structure PassInv (s : State) : Prop where
  cnt_le : s.inCnt.toNat ≤ 8
  mode_le : s.mode.toNat ≤ 2
  rlen_le : s.rlen.toNat ≤ 14
  count_le : s.rlecnt.toNat ≤ 65534
  pptr_lt : s.pptr.toNat < Config.outSize
  sptr_lt : s.sptr.toNat < Config.outSize
  row_le : s.row.toNat ≤ 55
  col_le : ∃ c, c ≤ 6 ∧ s.col.toNat = 8 * c
  count_pos : s.phase = .rleWrite → 1 ≤ s.rlecnt.toNat
  dims : headerPassed s.phase = true → legalDim s.tilesWide = true ∧ legalDim s.tilesHigh = true
  geometry : inPass s.phase = true → PassGeometry s
  at_start : passUnbegun s.phase = true ∨ passesDone s.phase = true → s.row = 0 ∧ s.col = 0 ∧ s.rot = 3
  first_pass : s.phase = .header ∨ s.phase = .orient → s.fpd = false ∧ s.orient0 = false
  second_pass : s.phase = .mode ∨ passesDone s.phase = true → s.fpd = true
  orient_eq : s.orient = (s.orient0 ^^ s.fpd)
  mode_unread : s.fpd = false → s.mode = 0
  /-- the header is a whole byte: no unread bit stands before it (R58) -/
  header_aligned : s.phase = .header → s.inCnt = 0

/-- What the planes hold (R10, R11, R60, R64). -/
structure PlaneInv (s : State) : Prop where
  /-- START cleared WM; only RST makes it unspecified -/
  wm_known : s.phase ≠ .idle → s.wm.fill = .zero
  /-- a plane's bytes beyond the sprite are zero (R11) -/
  beyond_zero : headerPassed s.phase = true → ∀ j, s.spriteBytes ≤ j → j < Config.planeSize →
    s.wm.read j = 0 ∧ s.wm.read (Config.planeSize + j) = 0
  /-- the plane of a pass not yet begun is zero (R60) -/
  plane_zero : passUnbegun s.phase = true → ∀ j, j < Config.planeSize → s.wm.read ((planeBase s.orient).toNat + j) = 0
  /-- during the first pass the other plane is zero (R60) -/
  other_zero : s.fpd = false → passUnbegun s.phase = true ∨ inPass s.phase = true →
    ∀ j, j < Config.planeSize → s.wm.read ((planeBase (!s.orient)).toNat + j) = 0
  /-- the cells not yet written are zero (R64) -/
  ahead_zero : inPass s.phase = true → ∀ k, s.cellIndex ≤ k → k < s.passCells →
    cellValue s.wm s.orient s.tilesHigh k = 0

/-! ### The work of a decode (R74, R114) -/

/-- Engine steps that 18 steps a cell allow for a pass. -/
def passWork (s : State) : Nat := 18 * s.passCells

/-- The steps after the current pass: the second pass's setup, mode, kind and cells, then UNPACK and INTERLEAVE. -/
def workAfterPass (s : State) : Nat := if s.fpd then 2 else 5 + passWork s

/-- Cells of the pass from the current one on. -/
def cellsLeft (s : State) : Nat := s.passCells - s.cellIndex

/-- A bound on the engine steps a decode can still take. -/
def workLeft (s : State) : Nat :=
  match s.phase with
  | .idle => 0
  | .header => 56457
  | .orient => 8 + 2 * passWork s
  | .passSetup => (if s.fpd then 3 else 2) + passWork s + workAfterPass s
  | .mode => 2 + passWork s + workAfterPass s
  | .kind => 1 + passWork s + workAfterPass s
  | .data => 18 * cellsLeft s + workAfterPass s
  | .rlePrefix => 15 - s.rlen.toNat + 2 + 18 * (cellsLeft s - 1) + workAfterPass s
  | .rleValue => 2 + 18 * (cellsLeft s - 1) + workAfterPass s
  | .rleWrite => 1 + 18 * (cellsLeft s - 1) + workAfterPass s
  | .unpack => 2
  | .interleave => 1
  | .done => 0
  | .error => 0

/-- `k` steps of the machine, stopping where a step stops. -/
def runSteps (k : Nat) (s : State) : Host.Outcome State Fault Refusal := Sys2Proof.core.run k s

/-! ### Pixels (R11, R78) -/

/-- Pixel `x` of row `r` of the plane at `b`, for columns of `8·h` bytes: bit 7 of a byte is its leftmost pixel. -/
def pixelAt (m : Memory) (b h r x : Nat) : Bool := (m.read (b + x / 8 * (8 * h) + r)).getLsbD (7 - x % 8)

/-- The XOR of pixels 0 to `n - 1` of a row. -/
def xorOfPixels (m : Memory) (b h r : Nat) : Nat → Bool
  | 0 => false
  | n + 1 => xorOfPixels m b h r n ^^ pixelAt m b h r n

end Sys2Proof.Machine
end

