-- ==== Sys2Proof/Certificates/Slice0/Obligations.lean ====
section
/-! DEFINITION. The statements for the provers. Each docstring names the rule of spec/ it formalises, or says that it rests on
the model's own choice and names the log entry. -/

open Sys2Proof Sys2Proof.Machine

/-! ### Encoding -/

/-- R46, R47, R55: no bit of an encoding is dropped. Whatever follows a token in the stream is left over. -/
def Obligations.DecodeOfEncodeIsTheInstruction : Prop :=
  ∀ (i : Instr) (rest : List Bool), WellFormed i = true → decode (contextOf i) (encode i ++ rest) = .ok (i, rest)

/-- R50, R51: a decoded instruction was written by its one encoding, in its own context. -/
def Obligations.DecodedBitsAreTheEncoding : Prop :=
  ∀ (c : Context) (bits rest : List Bool) (i : Instr), decode c bits = .ok (i, rest) →
    contextOf i = c ∧ WellFormed i = true ∧ bits = encode i ++ rest

/-- R48: the table of run lengths, and that every length from 1 to 65534 has exactly one code. -/
def Obligations.EveryRunLengthHasOneCode : Prop :=
  (∀ n, n ≤ 14 →
    runCount n 0 = 2 ^ (n + 1) - 1 ∧ runCount n (2 ^ (n + 1) - 1) = 2 ^ (n + 2) - 2 ∧
    ∀ v, v < 2 ^ (n + 1) → ∃ i, runToken n v = some i ∧ (encode i).length = 2 * n + 2 ∧
      2 ^ (n + 1) - 1 ≤ runCount n v ∧ runCount n v ≤ 2 ^ (n + 2) - 2) ∧
  (∀ len, 1 ≤ len → len ≤ 65534 →
    ∃ n v, n ≤ 14 ∧ v < 2 ^ (n + 1) ∧ runCount n v = len ∧
      ∀ n' v', n' ≤ 14 → v' < 2 ^ (n' + 1) → runCount n' v' = len → n' = n ∧ v' = v) ∧
  (∀ n v, 1 ≤ runCount n v) ∧
  (∀ n v w h, 10 ≤ n → w ≤ 7 → h ≤ 7 → 32 * w * h ≤ 1568 ∧ 32 * w * h ≤ runCount n v)

/-- Words written out from the encodings of R46, R47, R54 and R55. That `decodeTableWord` reads 0xE9 in 8 bits as a run and not as a
header is the order of its readings, the model's own choice (log 19). -/
def Obligations.SpecWordsDecodeToTheirInstructions : Prop :=
  decode .header (bitsOfBytes [0x23]) = .ok (.hdr 2 3, []) ∧
  decode .mode [true, false, true] = .ok (.mode1, [true]) ∧
  decode .data [true, false] = .ok (.pair2, []) ∧
  decode .run [true, true, true, false, true, false, false, true] = .ok (.runN3 9, []) ∧
  decode .run (List.replicate 15 true) = .ok (.runOverlong, []) ∧
  decodeTableWord 8 0xE9 = some (.runN3 9) ∧
  decodeTableWord 24 0x00003 = some (.start 3) ∧
  decodeTableWord 24 0x00004 = some (.ctrlWr 4) ∧
  decodeTableWord 24 0x00106 = some (.clrSt 6) ∧
  decodeTableWord 24 0x00534 = some (.srcWr1 0x34) ∧
  decodeTableWord 16 0x017 = some (.rd 0x017)

/-! ### The bit reader -/

/-- R56: one byte, or the error without an increment. (For a byte the host changed while busy see
`Obligations.ChangedRomByteReadsOldOrNew`.) -/
def Obligations.RomFetchReadsOneByteOrFails : Prop :=
  ∀ s : State,
    (s.cfg.romSize ≤ s.inPtr.toNat → romFetch s = .error s) ∧
    (s.inPtr.toNat < s.cfg.romSize → (∀ c ∈ s.romStale, c.1 ≠ s.inPtr.toNat) →
      romFetch s = .ok (s.rom.read s.inPtr.toNat, { s with inPtr := s.inPtr + 1 }))

/-- R57 with R15 and R38: a bit read takes the first unread bit; the refill is lazy; at the end of the ROM the read fails and
nothing has changed. -/
def Obligations.ReadBitTakesTheFirstUnreadBit : Prop :=
  ∀ s : State, s.inCnt.toNat ≤ 8 → s.cfg.romSize ≤ Config.romSizeMax → s.romStale = [] →
    (unreadBits s = [] → readBit s = .error s) ∧
    (∀ b rest, unreadBits s = b :: rest → ∃ t, readBit s = .ok (b, t) ∧ unreadBits t = rest ∧
      t = { s with inPtr := t.inPtr, inByte := t.inByte, inCnt := t.inCnt } ∧
      t.inPtr = (if s.inCnt = 0 then s.inPtr + 1 else s.inPtr) ∧ t.inCnt = (if s.inCnt = 0 then 7 else s.inCnt - 1))

/-- R9, R47: `ReadBits(k)` is the number the next `k` bits write, first bit most significant; if fewer are left, all of them
are consumed and the read fails (R96). -/
def Obligations.ReadBitsIsMostSignificantFirst : Prop :=
  ∀ (k : Nat) (s : State), s.inCnt.toNat ≤ 8 → s.cfg.romSize ≤ Config.romSizeMax → s.romStale = [] →
    (k ≤ (unreadBits s).length → ∃ t, readBitsFrom readBit k 0 s = .ok (natOfBits ((unreadBits s).take k), t) ∧
      unreadBits t = (unreadBits s).drop k) ∧
    ((unreadBits s).length < k → ∃ e, readBitsFrom readBit k 0 s = .error e ∧ unreadBits e = [])

/-- R50 to R52, R58 to R67: what an engine step reads is what the decoder reads from the unread bits; an engine step of a run's
unary part moves one bit of the same token; a token the ROM cuts short is a read past the ROM. -/
def Obligations.EngineReadsTheDecodedToken : Prop :=
  ∀ (s : State) (c : Context), MemoryInv s → PassInv s → s.romStale = [] → phaseContext s.phase = some c →
    (s.phase ≠ .rlePrefix →
      (∀ i rest, decode c (tokenBits s) = .ok (i, rest) → ∃ t, fetch s = .token i t ∧ unreadBits t = rest) ∧
      (decode c (tokenBits s) = .error .truncated → ∃ t, fetch s = .romOutOfRange t ∧ s.cfg.romSize ≤ t.inPtr.toNat)) ∧
    (s.phase = .rlePrefix →
      (unreadBits s = [] → fetch s = .romOutOfRange s) ∧
      (∀ rest, unreadBits s = true :: rest → s.rlen = 14 → ∃ t, fetch s = .token .runOverlong t ∧ unreadBits t = rest) ∧
      (∀ b rest, unreadBits s = b :: rest → ¬(b = true ∧ s.rlen = 14) →
        ∃ t, fetch s = .more t ∧ tokenBits t = tokenBits s ∧ unreadBits t = rest))

/-- How a step and `exec` belong together (R88, R50, R33, R56, R96): an input that is due runs its command; else the engine reads,
and a complete token runs on the state past it. Which input is due, and the placement in the last clause, are the model's own
(log 6, log 9). -/
def Obligations.StepRunsTheDecodedInstruction : Prop :=
  (∀ s i t, dueInput s = none → fetch (tickInputs s) = .token i t → step s = exec i t) ∧
  (∀ s t, dueInput s = none → fetch (tickInputs s) = .more t → step s = .next t) ∧
  (∀ s t, dueInput s = none → fetch (tickInputs s) = .romOutOfRange t →
    step s = .next (raise .romOob t.inPtr t)) ∧
  (∀ s a d i t, dueInput s = some (.hostWrite a d, t) → hostWriteInstr a d = some i → step s = exec i t) ∧
  (∀ s a d t, dueInput s = some (.hostWrite a d, t) → hostWriteInstr a d = none → step s = .next t) ∧
  (∀ s a t, dueInput s = some (.hostRead a, t) → step s = exec (.rd a) t) ∧
  (∀ s a d t, dueInput s = some (.romWrite a d, t) → step s = applyRomWrite a d t) ∧
  (∀ s level t, dueInput s = some (.rst level, t) → step s = .next (driveRst level t)) ∧
  (∀ s a d, decode .hostWrite (hostWriteBits a.toNat d.toNat) =
    (match hostWriteInstr a d with | some i => .ok (i, []) | none => .error .ignoredWrite) ∧
    (s.inputs = [] → dueInput (placeAccess (.hostWrite a d) s) = some (.hostWrite a d, s)))

/-- R66, R67 (the table's RUN rows): from RLE_PREFIX a run of `n` leading 1-bits takes n+1 steps for its unary part and one for
its value, and the last of them runs the token. -/
def Obligations.RunTokenTakesOneStepPerBitOfItsUnaryPart : Prop :=
  ∀ (s : State) (n v : Nat) (i : Instr) (rest : List Bool), MemoryInv s → PassInv s → s.romStale = [] → s.inputs = [] →
    s.phase = .rlePrefix → s.rlen = 0 → v < 2 ^ (n + 1) → runToken n v = some i → unreadBits s = encode i ++ rest →
    ∃ t u, runSteps (n + 2) s = .next t ∧ exec i u = .next t ∧ unreadBits u = rest ∧
      u = { s with inPtr := u.inPtr, inByte := u.inByte, inCnt := u.inCnt, rlen := BitVec.ofNat 4 n, phase := .rleValue }

/-! ### Header, orientation, pass setup, mode and kind -/

/-- R58: the byte is latched before the check; legal dimensions go on to ORIENT, others raise DIM. That the fault address is the
offset before the cursor, where the header byte stands, is the model's reading (log 10). -/
def Obligations.HeaderIsLatchedThenChecked : Prop :=
  ∀ (w h : BitVec 4) (s : State),
    ((1 ≤ w.toNat ∧ w.toNat ≤ 7) ∧ (1 ≤ h.toNat ∧ h.toNat ≤ 7) →
      exec (.hdr w h) s = .next { s with hdr := w ++ h, phase := .orient }) ∧
    (¬((1 ≤ w.toNat ∧ w.toNat ≤ 7) ∧ (1 ≤ h.toNat ∧ h.toNat ≤ 7)) →
      exec (.hdr w h) s = .next { s with
        hdr := w ++ h, errCode := .dim, faultAddr := s.inPtr - 1, busy := false, err := true, phase := .error })

/-- R59 to R62 and R65 (escape): the tokens that set one register and the next phase, and nothing else. -/
def Obligations.ControlTokensSetTheirRegister : Prop :=
  ∀ (s : State) (o : Bool),
    exec (.orient o) s = .next { s with orient := o, orient0 := o, phase := .passSetup } ∧
    exec .mode0 s = .next { s with mode := 0, phase := .kind } ∧
    exec .mode1 s = .next { s with mode := 1, phase := .kind } ∧
    exec .mode2 s = .next { s with mode := 2, phase := .kind } ∧
    exec .kindData s = .next { s with phase := .data } ∧
    exec .kindRle s = .next { s with rlen := 0, phase := .rlePrefix } ∧
    exec .endData s = .next { s with rlen := 0, phase := .rlePrefix }

/-- R60: both focus pointers at the plane of the pass; the second pass reads the mode first. -/
def Obligations.PassSetupPointsAtThePlane : Prop :=
  ∀ s : State, exec .passSetup s = .next { s with
    pptr := if s.orient then 0x188 else 0x000
    sptr := if s.orient then 0x188 else 0x000
    phase := if s.fpd then .mode else .kind }

/-! ### Cells and packets -/

/-- R63: where each transform puts a two-bit value. -/
def Obligations.CellTransformPlacesTheCode : Prop :=
  ∀ x : Byte, x.toNat < 4 →
    (cellTransform x 3 = rotr2 x ∧ cellTransform x 2 = swapNibbles x ∧ cellTransform x 1 = shl2 x ∧ cellTransform x 0 = x) ∧
    ∀ rot : BitVec 2, cellTransform x rot = x <<< (2 * rot.toNat)

/-- R64, R65: a non-zero code ORs itself into the byte at `PPTR`, at the bit pair `ROT` names, then advances; the phase follows
the advance (R70). Everything else stays: all of WM outside that byte, and every register but the advance registers. -/
def Obligations.PairWritesItsCodeAndAdvances : Prop :=
  ∀ (s : State) (i : Instr) (c : Byte), (i, c) ∈ [(Instr.pair1, 1#8), (Instr.pair2, 2#8), (Instr.pair3, 3#8)] →
    s.pptr.toNat < 0x310 →
    ∃ t, exec i s = .next t ∧
      t.wm.read s.pptr.toNat = s.wm.read s.pptr.toNat ||| c <<< (2 * s.rot.toNat) ∧
      (∀ a, a ≠ s.pptr.toNat → t.wm.read a = s.wm.read a) ∧
      t = { (advance s).2 with
        wm := s.wm.write s.pptr.toNat (s.wm.read s.pptr.toNat ||| c <<< (2 * s.rot.toNat))
        phase := match (advance s).1 with
          | .notYetReady => .data
          | .restart => .passSetup
          | .done => .unpack }

/-- R64 (derived there): in a reachable state the cell was zero, so the write sets it to exactly the code and leaves every other
cell of the pass alone. -/
def Obligations.PairSetsItsCellExactly : Prop :=
  ∀ (s t : State) (i : Instr) (c : Byte), (i, c) ∈ [(Instr.pair1, 1#8), (Instr.pair2, 2#8), (Instr.pair3, 3#8)] →
    PassInv s → PlaneInv s → s.phase = .data → exec i s = .next t →
    s.cellIndex < s.passCells ∧
    ∀ k, k < s.passCells → cellValue t.wm s.orient s.tilesHigh k =
      if k = s.cellIndex then c else cellValue s.wm s.orient s.tilesHigh k

/-- R47, R66, R67: every run token, for every value, sets `RLEN` to its prefix length and `RLECNT` to 2^(n+1) - 1 + v. -/
def Obligations.RunTokensSetTheRunLength : Prop :=
  ∀ i : Instr, contextOf i = .run → i ≠ .runOverlong →
    ∃ n v, n ≤ 14 ∧ v < 2 ^ (n + 1) ∧ encode i = List.replicate n true ++ false :: bitsOfNat (n + 1) v ∧
      (BitVec.ofNat 16 (2 ^ (n + 1) - 1 + v)).toNat = 2 ^ (n + 1) - 1 + v ∧
      ∀ s : State, exec i s = .next { s with
        rlen := BitVec.ofNat 4 n, rlecnt := BitVec.ofNat 16 (2 ^ (n + 1) - 1 + v), phase := .rleWrite }

/-- R66, R95, R96: the 15th 1-bit of a unary part enters the error state with the offset of the byte before the cursor. -/
def Obligations.OverlongRunEntersTheErrorState : Prop :=
  ∀ s : State, exec .runOverlong s = .next { s with
    rlen := 14, errCode := .rleLen, faultAddr := s.inPtr - 1, busy := false, err := true, phase := .error }

/-- R68: a run step leaves every byte of WM as it reads, advances, counts down, and goes on as the advance and the count say. -/
def Obligations.RunStepWritesNothingAndCountsDown : Prop :=
  ∀ s : State, s.pptr.toNat < 0x310 →
    ∃ t, exec .rleWrite s = .next t ∧ (∀ a, t.wm.read a = s.wm.read a) ∧
      t = { (advance s).2 with
        wm := t.wm
        rlecnt := s.rlecnt - 1
        phase := match (advance s).1 with
          | .notYetReady => if s.rlecnt - 1 = 0 then .data else .rleWrite
          | .restart => .passSetup
          | .done => .unpack }

/-- R73: a run writes min(count, cells left in the pass) cells, moves the cursor nowhere and changes no plane; what is left over
stays in `RLECNT`. -/
def Obligations.RunWritesAtMostTheCellsLeft : Prop :=
  ∀ s : State, PassInv s → s.phase = .rleWrite → s.inputs = [] →
    (s.rlecnt.toNat < s.passCells - s.cellIndex →
      ∃ t, runSteps s.rlecnt.toNat s = .next t ∧ t.phase = .data ∧ t.rlecnt = 0 ∧
        t.cellIndex = s.cellIndex + s.rlecnt.toNat ∧ t.orient = s.orient ∧ t.fpd = s.fpd ∧ t.hdr = s.hdr ∧
        t.inPtr = s.inPtr ∧ t.inByte = s.inByte ∧ t.inCnt = s.inCnt ∧ (∀ a, t.wm.read a = s.wm.read a)) ∧
    (s.passCells - s.cellIndex ≤ s.rlecnt.toNat →
      ∃ t, runSteps (s.passCells - s.cellIndex) s = .next t ∧
        t.phase = (if s.fpd then .unpack else .passSetup) ∧
        t.rlecnt.toNat = s.rlecnt.toNat - (s.passCells - s.cellIndex) ∧
        t.orient = (if s.fpd then s.orient else !s.orient) ∧ t.fpd = true ∧ t.hdr = s.hdr ∧
        t.inPtr = s.inPtr ∧ t.inByte = s.inByte ∧ t.inCnt = s.inCnt ∧ (∀ a, t.wm.read a = s.wm.read a))

/-! ### The advance -/

/-- R70: where the caller of the advance continues. -/
def Obligations.DispatchFollowsTheAdvance : Prop :=
  ∀ (s : State) (cont : Phase),
    dispatch .notYetReady cont s = { s with phase := cont } ∧
    dispatch .restart cont s = { s with phase := .passSetup } ∧
    dispatch .done cont s = { s with phase := .unpack }

/-- R71, R69: the cell being written is the byte and bit pair the rule's formula gives its number; the advance goes to the next
number, and ends the pass exactly after the 32·W·H-th cell, with Restart in the first pass and Done in the second. -/
def Obligations.AdvanceVisitsTheCellsInOrder : Prop :=
  ∀ s : State, 1 ≤ s.tilesWide → s.tilesWide ≤ 7 → 1 ≤ s.tilesHigh → s.tilesHigh ≤ 7 → PassGeometry s →
    s.cellIndex < s.passCells ∧
    s.pptr.toNat = cellByte s.orient s.tilesHigh s.cellIndex ∧
    s.rot.toNat = cellRot s.tilesHigh s.cellIndex ∧
    (s.cellIndex + 1 < s.passCells → ∃ t, advance s = (.notYetReady, t) ∧ PassGeometry t ∧
      t.cellIndex = s.cellIndex + 1 ∧
      t = { s with row := t.row, col := t.col, rot := t.rot, pptr := t.pptr, sptr := t.sptr }) ∧
    (s.cellIndex + 1 = s.passCells →
      advance s = (if s.fpd then .done else .restart,
        { s with row := 0, rot := 3, col := 0, orient := if s.fpd then s.orient else !s.orient, fpd := true }))

/-- R25 (its consequence): in a pass every cell write falls inside the plane of the pass. -/
def Obligations.CellWritesStayInTheirPlane : Prop :=
  ∀ s : State, PassInv s → inPass s.phase = true →
    (planeBase s.orient).toNat ≤ s.pptr.toNat ∧
    s.pptr.toNat < (planeBase s.orient).toNat + s.spriteBytes ∧
    (planeBase s.orient).toNat + s.spriteBytes ≤ (planeBase s.orient).toNat + 0x188

/-! ### Reconstruction -/

/-- R75: the bits of each nibble reversed in place, with the rule's corner cases and examples. -/
def Obligations.NibrevReversesEachNibble : Prop :=
  (∀ (x : Byte) (i : Nat), i ≤ 3 →
    (nibrev x).getLsbD i = x.getLsbD (3 - i) ∧ (nibrev x).getLsbD (4 + i) = x.getLsbD (7 - i)) ∧
  (∀ x : Byte, nibrev (nibrev x) = x ∧ nibrev (swapNibbles x) = swapNibbles (nibrev x)) ∧
  nibrev 0x00 = 0x00 ∧ nibrev 0xFF = 0xFF ∧ nibrev 0x12 = 0x84 ∧ nibrev 0xC0 = 0x30 ∧ nibrev 0x80 = 0x10 ∧
  nibrev 0x3C = 0xC3 ∧ nibrev 0xF1 = 0xF8

/-- R77: the focus pointers in their roles at reconstruction, and nothing else. There `ORIENT` is the flipped `ORIENT0`, so `PPTR`
is the plane of the first pass and `SPTR` the plane of the second. -/
def Obligations.ResetPtrsNamesTheTwoPlanes : Prop :=
  ∀ s : State,
    resetPtrs s = { s with
      pptr := if s.orient then 0x000 else 0x188
      sptr := if s.orient then 0x188 else 0x000 } ∧
    (PassInv s → s.phase = .unpack → s.orient = !s.orient0) ∧
    (s.orient = !s.orient0 →
      (resetPtrs s).pptr = planeBase s.orient0 ∧ (resetPtrs s).sptr = planeBase (!s.orient0))

/-- R78: after the decode, pixel x of row r is the XOR of the input bits of pixels 0 to x of row r; with the flip each decoded byte
is reordered; no byte outside the sprite's bytes and no register changes. -/
def Obligations.DeltaDecodeIsTheRunningXor : Prop :=
  ∀ (b w h : Nat) (m : Memory),
    (∀ r x, r < 8 * h → x < 8 * w →
      pixelAt (deltaDecode b w h false m) b h r x = xorOfPixels m b h r (x + 1)) ∧
    (∀ j, j < 8 * w * h → (deltaDecode b w h true m).read (b + j) = nibrev ((deltaDecode b w h false m).read (b + j))) ∧
    (∀ f a, a < b ∨ b + 8 * w * h ≤ a → (deltaDecode b w h f m).read a = m.read a) ∧
    (∀ (s : State) f, decodePlane b f s = { s with wm := deltaDecode b s.tilesWide s.tilesHigh f s.wm })

/-- R84 (R79 to R83, R76): what UNPACK leaves in the two planes in each mode, `p` the plane of the first pass and `q` that of the
second; the focus pointers (unchanged in mode 0); every byte outside the sprite's bytes of the two planes stays; the next phase
is INTERLEAVE; no other register changes. The flip distributes over the XOR. -/
def Obligations.UnpackComputesTheThreeModes : Prop :=
  (∀ x y : Byte, nibrev (x ^^^ y) = nibrev x ^^^ nibrev y) ∧
  ∀ s : State, 8 * s.tilesWide * s.tilesHigh ≤ 0x188 → s.mode.toNat ≤ 2 → s.orient = !s.orient0 →
    let p := (planeBase s.orient0).toNat
    let q := (planeBase (!s.orient0)).toNat
    let n := 8 * s.tilesWide * s.tilesHigh
    let decoded := fun b j => (deltaDecode b s.tilesWide s.tilesHigh false s.wm).read (b + j)
    let f0 := s.cfg.mode0Flip && s.flipL
    ∃ t, exec .unpack s = .next t ∧
      (s.mode = 0 →
        (∀ j, j < n → t.wm.read (p + j) = flipIf f0 (decoded p j) ∧ t.wm.read (q + j) = flipIf f0 (decoded q j)) ∧
        t = { s with wm := t.wm, phase := .interleave }) ∧
      (s.mode = 1 →
        ∀ j, j < n → t.wm.read (p + j) = flipIf s.flipL (decoded p j) ∧
          t.wm.read (q + j) = flipIf s.flipL (s.wm.read (q + j)) ^^^ flipIf s.flipL (decoded p j)) ∧
      (s.mode = 2 →
        ∀ j, j < n → t.wm.read (p + j) = flipIf s.flipL (decoded p j) ∧
          t.wm.read (q + j) = flipIf s.flipL (decoded q j) ^^^ flipIf s.flipL (decoded p j)) ∧
      (s.mode ≠ 0 → t = { s with
        wm := t.wm, pptr := planeBase s.orient0, sptr := planeBase (!s.orient0), phase := .interleave }) ∧
      (∀ a, (a < p ∨ p + n ≤ a) → (a < q ∨ q + n ≤ a) → t.wm.read a = s.wm.read a)

/-- R85: OUT holds the two planes byte by byte, BUF1 in the even bytes; the decode is done; WM and every engine register but
PHASE keep their values; with `IRQ_EN` the completion raises IRQ; bytes from beyond the sprite are 0. -/
def Obligations.InterleaveFillsOutAndCompletes : Prop :=
  ∀ s : State, ∃ t, exec .interleave s = .next t ∧
    (∀ i, i < 0x188 → t.out.read (2 * i) = s.wm.read i ∧ t.out.read (2 * i + 1) = s.wm.read (0x188 + i)) ∧
    t = { s with out := t.out, busy := false, done := true, phase := .done } ∧
    irq t = s.ctrlIrqEn ∧
    (PlaneInv s → s.phase = .interleave →
      ∀ i, s.spriteBytes ≤ i → i < 0x188 → t.out.read (2 * i) = 0 ∧ t.out.read (2 * i + 1) = 0)

/-- R86 with R11: OUT as tiles. Tile k of a sprite is tile-column k div H, tile-row k mod H; tiles beyond the sprite are zero. -/
def Obligations.OutTilesAreColumnMajor : Prop :=
  ∀ s t : State, PassInv s → PlaneInv s → s.phase = .interleave → exec .interleave s = .next t →
    (∀ k y, k < s.tilesWide * s.tilesHigh → y < 8 →
      outTileRow t.out k y =
        (s.wm.read (k / s.tilesHigh * (8 * s.tilesHigh) + (8 * (k % s.tilesHigh) + y)),
         s.wm.read (0x188 + (k / s.tilesHigh * (8 * s.tilesHigh) + (8 * (k % s.tilesHigh) + y))))) ∧
    (∀ k y, s.tilesWide * s.tilesHigh ≤ k → k < 49 → y < 8 → outTileRow t.out k y = (0, 0))

/-! ### Host commands -/

/-- R89: START. Not busy: every engine register, WM, ERRCODE, FAULTADDR, STATUS and PHASE at their start values, OUT, SRC and the
ROM untouched, IRQ low. Busy: only the CTRL write (R112). The record of changed ROM bytes is the model's own (log 5). While RST is
asserted nothing happens (R106 as the model reads it, log 7, log 20). -/
def Obligations.StartBeginsADecodeUnlessBusy : Prop :=
  ∀ (s : State) (d : Byte), WellFormed (.start d) = true →
    (s.rst = true → exec (.start d) s = .next s) ∧
    (s.rst = false → s.busy = true →
      exec (.start d) s = .next { s with ctrlFlip := d.getLsbD 1, ctrlIrqEn := d.getLsbD 2 }) ∧
    (s.rst = false → s.busy = false → ∃ t, exec (.start d) s = .next t ∧ irq t = false ∧ (∀ a, t.wm.read a = 0) ∧
      t = { s with
        ctrlFlip := d.getLsbD 1, ctrlIrqEn := d.getLsbD 2, wm := Memory.zero
        inPtr := s.src, inByte := 0, inCnt := 0, hdr := 0, pptr := 0, sptr := 0, row := 0, col := 0, rot := 3
        orient := false, orient0 := false, fpd := false, mode := 0, rlen := 0, rlecnt := 0, flipL := d.getLsbD 1
        errCode := .none, faultAddr := 0, done := false, err := false, busy := true, phase := .header, romStale := [] })

/-- R89, R107: what a decode starts from depends on nothing but SRC, the host's write, the ROM and the parameters; OUT and the
host's own data are carried along. -/
def Obligations.StartForgetsEarlierDecodes : Prop :=
  ∀ (s s' : State) (d : Byte), s.rst = false → s'.rst = false → s.busy = false → s'.busy = false → s.src = s'.src →
    s.rom = s'.rom → s.cfg = s'.cfg → s.out = s'.out → s.hrdata = s'.hrdata → s.inputs = s'.inputs → s.freeCtr = s'.freeCtr →
    exec (.start d) s = exec (.start d) s'

/-- R90: CTRLWR in every phase: the two stored bits and through them IRQ; nothing else. While RST is asserted nothing
(R106 as the model reads it, log 7, log 20). -/
def Obligations.ControlWriteStoresTwoBits : Prop :=
  ∀ (s : State) (d : Byte), WellFormed (.ctrlWr d) = true →
    (s.rst = true → exec (.ctrlWr d) s = .next s) ∧
    (s.rst = false → ∃ t, exec (.ctrlWr d) s = .next t ∧
      t = { s with ctrlFlip := d.getLsbD 1, ctrlIrqEn := d.getLsbD 2 } ∧
      irq t = (d.getLsbD 2 && (s.done || s.err)))

/-- R91: CLRST clears DONE and ERR where a 1 is written, and changes nothing else; while busy it has no effect, nor
while RST is asserted (R106 as the model reads it, log 7, log 20). -/
def Obligations.StatusWriteClearsWhereOne : Prop :=
  ∀ (s : State) (d : Byte),
    (s.rst = true → exec (.clrSt d) s = .next s) ∧
    (s.rst = false → ∃ t, exec (.clrSt d) s = .next t ∧
      t = { s with done := s.done && !d.getLsbD 1, err := s.err && !d.getLsbD 2 } ∧
      irq t = (s.ctrlIrqEn && ((s.done && !d.getLsbD 1) || (s.err && !d.getLsbD 2))) ∧
      (StatusInv s → s.busy = true → t = s))

/-- R92: SRCWR k writes bits 8k+7 to 8k of SRC, in every phase, without a range check, and changes nothing else;
while RST is asserted nothing (R106 as the model reads it, log 7, log 20). -/
def Obligations.SourceWriteSetsOneByte : Prop :=
  ∀ (s : State) (d : Byte) (i : Instr) (k : Nat), (i, k) ∈ [(Instr.srcWr0 d, 0), (Instr.srcWr1 d, 1), (Instr.srcWr2 d, 2)] →
    (s.rst = true → exec i s = .next s) ∧
    (s.rst = false → ∃ t, exec i s = .next t ∧ t = { s with src := t.src } ∧
      ∀ n, n < 24 → t.src.getLsbD n =
        if 8 * k ≤ n ∧ n ≤ 8 * k + 7 then d.getLsbD (n - 8 * k) else s.src.getLsbD n)

/-- R93: RD answers the byte of the map, or, for the debug view and the windows while busy, some byte the statement leaves open
(log 4); no register and no memory changes. -/
def Obligations.HostReadAnswersTheMap : Prop :=
  ∀ (s : State) (a : HostAddr),
    (s.busy = false ∨ isDebugView a = false → exec (.rd a) s = .next { s with hrdata := portByte s a }) ∧
    (s.busy = true ∧ isDebugView a = true →
      ∃ b, exec (.rd a) s = .next { s with hrdata := b, freeCtr := s.freeCtr + 1 })

/-- R26 to R32: the host port map, address by address, and which addresses are the debug view; the encodings of PHASE (R24) and
ERRCODE (R29). -/
def Obligations.HostPortMapIsTheTable : Prop :=
  [Phase.idle, .header, .orient, .passSetup, .mode, .kind, .data, .rlePrefix, .rleValue, .rleWrite, .unpack, .interleave, .done,
    .error].map phaseCode = [0, 1, 2, 3, 4, 5, 6, 7, 8, 9, 10, 11, 12, 13] ∧
  [ErrCode.none, .romOob, .dim, .rleLen].map errCodeByte = [0x00, 0x01, 0x02, 0x03] ∧
  (∀ s : State,
    portByte s 0x000 = 0#5 ++ BitVec.ofBool s.ctrlIrqEn ++ BitVec.ofBool s.ctrlFlip ++ 0#1 ∧
    portByte s 0x001 = 0#5 ++ BitVec.ofBool s.err ++ BitVec.ofBool s.done ++ BitVec.ofBool s.busy ∧
    portByte s 0x002 = errCodeByte s.errCode ∧
    portByte s 0x006 ++ portByte s 0x005 ++ portByte s 0x004 = s.src ∧
    portByte s 0x00A ++ portByte s 0x009 ++ portByte s 0x008 = s.faultAddr ∧
    portByte s 0x00E ++ portByte s 0x00D ++ portByte s 0x00C = s.inPtr ∧
    portByte s 0x010 = s.hdr ∧
    portByte s 0x011 = 0#2 ++ BitVec.ofBool s.flipL ++ BitVec.ofBool s.fpd ++ BitVec.ofBool s.orient ++
      BitVec.ofBool s.orient0 ++ s.mode ∧
    portByte s 0x012 = s.row ∧ portByte s 0x013 = s.col ∧ portByte s 0x014 = 0#6 ++ s.rot ∧
    portByte s 0x015 = s.inByte ∧ portByte s 0x016 = 0#4 ++ s.inCnt ∧ portByte s 0x017 = 0#4 ++ phaseCode s.phase ∧
    portByte s 0x019 ++ portByte s 0x018 = 0#6 ++ s.pptr ∧ portByte s 0x01B ++ portByte s 0x01A = 0#6 ++ s.sptr ∧
    portByte s 0x01C = 0#4 ++ s.rlen ∧ portByte s 0x01E ++ portByte s 0x01D = s.rlecnt) ∧
  (∀ (s : State) (a : HostAddr),
    (0x400 ≤ a.toNat → a.toNat ≤ 0x70F → portByte s a = s.wm.read (a.toNat - 0x400)) ∧
    (0x800 ≤ a.toNat → a.toNat ≤ 0xB0F → portByte s a = s.out.read (a.toNat - 0x800)) ∧
    (isDebugView a = true ↔ (0x00C ≤ a.toNat ∧ a.toNat ≤ 0x01E ∧ a.toNat ≠ 0x00F) ∨
      (0x400 ≤ a.toNat ∧ a.toNat ≤ 0x70F) ∨ (0x800 ≤ a.toNat ∧ a.toNat ≤ 0xB0F)))

/-- R33: reserved addresses and bits read 0; writes to reserved or read-only places are ignored without an error; the five control
registers read exactly in every phase. -/
def Obligations.ReservedPlacesReadZeroAndIgnoreWrites : Prop :=
  (∀ (s : State) (a : HostAddr),
    a.toNat = 0x003 ∨ a.toNat = 0x007 ∨ a.toNat = 0x00B ∨ a.toNat = 0x00F ∨ (0x01F ≤ a.toNat ∧ a.toNat ≤ 0x3FF) ∨
      (0x710 ≤ a.toNat ∧ a.toNat ≤ 0x7FF) ∨ 0xB10 ≤ a.toNat →
    exec (.rd a) s = .next { s with hrdata := 0 }) ∧
  (∀ (s : State) (n : Nat), 3 ≤ n → (ctrlByte s).getLsbD n = false ∧ (statusByte s).getLsbD n = false) ∧
  (∀ s : State, portByte s 0x011 >>> 6 = 0 ∧ portByte s 0x014 >>> 2 = 0 ∧ portByte s 0x016 >>> 4 = 0 ∧
    portByte s 0x017 >>> 4 = 0 ∧ portByte s 0x019 >>> 2 = 0 ∧ portByte s 0x01B >>> 2 = 0 ∧ portByte s 0x01C >>> 4 = 0) ∧
  (∀ (s : State) (a : HostAddr) (d : Byte) (rest : List Input) (delay : Nat),
    a.toNat ≠ 0x000 → a.toNat ≠ 0x001 → a.toNat ≠ 0x004 → a.toNat ≠ 0x005 → a.toNat ≠ 0x006 →
    s.inputs = { delay := delay, event := .hostWrite a d } :: rest → delay = 0 ∨ phaseBusy s.phase = false →
    step s = .next { s with inputs := rest }) ∧
  (∀ (s : State) (d : Byte), ctrlWrite d s = ctrlWrite (d &&& 7) s ∧ exec (.clrSt d) s = exec (.clrSt (d &&& 6)) s) ∧
  (∀ (s : State) (a : HostAddr), a.toNat ≤ 0x00A → exec (.rd a) s = .next { s with hrdata := portByte s a })

/-- R34: the interrupt line is a level, low after reset. -/
def Obligations.InterruptLineIsALevel : Prop :=
  (∀ s : State, irq s = (s.ctrlIrqEn && (s.done || s.err))) ∧ irq State.reset = false

/-! ### Errors, quiescence, reset -/

/-- R95 to R97: in each of the seven phases that read, a read with no byte left enters the error state with the offset that was to
be read, and everything else stays as it was; in HEADER it comes before the dimension check. -/
def Obligations.ReadPastTheRomEntersTheErrorState : Prop :=
  ∀ s : State,
    s.phase ∈ [Phase.header, .orient, .mode, .kind, .data, .rlePrefix, .rleValue] →
    (s.phase = .header ∨ s.inCnt = 0) → s.cfg.romSize ≤ s.inPtr.toNat →
    engineStep s = .next { s with
      errCode := .romOob, faultAddr := s.inPtr, busy := false, err := true, phase := .error }

/-- R65, R61, R67, R96, R97: where the ROM ends after the first bit of a pair, after the first 1-bit of a mode token, or before the
last value bit of a run, the bits read stay consumed and nothing is written, advanced or set; `RLEN` and `RLECNT` stay. -/
def Obligations.SecondBitPastTheRomKeepsTheFirst : Prop :=
  (∀ s : State, s.inCnt = 1 → s.cfg.romSize ≤ s.inPtr.toNat →
    s.phase = .data ∨ (s.phase = .mode ∧ s.inByte.getLsbD 7 = true) →
    engineStep s = .next { s with
      inByte := s.inByte <<< 1, inCnt := 0
      errCode := .romOob, faultAddr := s.inPtr, busy := false, err := true, phase := .error }) ∧
  (∀ s : State, s.inCnt.toNat ≤ 8 → s.cfg.romSize ≤ Config.romSizeMax → s.phase = .rleValue →
    (unreadBits s).length < s.rlen.toNat + 1 →
    ∃ t, engineStep s = .next t ∧ unreadBits t = [] ∧
      t.inPtr = (if s.inPtr.toNat < s.cfg.romSize then BitVec.ofNat 24 s.cfg.romSize else s.inPtr) ∧
      t = { s with
        inPtr := t.inPtr
        inByte := if s.inPtr.toNat < s.cfg.romSize then 0 else s.inByte <<< s.inCnt.toNat
        inCnt := 0
        errCode := .romOob, faultAddr := t.inPtr, busy := false, err := true, phase := .error, freeCtr := t.freeCtr })

/-- R95: no phase but the named ones raises an error, and each error has its one cause. The fault address of DIM is the model's
reading (log 10). -/
def Obligations.ErrorsComeFromTheirNamedRules : Prop :=
  ∀ s t : State, s.phase ≠ .error → engineStep s = .next t → t.phase = .error →
    (t.errCode = .romOob ∧ t.cfg.romSize ≤ t.inPtr.toNat ∧ t.faultAddr = t.inPtr ∧
      s.phase ∈ [Phase.header, .orient, .mode, .kind, .data, .rlePrefix, .rleValue]) ∨
    (t.errCode = .dim ∧ s.phase = .header ∧ t.faultAddr = s.inPtr ∧
      ¬(legalDim t.tilesWide = true ∧ legalDim t.tilesHigh = true)) ∨
    (t.errCode = .rleLen ∧ s.phase = .rlePrefix ∧ s.rlen = 14 ∧ t.rlen = 14 ∧ t.faultAddr = t.inPtr - 1)

/-- Where the model stops by name, in states no run reaches (log 12, log 13) and for a ROM change outside the image (log 18); and
what UNPACK does where the mode is 3 or `ORIENT` is not the flipped `ORIENT0` (log 24). -/
def Obligations.StopsAreTheNamedOnes : Prop :=
  (∀ (s : State) (i : Instr), i ∈ [Instr.pair1, .pair2, .pair3, .rleWrite] → 0x310 ≤ s.pptr.toNat →
    exec i s = .fault .wmOutOfRange) ∧
  (∀ s : State,
    (0x188 < 8 * s.tilesWide * s.tilesHigh → exec .unpack s = .fault .wmOutOfRange) ∧
    (8 * s.tilesWide * s.tilesHigh ≤ 0x188 →
      (∃ t, exec .unpack s = .next t ∧ t = { s with wm := t.wm, pptr := t.pptr, sptr := t.sptr, phase := .interleave }) ∧
      (s.mode = 3 → exec .unpack s = .next { s with phase := .interleave }))) ∧
  (∀ (s t : State) (v : Nat), s.phase = .rleValue → s.rlen = 15 → readBitsFrom readBit 16 0 s = .ok (v, t) →
    engineStep s = .refused .runLengthUnreachable) ∧
  (∀ (s : State) (a : RomAddr) (d : Byte), s.cfg.romSize ≤ a.toNat → applyRomWrite a d s = .fault .romOutOfRange)

/-- R105, R98: in IDLE, DONE and ERROR the engine takes no steps and keeps all state; only START or RST leaves those phases. (RST
leaves them when it is asserted; its release could only in a state that no run reaches.) -/
def Obligations.QuiescencePersistsUntilStartOrReset : Prop :=
  (∀ s : State, phaseBusy s.phase = false → engineStep s = .next s ∧ (s.inputs = [] → step s = .next s)) ∧
  (∀ s t : State, phaseBusy s.phase = false → step s = .next t → t.phase ≠ s.phase →
    ∃ p rest, s.inputs = p :: rest ∧
      (p.event = .rst true ∨ (p.event = .rst false ∧ s.rst = true) ∨
        ∃ d : Byte, d.getLsbD 0 = true ∧ s.rst = false ∧ p.event = .hostWrite 0x000 d))

/-- R42, R106, D23: no input but RST changes anything the running engine reads or writes, other than the ROM, and that only by a
change of a ROM byte (R109; its record is the model's own, log 5); there is no abort command. -/
def Obligations.InputsLeaveARunningEngineAlone : Prop :=
  ∀ (s t u : State) (e : Event), StatusInv s → phaseBusy s.phase = true → dueInput s = some (e, u) →
    (∀ level, e ≠ .rst level) → inputStep e u = .next t →
    ((∀ a d, e ≠ .romWrite a d) → t.rom = s.rom ∧ t.romStale = s.romStale) ∧
    t = { s with
      ctrlFlip := t.ctrlFlip, ctrlIrqEn := t.ctrlIrqEn, src := t.src, rom := t.rom, romStale := t.romStale
      hrdata := t.hrdata, inputs := t.inputs, freeCtr := t.freeCtr }

/-- R42, R44, R27, R30: an engine step writes neither CTRL nor SRC nor the ROM, nor its parameters, nor the host's inputs. -/
def Obligations.EngineLeavesHostStateAlone : Prop :=
  ∀ s t : State, engineStep s = .next t →
    t.ctrlFlip = s.ctrlFlip ∧ t.ctrlIrqEn = s.ctrlIrqEn ∧ t.src = s.src ∧ t.rom = s.rom ∧ t.cfg = s.cfg ∧
    t.hrdata = s.hrdata ∧ t.inputs = s.inputs ∧ t.romStale = s.romStale ∧ t.flipL = s.flipL ∧ t.rst = s.rst

/-- R12, R96, R111: only the INTERLEAVE step writes OUT; RST makes it unspecified (R106). -/
def Obligations.OnlyInterleaveWritesOut : Prop :=
  ∀ s t : State, step s = .next t → t.out ≠ s.out →
    (dueInput s = none ∧ s.phase = .interleave) ∨ ∃ level u, dueInput s = some (.rst level, u)

/-- R106 with R14, R27 to R31: the reset values. WM and OUT are unspecified and not mentioned. That RST stands released in this
state is the model's reading (log 7). -/
def Obligations.ResetHoldsTheResetValues : Prop :=
  let s := State.reset
  s.inPtr = 0 ∧ s.inByte = 0 ∧ s.inCnt = 0 ∧ s.hdr = 0 ∧ s.pptr = 0 ∧ s.sptr = 0 ∧ s.row = 0 ∧ s.col = 0 ∧ s.rot = 3 ∧
  s.orient = false ∧ s.orient0 = false ∧ s.fpd = false ∧ s.mode = 0 ∧ s.flipL = false ∧ s.rlen = 0 ∧ s.rlecnt = 0 ∧
  phaseCode s.phase = 0 ∧ ctrlByte s = 0x00 ∧ statusByte s = 0x00 ∧ errCodeByte s.errCode = 0x00 ∧ s.src = 0 ∧
  s.faultAddr = 0 ∧ irq s = false ∧ s.rst = false

/-- R106 (U19): RST asserted in any state, busy or not, gives the reset registers, and so does its release; driving RST low where it
is low changes nothing. The ROM, its parameters and the host's own data stay (log 7). -/
def Obligations.ResetAbortsAnyDecode : Prop :=
  ∀ (s : State) (p : Input) (rest : List Input) (level : Bool), s.inputs = p :: rest → p.event = .rst level →
    p.delay = 0 ∨ phaseBusy s.phase = false →
    (level = true ∨ s.rst = true → ∃ t, step s = .next t ∧ t = { State.reset with
      rst := level, wm := t.wm, out := t.out, rom := s.rom, cfg := s.cfg
      hrdata := s.hrdata, inputs := rest, freeCtr := t.freeCtr }) ∧
    (level = false → s.rst = false → step s = .next { s with inputs := rest })

/-- R56, R109 (U4): below ROM_SIZE a fetch answers, moves `IN_PTR` by one and changes nothing else but the free-value counter; its
byte is the ROM's or one on record for its offset. A change while busy records the old byte, a change while not busy is simply read
(R44). The record, and that any byte it holds may be fetched after several changes, are the model's choice (log 5). -/
def Obligations.ChangedRomByteReadsOldOrNew : Prop :=
  (∀ s : State, s.inPtr.toNat < s.cfg.romSize → ∃ b t, romFetch s = .ok (b, t) ∧
    (b = s.rom.read s.inPtr.toNat ∨ (s.inPtr.toNat, b) ∈ s.romStale) ∧
    t = { s with inPtr := s.inPtr + 1, freeCtr := t.freeCtr }) ∧
  (∀ (s : State) (a : RomAddr) (d : Byte), a.toNat < s.cfg.romSize →
    ∃ t, applyRomWrite a d s = .next t ∧ t.rom.read a.toNat = d ∧
      (∀ x, x ≠ a.toNat → t.rom.read x = s.rom.read x) ∧
      t = { s with rom := t.rom, romStale := t.romStale } ∧
      t.romStale = if s.busy then (a.toNat, s.rom.read a.toNat) :: s.romStale else s.romStale)

/-- R88, R90, R92, D24: a CTRL or SRC write while the engine is busy commutes with an engine step, so no result of a decode
depends on when the host writes. A START while busy counts as a CTRL write (R89): what the step leads to after it is the step's
state with CTRL written, also where that step ends the decode. In HEADER with an illegal byte the SRC clause rests on log 10. -/
def Obligations.HostWritesCommuteWithTheEngine : Prop :=
  ∀ (s t : State) (d : Byte), s.rst = false → phaseBusy s.phase = true → s.busy = true →
    engineStep s = .next t →
    (∀ i, i = Instr.ctrlWr d ∨ i = Instr.start d →
      ∃ s', exec i s = .next s' ∧ engineStep s' = .next (ctrlWrite d t)) ∧
    (∀ i, i = Instr.srcWr0 d ∨ i = Instr.srcWr1 d ∨ i = Instr.srcWr2 d →
      ∃ s' t', exec i s = .next s' ∧ exec i t = .next t' ∧ engineStep s' = .next t')

/-- R37: the host's address translator: bank 0 is always addressable, relativize maps into the window, and resolve undoes it. -/
def Obligations.AddressTranslatorRoundTrips : Prop :=
  (∀ bank addr, addr < 0x4000 → resolveAddr bank addr = addr) ∧
  (∀ x, 0x4000 ≤ x → 0x4000 ≤ (relativizeAddr x).2 ∧ (relativizeAddr x).2 < 0x8000 ∧
    resolveAddr (relativizeAddr x).1 (relativizeAddr x).2 = x) ∧
  (∀ (m : Memory) (a : Nat), m.read a = 0x34 → m.read (a + 1) = 0x12 → readU16le m a = 0x1234)

/-! ### Invariants and the end of a decode -/

/-- The invariants hold after reset, and the reset values stand once RST is asserted. The ROM and the parameters of the reset state are the model's (log 1, log 2). -/
def Obligations.ResetMeetsTheInvariants : Prop :=
  MemoryInv State.reset ∧ StatusInv State.reset ∧ PassInv State.reset ∧ PlaneInv State.reset ∧ ResetInv State.reset ∧
  ∀ s : State, ResetInv (driveRst true s)

/-- R10, R12, R13: no step takes a memory out of its canonical form or its size. -/
def Obligations.StepKeepsTheMemoryForm : Prop :=
  ∀ s t : State, MemoryInv s → step s = .next t → MemoryInv t

/-- R28, R29, R31: BUSY, DONE, ERR, ERRCODE and FAULTADDR agree with PHASE after every step; so at most one of BUSY, DONE and ERR
is 1. -/
def Obligations.StepKeepsStatusInAgreement : Prop :=
  (∀ s t : State, StatusInv s → step s = .next t → StatusInv t) ∧
  (∀ s : State, StatusInv s → ¬(s.busy = true ∧ s.done = true) ∧ ¬(s.busy = true ∧ s.err = true) ∧
    ¬(s.done = true ∧ s.err = true))

/-- R14, R25, R18 to R22: the ranges of the registers but `IN_PTR`, and the geometry of a pass, hold after every step. `IN_PTR` may
start above ROM_SIZE, as SRC may (log 15); an engine step from its range of R14 keeps it there (R56). -/
def Obligations.StepKeepsThePassGeometry : Prop :=
  (∀ s t : State, PassInv s → step s = .next t → PassInv t) ∧
  (∀ s t : State, s.cfg.romSize ≤ Config.romSizeMax → s.inPtr.toNat ≤ s.cfg.romSize → engineStep s = .next t →
    t.inPtr.toNat ≤ t.cfg.romSize)

/-- R11, R60, R64: what the planes hold beyond the sprite, in the plane not yet written and in the cells not yet written stays zero
after every step. -/
def Obligations.StepKeepsUnwrittenCellsZero : Prop :=
  ∀ s t : State, PassInv s → PlaneInv s → step s = .next t → PlaneInv t

/-- R25, R95: from a state that meets the invariant an engine step always answers a next state: the write-boundary check never
fires. -/
def Obligations.EngineNeverStops : Prop :=
  ∀ s : State, PassInv s → ∃ t, engineStep s = .next t

/-- R74, R114: every engine step of a running decode uses up some of its bounded work. -/
def Obligations.EngineStepUsesUpWork : Prop :=
  ∀ s t : State, PassInv s → phaseBusy s.phase = true → engineStep s = .next t →
    workLeft s ≤ 56458 ∧ workLeft t < workLeft s

/-- R74, R114: every decode ends, in DONE or ERROR, within 56 458 engine steps. -/
def Obligations.EveryDecodeEnds : Prop :=
  ∀ s : State, PassInv s → phaseBusy s.phase = true → s.inputs = [] →
    ∃ t, runSteps 56458 s = .next t ∧ (t.phase = .done ∨ t.phase = .error)

/-- R106: while RST is asserted SPRDEC holds the reset values, whatever the host does: no step, no START and no CTRL or SRC write
leaves them. So IRQ is 0, the engine takes no steps, and every register reads its reset value. What stays with the host is log 7. -/
def Obligations.StepKeepsTheResetValuesWhileRstIsAsserted : Prop :=
  (∀ s t : State, ResetInv s → step s = .next t → ResetInv t) ∧
  (∀ s : State, ResetInv s → s.rst = true → irq s = false ∧ phaseBusy s.phase = false ∧
    ∀ a : HostAddr, a.toNat < 0x400 →
      exec (.rd a) s = .next { s with hrdata := if a = 0x014 then 0x03 else 0x00 })
end

