-- ==== Sys2Proof/Laws/Decode.lean ====
section
/-! SUPPORT. Lists of bits: what the encoder writes and the bit reader reads back. -/

namespace Sys2Proof

@[simp] theorem bitsOfNat_length (k v : Nat) : (bitsOfNat k v).length = k := by
  induction k with
  | zero => rfl
  | succ k ih => simp [bitsOfNat, ih]

/-- The top bit first: what is left is the value of the lower bits. -/
theorem testBit_add_mod (k v : Nat) : 2 ^ k * (v.testBit k).toNat + v % 2 ^ k = v % 2 ^ (k + 1) := by
  have h : (v.testBit k).toNat = v / 2 ^ k % 2 := by rw [Nat.toNat_testBit]
  rw [h, Nat.pow_succ, Nat.mod_mul]
  omega

/-- Reading `k` bits of a list gives the number they write. -/
theorem readBitsFrom_list (k v x : Nat) (r : List Bool) :
    readBitsFrom listBit k v (bitsOfNat k x ++ r) = .ok (v * 2 ^ k + x % 2 ^ k, r) := by
  induction k generalizing v with
  | zero => simp [bitsOfNat, readBitsFrom, Nat.mod_one]
  | succ k ih =>
    have hb := testBit_add_mod k x
    have hp : (2 * v + (x.testBit k).toNat) * 2 ^ k + x % 2 ^ k = v * 2 ^ (k + 1) + x % 2 ^ (k + 1) := by
      rw [← hb, Nat.pow_succ]; ring
    simp only [bitsOfNat, List.cons_append, readBitsFrom, listBit, ih, hp]

/-- A bit list that is too short is refused as truncated. -/
theorem readBitsFrom_short (k v : Nat) (bs : List Bool) (h : bs.length < k) :
    readBitsFrom listBit k v bs = .error .truncated := by
  induction k generalizing v bs with
  | zero => omega
  | succ k ih =>
    cases bs with
    | nil => rfl
    | cons b bs => simpa [readBitsFrom, listBit] using ih (2 * v + b.toNat) bs (by simpa using h)

/-- The unary part of a run: 1-bits are counted up to the bound. -/
theorem runFrom_ones (j fuel n : Nat) (r : List Bool) (h : n + j ≤ Config.rleMaxPrefix) :
    runFrom listBit (fuel + j) n (List.replicate j true ++ r) = runFrom listBit fuel (n + j) r := by
  induction j generalizing n with
  | zero => rfl
  | succ j ih =>
    have hn : n ≠ Config.rleMaxPrefix := by omega
    have h2 : n + 1 + j = n + (j + 1) := by omega
    rw [← h2, ← ih (n + 1) (by omega), List.replicate_succ, List.cons_append, ← Nat.add_assoc]
    simp [runFrom, listBit, runBit, hn]

@[simp] theorem natOfBits_nil : natOfBits [] = 0 := rfl

@[simp] theorem bitsOfBytes_nil : bitsOfBytes [] = [] := rfl

@[simp] theorem bitsOfBytes_cons (b : Byte) (bs : List Byte) :
    bitsOfBytes (b :: bs) = bitsOfNat 8 b.toNat ++ bitsOfBytes bs := rfl

theorem bitsOfBytes_length (bs : List Byte) : (bitsOfBytes bs).length = 8 * bs.length := by
  induction bs with
  | nil => rfl
  | cons b bs ih => simp [ih]; omega

end Sys2Proof
end

