-- ==== Sys2Proof/Laws/State.lean ====
section
/-! SUPPORT. The named updates of State, field by field, so that no later proof unfolds a record update. -/

namespace Sys2Proof.Machine

/-! ### W and H follow HDR -/

theorem tilesWide_of_hdr (s t : State) (h : s.hdr = t.hdr) : s.tilesWide = t.tilesWide := by
  simp only [State.tilesWide, h]

theorem tilesHigh_of_hdr (s t : State) (h : s.hdr = t.hdr) : s.tilesHigh = t.tilesHigh := by
  simp only [State.tilesHigh, h]

/-! ### setPhase -/

@[simp] theorem State.setPhase_inPtr (s : State) (p : Phase) : (s.setPhase p).inPtr = s.inPtr := rfl
@[simp] theorem State.setPhase_inByte (s : State) (p : Phase) : (s.setPhase p).inByte = s.inByte := rfl
@[simp] theorem State.setPhase_inCnt (s : State) (p : Phase) : (s.setPhase p).inCnt = s.inCnt := rfl
@[simp] theorem State.setPhase_hdr (s : State) (p : Phase) : (s.setPhase p).hdr = s.hdr := rfl
@[simp] theorem State.setPhase_pptr (s : State) (p : Phase) : (s.setPhase p).pptr = s.pptr := rfl
@[simp] theorem State.setPhase_sptr (s : State) (p : Phase) : (s.setPhase p).sptr = s.sptr := rfl
@[simp] theorem State.setPhase_row (s : State) (p : Phase) : (s.setPhase p).row = s.row := rfl
@[simp] theorem State.setPhase_col (s : State) (p : Phase) : (s.setPhase p).col = s.col := rfl
@[simp] theorem State.setPhase_rot (s : State) (p : Phase) : (s.setPhase p).rot = s.rot := rfl
@[simp] theorem State.setPhase_orient (s : State) (p : Phase) : (s.setPhase p).orient = s.orient := rfl
@[simp] theorem State.setPhase_orient0 (s : State) (p : Phase) : (s.setPhase p).orient0 = s.orient0 := rfl
@[simp] theorem State.setPhase_fpd (s : State) (p : Phase) : (s.setPhase p).fpd = s.fpd := rfl
@[simp] theorem State.setPhase_mode (s : State) (p : Phase) : (s.setPhase p).mode = s.mode := rfl
@[simp] theorem State.setPhase_flipL (s : State) (p : Phase) : (s.setPhase p).flipL = s.flipL := rfl
@[simp] theorem State.setPhase_rlen (s : State) (p : Phase) : (s.setPhase p).rlen = s.rlen := rfl
@[simp] theorem State.setPhase_rlecnt (s : State) (p : Phase) : (s.setPhase p).rlecnt = s.rlecnt := rfl
@[simp] theorem State.setPhase_phase (s : State) (p : Phase) : (s.setPhase p).phase = p := rfl
@[simp] theorem State.setPhase_ctrlFlip (s : State) (p : Phase) : (s.setPhase p).ctrlFlip = s.ctrlFlip := rfl
@[simp] theorem State.setPhase_ctrlIrqEn (s : State) (p : Phase) : (s.setPhase p).ctrlIrqEn = s.ctrlIrqEn := rfl
@[simp] theorem State.setPhase_busy (s : State) (p : Phase) : (s.setPhase p).busy = s.busy := rfl
@[simp] theorem State.setPhase_done (s : State) (p : Phase) : (s.setPhase p).done = s.done := rfl
@[simp] theorem State.setPhase_err (s : State) (p : Phase) : (s.setPhase p).err = s.err := rfl
@[simp] theorem State.setPhase_errCode (s : State) (p : Phase) : (s.setPhase p).errCode = s.errCode := rfl
@[simp] theorem State.setPhase_src (s : State) (p : Phase) : (s.setPhase p).src = s.src := rfl
@[simp] theorem State.setPhase_faultAddr (s : State) (p : Phase) : (s.setPhase p).faultAddr = s.faultAddr := rfl
@[simp] theorem State.setPhase_wm (s : State) (p : Phase) : (s.setPhase p).wm = s.wm := rfl
@[simp] theorem State.setPhase_out (s : State) (p : Phase) : (s.setPhase p).out = s.out := rfl
@[simp] theorem State.setPhase_rom (s : State) (p : Phase) : (s.setPhase p).rom = s.rom := rfl
@[simp] theorem State.setPhase_cfg (s : State) (p : Phase) : (s.setPhase p).cfg = s.cfg := rfl
@[simp] theorem State.setPhase_rst (s : State) (p : Phase) : (s.setPhase p).rst = s.rst := rfl
@[simp] theorem State.setPhase_hrdata (s : State) (p : Phase) : (s.setPhase p).hrdata = s.hrdata := rfl
@[simp] theorem State.setPhase_inputs (s : State) (p : Phase) : (s.setPhase p).inputs = s.inputs := rfl
@[simp] theorem State.setPhase_romStale (s : State) (p : Phase) : (s.setPhase p).romStale = s.romStale := rfl
@[simp] theorem State.setPhase_freeCtr (s : State) (p : Phase) : (s.setPhase p).freeCtr = s.freeCtr := rfl
@[simp] theorem State.setPhase_tilesWide (s : State) (p : Phase) : (s.setPhase p).tilesWide = s.tilesWide := rfl
@[simp] theorem State.setPhase_tilesHigh (s : State) (p : Phase) : (s.setPhase p).tilesHigh = s.tilesHigh := rfl

/-! ### setCursor -/

@[simp] theorem State.setCursor_inPtr (s : State) (a : RomAddr) (b : Byte) (n : BitVec 4) : (s.setCursor a b n).inPtr = a := rfl
@[simp] theorem State.setCursor_inByte (s : State) (a : RomAddr) (b : Byte) (n : BitVec 4) : (s.setCursor a b n).inByte = b := rfl
@[simp] theorem State.setCursor_inCnt (s : State) (a : RomAddr) (b : Byte) (n : BitVec 4) : (s.setCursor a b n).inCnt = n := rfl
@[simp] theorem State.setCursor_hdr (s : State) (a : RomAddr) (b : Byte) (n : BitVec 4) : (s.setCursor a b n).hdr = s.hdr := rfl
@[simp] theorem State.setCursor_pptr (s : State) (a : RomAddr) (b : Byte) (n : BitVec 4) : (s.setCursor a b n).pptr = s.pptr := rfl
@[simp] theorem State.setCursor_sptr (s : State) (a : RomAddr) (b : Byte) (n : BitVec 4) : (s.setCursor a b n).sptr = s.sptr := rfl
@[simp] theorem State.setCursor_row (s : State) (a : RomAddr) (b : Byte) (n : BitVec 4) : (s.setCursor a b n).row = s.row := rfl
@[simp] theorem State.setCursor_col (s : State) (a : RomAddr) (b : Byte) (n : BitVec 4) : (s.setCursor a b n).col = s.col := rfl
@[simp] theorem State.setCursor_rot (s : State) (a : RomAddr) (b : Byte) (n : BitVec 4) : (s.setCursor a b n).rot = s.rot := rfl
@[simp] theorem State.setCursor_orient (s : State) (a : RomAddr) (b : Byte) (n : BitVec 4) : (s.setCursor a b n).orient = s.orient := rfl
@[simp] theorem State.setCursor_orient0 (s : State) (a : RomAddr) (b : Byte) (n : BitVec 4) : (s.setCursor a b n).orient0 = s.orient0 := rfl
@[simp] theorem State.setCursor_fpd (s : State) (a : RomAddr) (b : Byte) (n : BitVec 4) : (s.setCursor a b n).fpd = s.fpd := rfl
@[simp] theorem State.setCursor_mode (s : State) (a : RomAddr) (b : Byte) (n : BitVec 4) : (s.setCursor a b n).mode = s.mode := rfl
@[simp] theorem State.setCursor_flipL (s : State) (a : RomAddr) (b : Byte) (n : BitVec 4) : (s.setCursor a b n).flipL = s.flipL := rfl
@[simp] theorem State.setCursor_rlen (s : State) (a : RomAddr) (b : Byte) (n : BitVec 4) : (s.setCursor a b n).rlen = s.rlen := rfl
@[simp] theorem State.setCursor_rlecnt (s : State) (a : RomAddr) (b : Byte) (n : BitVec 4) : (s.setCursor a b n).rlecnt = s.rlecnt := rfl
@[simp] theorem State.setCursor_phase (s : State) (a : RomAddr) (b : Byte) (n : BitVec 4) : (s.setCursor a b n).phase = s.phase := rfl
@[simp] theorem State.setCursor_ctrlFlip (s : State) (a : RomAddr) (b : Byte) (n : BitVec 4) : (s.setCursor a b n).ctrlFlip = s.ctrlFlip := rfl
@[simp] theorem State.setCursor_ctrlIrqEn (s : State) (a : RomAddr) (b : Byte) (n : BitVec 4) : (s.setCursor a b n).ctrlIrqEn = s.ctrlIrqEn := rfl
@[simp] theorem State.setCursor_busy (s : State) (a : RomAddr) (b : Byte) (n : BitVec 4) : (s.setCursor a b n).busy = s.busy := rfl
@[simp] theorem State.setCursor_done (s : State) (a : RomAddr) (b : Byte) (n : BitVec 4) : (s.setCursor a b n).done = s.done := rfl
@[simp] theorem State.setCursor_err (s : State) (a : RomAddr) (b : Byte) (n : BitVec 4) : (s.setCursor a b n).err = s.err := rfl
@[simp] theorem State.setCursor_errCode (s : State) (a : RomAddr) (b : Byte) (n : BitVec 4) : (s.setCursor a b n).errCode = s.errCode := rfl
@[simp] theorem State.setCursor_src (s : State) (a : RomAddr) (b : Byte) (n : BitVec 4) : (s.setCursor a b n).src = s.src := rfl
@[simp] theorem State.setCursor_faultAddr (s : State) (a : RomAddr) (b : Byte) (n : BitVec 4) : (s.setCursor a b n).faultAddr = s.faultAddr := rfl
@[simp] theorem State.setCursor_wm (s : State) (a : RomAddr) (b : Byte) (n : BitVec 4) : (s.setCursor a b n).wm = s.wm := rfl
@[simp] theorem State.setCursor_out (s : State) (a : RomAddr) (b : Byte) (n : BitVec 4) : (s.setCursor a b n).out = s.out := rfl
@[simp] theorem State.setCursor_rom (s : State) (a : RomAddr) (b : Byte) (n : BitVec 4) : (s.setCursor a b n).rom = s.rom := rfl
@[simp] theorem State.setCursor_cfg (s : State) (a : RomAddr) (b : Byte) (n : BitVec 4) : (s.setCursor a b n).cfg = s.cfg := rfl
@[simp] theorem State.setCursor_rst (s : State) (a : RomAddr) (b : Byte) (n : BitVec 4) : (s.setCursor a b n).rst = s.rst := rfl
@[simp] theorem State.setCursor_hrdata (s : State) (a : RomAddr) (b : Byte) (n : BitVec 4) : (s.setCursor a b n).hrdata = s.hrdata := rfl
@[simp] theorem State.setCursor_inputs (s : State) (a : RomAddr) (b : Byte) (n : BitVec 4) : (s.setCursor a b n).inputs = s.inputs := rfl
@[simp] theorem State.setCursor_romStale (s : State) (a : RomAddr) (b : Byte) (n : BitVec 4) : (s.setCursor a b n).romStale = s.romStale := rfl
@[simp] theorem State.setCursor_freeCtr (s : State) (a : RomAddr) (b : Byte) (n : BitVec 4) : (s.setCursor a b n).freeCtr = s.freeCtr := rfl
@[simp] theorem State.setCursor_tilesWide (s : State) (a : RomAddr) (b : Byte) (n : BitVec 4) : (s.setCursor a b n).tilesWide = s.tilesWide := rfl
@[simp] theorem State.setCursor_tilesHigh (s : State) (a : RomAddr) (b : Byte) (n : BitVec 4) : (s.setCursor a b n).tilesHigh = s.tilesHigh := rfl

/-! ### writeWm -/

@[simp] theorem State.writeWm_inPtr (s : State) (a : Nat) (v : Byte) : (s.writeWm a v).inPtr = s.inPtr := rfl
@[simp] theorem State.writeWm_inByte (s : State) (a : Nat) (v : Byte) : (s.writeWm a v).inByte = s.inByte := rfl
@[simp] theorem State.writeWm_inCnt (s : State) (a : Nat) (v : Byte) : (s.writeWm a v).inCnt = s.inCnt := rfl
@[simp] theorem State.writeWm_hdr (s : State) (a : Nat) (v : Byte) : (s.writeWm a v).hdr = s.hdr := rfl
@[simp] theorem State.writeWm_pptr (s : State) (a : Nat) (v : Byte) : (s.writeWm a v).pptr = s.pptr := rfl
@[simp] theorem State.writeWm_sptr (s : State) (a : Nat) (v : Byte) : (s.writeWm a v).sptr = s.sptr := rfl
@[simp] theorem State.writeWm_row (s : State) (a : Nat) (v : Byte) : (s.writeWm a v).row = s.row := rfl
@[simp] theorem State.writeWm_col (s : State) (a : Nat) (v : Byte) : (s.writeWm a v).col = s.col := rfl
@[simp] theorem State.writeWm_rot (s : State) (a : Nat) (v : Byte) : (s.writeWm a v).rot = s.rot := rfl
@[simp] theorem State.writeWm_orient (s : State) (a : Nat) (v : Byte) : (s.writeWm a v).orient = s.orient := rfl
@[simp] theorem State.writeWm_orient0 (s : State) (a : Nat) (v : Byte) : (s.writeWm a v).orient0 = s.orient0 := rfl
@[simp] theorem State.writeWm_fpd (s : State) (a : Nat) (v : Byte) : (s.writeWm a v).fpd = s.fpd := rfl
@[simp] theorem State.writeWm_mode (s : State) (a : Nat) (v : Byte) : (s.writeWm a v).mode = s.mode := rfl
@[simp] theorem State.writeWm_flipL (s : State) (a : Nat) (v : Byte) : (s.writeWm a v).flipL = s.flipL := rfl
@[simp] theorem State.writeWm_rlen (s : State) (a : Nat) (v : Byte) : (s.writeWm a v).rlen = s.rlen := rfl
@[simp] theorem State.writeWm_rlecnt (s : State) (a : Nat) (v : Byte) : (s.writeWm a v).rlecnt = s.rlecnt := rfl
@[simp] theorem State.writeWm_phase (s : State) (a : Nat) (v : Byte) : (s.writeWm a v).phase = s.phase := rfl
@[simp] theorem State.writeWm_ctrlFlip (s : State) (a : Nat) (v : Byte) : (s.writeWm a v).ctrlFlip = s.ctrlFlip := rfl
@[simp] theorem State.writeWm_ctrlIrqEn (s : State) (a : Nat) (v : Byte) : (s.writeWm a v).ctrlIrqEn = s.ctrlIrqEn := rfl
@[simp] theorem State.writeWm_busy (s : State) (a : Nat) (v : Byte) : (s.writeWm a v).busy = s.busy := rfl
@[simp] theorem State.writeWm_done (s : State) (a : Nat) (v : Byte) : (s.writeWm a v).done = s.done := rfl
@[simp] theorem State.writeWm_err (s : State) (a : Nat) (v : Byte) : (s.writeWm a v).err = s.err := rfl
@[simp] theorem State.writeWm_errCode (s : State) (a : Nat) (v : Byte) : (s.writeWm a v).errCode = s.errCode := rfl
@[simp] theorem State.writeWm_src (s : State) (a : Nat) (v : Byte) : (s.writeWm a v).src = s.src := rfl
@[simp] theorem State.writeWm_faultAddr (s : State) (a : Nat) (v : Byte) : (s.writeWm a v).faultAddr = s.faultAddr := rfl
@[simp] theorem State.writeWm_wm (s : State) (a : Nat) (v : Byte) : (s.writeWm a v).wm = s.wm.write a v := rfl
@[simp] theorem State.writeWm_out (s : State) (a : Nat) (v : Byte) : (s.writeWm a v).out = s.out := rfl
@[simp] theorem State.writeWm_rom (s : State) (a : Nat) (v : Byte) : (s.writeWm a v).rom = s.rom := rfl
@[simp] theorem State.writeWm_cfg (s : State) (a : Nat) (v : Byte) : (s.writeWm a v).cfg = s.cfg := rfl
@[simp] theorem State.writeWm_rst (s : State) (a : Nat) (v : Byte) : (s.writeWm a v).rst = s.rst := rfl
@[simp] theorem State.writeWm_hrdata (s : State) (a : Nat) (v : Byte) : (s.writeWm a v).hrdata = s.hrdata := rfl
@[simp] theorem State.writeWm_inputs (s : State) (a : Nat) (v : Byte) : (s.writeWm a v).inputs = s.inputs := rfl
@[simp] theorem State.writeWm_romStale (s : State) (a : Nat) (v : Byte) : (s.writeWm a v).romStale = s.romStale := rfl
@[simp] theorem State.writeWm_freeCtr (s : State) (a : Nat) (v : Byte) : (s.writeWm a v).freeCtr = s.freeCtr := rfl
@[simp] theorem State.writeWm_tilesWide (s : State) (a : Nat) (v : Byte) : (s.writeWm a v).tilesWide = s.tilesWide := rfl
@[simp] theorem State.writeWm_tilesHigh (s : State) (a : Nat) (v : Byte) : (s.writeWm a v).tilesHigh = s.tilesHigh := rfl

/-! ### raise -/

@[simp] theorem raise_inPtr (s : State) (c : ErrCode) (a : RomAddr) : (raise c a s).inPtr = s.inPtr := rfl
@[simp] theorem raise_inByte (s : State) (c : ErrCode) (a : RomAddr) : (raise c a s).inByte = s.inByte := rfl
@[simp] theorem raise_inCnt (s : State) (c : ErrCode) (a : RomAddr) : (raise c a s).inCnt = s.inCnt := rfl
@[simp] theorem raise_hdr (s : State) (c : ErrCode) (a : RomAddr) : (raise c a s).hdr = s.hdr := rfl
@[simp] theorem raise_pptr (s : State) (c : ErrCode) (a : RomAddr) : (raise c a s).pptr = s.pptr := rfl
@[simp] theorem raise_sptr (s : State) (c : ErrCode) (a : RomAddr) : (raise c a s).sptr = s.sptr := rfl
@[simp] theorem raise_row (s : State) (c : ErrCode) (a : RomAddr) : (raise c a s).row = s.row := rfl
@[simp] theorem raise_col (s : State) (c : ErrCode) (a : RomAddr) : (raise c a s).col = s.col := rfl
@[simp] theorem raise_rot (s : State) (c : ErrCode) (a : RomAddr) : (raise c a s).rot = s.rot := rfl
@[simp] theorem raise_orient (s : State) (c : ErrCode) (a : RomAddr) : (raise c a s).orient = s.orient := rfl
@[simp] theorem raise_orient0 (s : State) (c : ErrCode) (a : RomAddr) : (raise c a s).orient0 = s.orient0 := rfl
@[simp] theorem raise_fpd (s : State) (c : ErrCode) (a : RomAddr) : (raise c a s).fpd = s.fpd := rfl
@[simp] theorem raise_mode (s : State) (c : ErrCode) (a : RomAddr) : (raise c a s).mode = s.mode := rfl
@[simp] theorem raise_flipL (s : State) (c : ErrCode) (a : RomAddr) : (raise c a s).flipL = s.flipL := rfl
@[simp] theorem raise_rlen (s : State) (c : ErrCode) (a : RomAddr) : (raise c a s).rlen = s.rlen := rfl
@[simp] theorem raise_rlecnt (s : State) (c : ErrCode) (a : RomAddr) : (raise c a s).rlecnt = s.rlecnt := rfl
@[simp] theorem raise_phase (s : State) (c : ErrCode) (a : RomAddr) : (raise c a s).phase = .error := rfl
@[simp] theorem raise_ctrlFlip (s : State) (c : ErrCode) (a : RomAddr) : (raise c a s).ctrlFlip = s.ctrlFlip := rfl
@[simp] theorem raise_ctrlIrqEn (s : State) (c : ErrCode) (a : RomAddr) : (raise c a s).ctrlIrqEn = s.ctrlIrqEn := rfl
@[simp] theorem raise_busy (s : State) (c : ErrCode) (a : RomAddr) : (raise c a s).busy = false := rfl
@[simp] theorem raise_done (s : State) (c : ErrCode) (a : RomAddr) : (raise c a s).done = s.done := rfl
@[simp] theorem raise_err (s : State) (c : ErrCode) (a : RomAddr) : (raise c a s).err = true := rfl
@[simp] theorem raise_errCode (s : State) (c : ErrCode) (a : RomAddr) : (raise c a s).errCode = c := rfl
@[simp] theorem raise_src (s : State) (c : ErrCode) (a : RomAddr) : (raise c a s).src = s.src := rfl
@[simp] theorem raise_faultAddr (s : State) (c : ErrCode) (a : RomAddr) : (raise c a s).faultAddr = a := rfl
@[simp] theorem raise_wm (s : State) (c : ErrCode) (a : RomAddr) : (raise c a s).wm = s.wm := rfl
@[simp] theorem raise_out (s : State) (c : ErrCode) (a : RomAddr) : (raise c a s).out = s.out := rfl
@[simp] theorem raise_rom (s : State) (c : ErrCode) (a : RomAddr) : (raise c a s).rom = s.rom := rfl
@[simp] theorem raise_cfg (s : State) (c : ErrCode) (a : RomAddr) : (raise c a s).cfg = s.cfg := rfl
@[simp] theorem raise_rst (s : State) (c : ErrCode) (a : RomAddr) : (raise c a s).rst = s.rst := rfl
@[simp] theorem raise_hrdata (s : State) (c : ErrCode) (a : RomAddr) : (raise c a s).hrdata = s.hrdata := rfl
@[simp] theorem raise_inputs (s : State) (c : ErrCode) (a : RomAddr) : (raise c a s).inputs = s.inputs := rfl
@[simp] theorem raise_romStale (s : State) (c : ErrCode) (a : RomAddr) : (raise c a s).romStale = s.romStale := rfl
@[simp] theorem raise_freeCtr (s : State) (c : ErrCode) (a : RomAddr) : (raise c a s).freeCtr = s.freeCtr := rfl
@[simp] theorem raise_tilesWide (s : State) (c : ErrCode) (a : RomAddr) : (raise c a s).tilesWide = s.tilesWide := rfl
@[simp] theorem raise_tilesHigh (s : State) (c : ErrCode) (a : RomAddr) : (raise c a s).tilesHigh = s.tilesHigh := rfl

/-! ### startRun -/

@[simp] theorem startRun_inPtr (s : State) (n v : Nat) : (startRun n v s).inPtr = s.inPtr := rfl
@[simp] theorem startRun_inByte (s : State) (n v : Nat) : (startRun n v s).inByte = s.inByte := rfl
@[simp] theorem startRun_inCnt (s : State) (n v : Nat) : (startRun n v s).inCnt = s.inCnt := rfl
@[simp] theorem startRun_hdr (s : State) (n v : Nat) : (startRun n v s).hdr = s.hdr := rfl
@[simp] theorem startRun_pptr (s : State) (n v : Nat) : (startRun n v s).pptr = s.pptr := rfl
@[simp] theorem startRun_sptr (s : State) (n v : Nat) : (startRun n v s).sptr = s.sptr := rfl
@[simp] theorem startRun_row (s : State) (n v : Nat) : (startRun n v s).row = s.row := rfl
@[simp] theorem startRun_col (s : State) (n v : Nat) : (startRun n v s).col = s.col := rfl
@[simp] theorem startRun_rot (s : State) (n v : Nat) : (startRun n v s).rot = s.rot := rfl
@[simp] theorem startRun_orient (s : State) (n v : Nat) : (startRun n v s).orient = s.orient := rfl
@[simp] theorem startRun_orient0 (s : State) (n v : Nat) : (startRun n v s).orient0 = s.orient0 := rfl
@[simp] theorem startRun_fpd (s : State) (n v : Nat) : (startRun n v s).fpd = s.fpd := rfl
@[simp] theorem startRun_mode (s : State) (n v : Nat) : (startRun n v s).mode = s.mode := rfl
@[simp] theorem startRun_flipL (s : State) (n v : Nat) : (startRun n v s).flipL = s.flipL := rfl
@[simp] theorem startRun_rlen (s : State) (n v : Nat) : (startRun n v s).rlen = BitVec.ofNat 4 n := rfl
@[simp] theorem startRun_rlecnt (s : State) (n v : Nat) : (startRun n v s).rlecnt = BitVec.ofNat 16 (runCount n v) := rfl
@[simp] theorem startRun_phase (s : State) (n v : Nat) : (startRun n v s).phase = .rleWrite := rfl
@[simp] theorem startRun_ctrlFlip (s : State) (n v : Nat) : (startRun n v s).ctrlFlip = s.ctrlFlip := rfl
@[simp] theorem startRun_ctrlIrqEn (s : State) (n v : Nat) : (startRun n v s).ctrlIrqEn = s.ctrlIrqEn := rfl
@[simp] theorem startRun_busy (s : State) (n v : Nat) : (startRun n v s).busy = s.busy := rfl
@[simp] theorem startRun_done (s : State) (n v : Nat) : (startRun n v s).done = s.done := rfl
@[simp] theorem startRun_err (s : State) (n v : Nat) : (startRun n v s).err = s.err := rfl
@[simp] theorem startRun_errCode (s : State) (n v : Nat) : (startRun n v s).errCode = s.errCode := rfl
@[simp] theorem startRun_src (s : State) (n v : Nat) : (startRun n v s).src = s.src := rfl
@[simp] theorem startRun_faultAddr (s : State) (n v : Nat) : (startRun n v s).faultAddr = s.faultAddr := rfl
@[simp] theorem startRun_wm (s : State) (n v : Nat) : (startRun n v s).wm = s.wm := rfl
@[simp] theorem startRun_out (s : State) (n v : Nat) : (startRun n v s).out = s.out := rfl
@[simp] theorem startRun_rom (s : State) (n v : Nat) : (startRun n v s).rom = s.rom := rfl
@[simp] theorem startRun_cfg (s : State) (n v : Nat) : (startRun n v s).cfg = s.cfg := rfl
@[simp] theorem startRun_rst (s : State) (n v : Nat) : (startRun n v s).rst = s.rst := rfl
@[simp] theorem startRun_hrdata (s : State) (n v : Nat) : (startRun n v s).hrdata = s.hrdata := rfl
@[simp] theorem startRun_inputs (s : State) (n v : Nat) : (startRun n v s).inputs = s.inputs := rfl
@[simp] theorem startRun_romStale (s : State) (n v : Nat) : (startRun n v s).romStale = s.romStale := rfl
@[simp] theorem startRun_freeCtr (s : State) (n v : Nat) : (startRun n v s).freeCtr = s.freeCtr := rfl
@[simp] theorem startRun_tilesWide (s : State) (n v : Nat) : (startRun n v s).tilesWide = s.tilesWide := rfl
@[simp] theorem startRun_tilesHigh (s : State) (n v : Nat) : (startRun n v s).tilesHigh = s.tilesHigh := rfl

/-! ### enterRun -/

@[simp] theorem enterRun_inPtr (s : State) : (enterRun s).inPtr = s.inPtr := rfl
@[simp] theorem enterRun_inByte (s : State) : (enterRun s).inByte = s.inByte := rfl
@[simp] theorem enterRun_inCnt (s : State) : (enterRun s).inCnt = s.inCnt := rfl
@[simp] theorem enterRun_hdr (s : State) : (enterRun s).hdr = s.hdr := rfl
@[simp] theorem enterRun_pptr (s : State) : (enterRun s).pptr = s.pptr := rfl
@[simp] theorem enterRun_sptr (s : State) : (enterRun s).sptr = s.sptr := rfl
@[simp] theorem enterRun_row (s : State) : (enterRun s).row = s.row := rfl
@[simp] theorem enterRun_col (s : State) : (enterRun s).col = s.col := rfl
@[simp] theorem enterRun_rot (s : State) : (enterRun s).rot = s.rot := rfl
@[simp] theorem enterRun_orient (s : State) : (enterRun s).orient = s.orient := rfl
@[simp] theorem enterRun_orient0 (s : State) : (enterRun s).orient0 = s.orient0 := rfl
@[simp] theorem enterRun_fpd (s : State) : (enterRun s).fpd = s.fpd := rfl
@[simp] theorem enterRun_mode (s : State) : (enterRun s).mode = s.mode := rfl
@[simp] theorem enterRun_flipL (s : State) : (enterRun s).flipL = s.flipL := rfl
@[simp] theorem enterRun_rlen (s : State) : (enterRun s).rlen = 0 := rfl
@[simp] theorem enterRun_rlecnt (s : State) : (enterRun s).rlecnt = s.rlecnt := rfl
@[simp] theorem enterRun_phase (s : State) : (enterRun s).phase = .rlePrefix := rfl
@[simp] theorem enterRun_ctrlFlip (s : State) : (enterRun s).ctrlFlip = s.ctrlFlip := rfl
@[simp] theorem enterRun_ctrlIrqEn (s : State) : (enterRun s).ctrlIrqEn = s.ctrlIrqEn := rfl
@[simp] theorem enterRun_busy (s : State) : (enterRun s).busy = s.busy := rfl
@[simp] theorem enterRun_done (s : State) : (enterRun s).done = s.done := rfl
@[simp] theorem enterRun_err (s : State) : (enterRun s).err = s.err := rfl
@[simp] theorem enterRun_errCode (s : State) : (enterRun s).errCode = s.errCode := rfl
@[simp] theorem enterRun_src (s : State) : (enterRun s).src = s.src := rfl
@[simp] theorem enterRun_faultAddr (s : State) : (enterRun s).faultAddr = s.faultAddr := rfl
@[simp] theorem enterRun_wm (s : State) : (enterRun s).wm = s.wm := rfl
@[simp] theorem enterRun_out (s : State) : (enterRun s).out = s.out := rfl
@[simp] theorem enterRun_rom (s : State) : (enterRun s).rom = s.rom := rfl
@[simp] theorem enterRun_cfg (s : State) : (enterRun s).cfg = s.cfg := rfl
@[simp] theorem enterRun_rst (s : State) : (enterRun s).rst = s.rst := rfl
@[simp] theorem enterRun_hrdata (s : State) : (enterRun s).hrdata = s.hrdata := rfl
@[simp] theorem enterRun_inputs (s : State) : (enterRun s).inputs = s.inputs := rfl
@[simp] theorem enterRun_romStale (s : State) : (enterRun s).romStale = s.romStale := rfl
@[simp] theorem enterRun_freeCtr (s : State) : (enterRun s).freeCtr = s.freeCtr := rfl
@[simp] theorem enterRun_tilesWide (s : State) : (enterRun s).tilesWide = s.tilesWide := rfl
@[simp] theorem enterRun_tilesHigh (s : State) : (enterRun s).tilesHigh = s.tilesHigh := rfl

/-! ### setMode -/

@[simp] theorem setMode_inPtr (s : State) (m : BitVec 2) : (setMode m s).inPtr = s.inPtr := rfl
@[simp] theorem setMode_inByte (s : State) (m : BitVec 2) : (setMode m s).inByte = s.inByte := rfl
@[simp] theorem setMode_inCnt (s : State) (m : BitVec 2) : (setMode m s).inCnt = s.inCnt := rfl
@[simp] theorem setMode_hdr (s : State) (m : BitVec 2) : (setMode m s).hdr = s.hdr := rfl
@[simp] theorem setMode_pptr (s : State) (m : BitVec 2) : (setMode m s).pptr = s.pptr := rfl
@[simp] theorem setMode_sptr (s : State) (m : BitVec 2) : (setMode m s).sptr = s.sptr := rfl
@[simp] theorem setMode_row (s : State) (m : BitVec 2) : (setMode m s).row = s.row := rfl
@[simp] theorem setMode_col (s : State) (m : BitVec 2) : (setMode m s).col = s.col := rfl
@[simp] theorem setMode_rot (s : State) (m : BitVec 2) : (setMode m s).rot = s.rot := rfl
@[simp] theorem setMode_orient (s : State) (m : BitVec 2) : (setMode m s).orient = s.orient := rfl
@[simp] theorem setMode_orient0 (s : State) (m : BitVec 2) : (setMode m s).orient0 = s.orient0 := rfl
@[simp] theorem setMode_fpd (s : State) (m : BitVec 2) : (setMode m s).fpd = s.fpd := rfl
@[simp] theorem setMode_mode (s : State) (m : BitVec 2) : (setMode m s).mode = m := rfl
@[simp] theorem setMode_flipL (s : State) (m : BitVec 2) : (setMode m s).flipL = s.flipL := rfl
@[simp] theorem setMode_rlen (s : State) (m : BitVec 2) : (setMode m s).rlen = s.rlen := rfl
@[simp] theorem setMode_rlecnt (s : State) (m : BitVec 2) : (setMode m s).rlecnt = s.rlecnt := rfl
@[simp] theorem setMode_phase (s : State) (m : BitVec 2) : (setMode m s).phase = .kind := rfl
@[simp] theorem setMode_ctrlFlip (s : State) (m : BitVec 2) : (setMode m s).ctrlFlip = s.ctrlFlip := rfl
@[simp] theorem setMode_ctrlIrqEn (s : State) (m : BitVec 2) : (setMode m s).ctrlIrqEn = s.ctrlIrqEn := rfl
@[simp] theorem setMode_busy (s : State) (m : BitVec 2) : (setMode m s).busy = s.busy := rfl
@[simp] theorem setMode_done (s : State) (m : BitVec 2) : (setMode m s).done = s.done := rfl
@[simp] theorem setMode_err (s : State) (m : BitVec 2) : (setMode m s).err = s.err := rfl
@[simp] theorem setMode_errCode (s : State) (m : BitVec 2) : (setMode m s).errCode = s.errCode := rfl
@[simp] theorem setMode_src (s : State) (m : BitVec 2) : (setMode m s).src = s.src := rfl
@[simp] theorem setMode_faultAddr (s : State) (m : BitVec 2) : (setMode m s).faultAddr = s.faultAddr := rfl
@[simp] theorem setMode_wm (s : State) (m : BitVec 2) : (setMode m s).wm = s.wm := rfl
@[simp] theorem setMode_out (s : State) (m : BitVec 2) : (setMode m s).out = s.out := rfl
@[simp] theorem setMode_rom (s : State) (m : BitVec 2) : (setMode m s).rom = s.rom := rfl
@[simp] theorem setMode_cfg (s : State) (m : BitVec 2) : (setMode m s).cfg = s.cfg := rfl
@[simp] theorem setMode_rst (s : State) (m : BitVec 2) : (setMode m s).rst = s.rst := rfl
@[simp] theorem setMode_hrdata (s : State) (m : BitVec 2) : (setMode m s).hrdata = s.hrdata := rfl
@[simp] theorem setMode_inputs (s : State) (m : BitVec 2) : (setMode m s).inputs = s.inputs := rfl
@[simp] theorem setMode_romStale (s : State) (m : BitVec 2) : (setMode m s).romStale = s.romStale := rfl
@[simp] theorem setMode_freeCtr (s : State) (m : BitVec 2) : (setMode m s).freeCtr = s.freeCtr := rfl
@[simp] theorem setMode_tilesWide (s : State) (m : BitVec 2) : (setMode m s).tilesWide = s.tilesWide := rfl
@[simp] theorem setMode_tilesHigh (s : State) (m : BitVec 2) : (setMode m s).tilesHigh = s.tilesHigh := rfl

/-! ### ctrlWrite -/

@[simp] theorem ctrlWrite_inPtr (s : State) (d : Byte) : (ctrlWrite d s).inPtr = s.inPtr := rfl
@[simp] theorem ctrlWrite_inByte (s : State) (d : Byte) : (ctrlWrite d s).inByte = s.inByte := rfl
@[simp] theorem ctrlWrite_inCnt (s : State) (d : Byte) : (ctrlWrite d s).inCnt = s.inCnt := rfl
@[simp] theorem ctrlWrite_hdr (s : State) (d : Byte) : (ctrlWrite d s).hdr = s.hdr := rfl
@[simp] theorem ctrlWrite_pptr (s : State) (d : Byte) : (ctrlWrite d s).pptr = s.pptr := rfl
@[simp] theorem ctrlWrite_sptr (s : State) (d : Byte) : (ctrlWrite d s).sptr = s.sptr := rfl
@[simp] theorem ctrlWrite_row (s : State) (d : Byte) : (ctrlWrite d s).row = s.row := rfl
@[simp] theorem ctrlWrite_col (s : State) (d : Byte) : (ctrlWrite d s).col = s.col := rfl
@[simp] theorem ctrlWrite_rot (s : State) (d : Byte) : (ctrlWrite d s).rot = s.rot := rfl
@[simp] theorem ctrlWrite_orient (s : State) (d : Byte) : (ctrlWrite d s).orient = s.orient := rfl
@[simp] theorem ctrlWrite_orient0 (s : State) (d : Byte) : (ctrlWrite d s).orient0 = s.orient0 := rfl
@[simp] theorem ctrlWrite_fpd (s : State) (d : Byte) : (ctrlWrite d s).fpd = s.fpd := rfl
@[simp] theorem ctrlWrite_mode (s : State) (d : Byte) : (ctrlWrite d s).mode = s.mode := rfl
@[simp] theorem ctrlWrite_flipL (s : State) (d : Byte) : (ctrlWrite d s).flipL = s.flipL := rfl
@[simp] theorem ctrlWrite_rlen (s : State) (d : Byte) : (ctrlWrite d s).rlen = s.rlen := rfl
@[simp] theorem ctrlWrite_rlecnt (s : State) (d : Byte) : (ctrlWrite d s).rlecnt = s.rlecnt := rfl
@[simp] theorem ctrlWrite_phase (s : State) (d : Byte) : (ctrlWrite d s).phase = s.phase := rfl
@[simp] theorem ctrlWrite_ctrlFlip (s : State) (d : Byte) : (ctrlWrite d s).ctrlFlip = d.getLsbD 1 := rfl
@[simp] theorem ctrlWrite_ctrlIrqEn (s : State) (d : Byte) : (ctrlWrite d s).ctrlIrqEn = d.getLsbD 2 := rfl
@[simp] theorem ctrlWrite_busy (s : State) (d : Byte) : (ctrlWrite d s).busy = s.busy := rfl
@[simp] theorem ctrlWrite_done (s : State) (d : Byte) : (ctrlWrite d s).done = s.done := rfl
@[simp] theorem ctrlWrite_err (s : State) (d : Byte) : (ctrlWrite d s).err = s.err := rfl
@[simp] theorem ctrlWrite_errCode (s : State) (d : Byte) : (ctrlWrite d s).errCode = s.errCode := rfl
@[simp] theorem ctrlWrite_src (s : State) (d : Byte) : (ctrlWrite d s).src = s.src := rfl
@[simp] theorem ctrlWrite_faultAddr (s : State) (d : Byte) : (ctrlWrite d s).faultAddr = s.faultAddr := rfl
@[simp] theorem ctrlWrite_wm (s : State) (d : Byte) : (ctrlWrite d s).wm = s.wm := rfl
@[simp] theorem ctrlWrite_out (s : State) (d : Byte) : (ctrlWrite d s).out = s.out := rfl
@[simp] theorem ctrlWrite_rom (s : State) (d : Byte) : (ctrlWrite d s).rom = s.rom := rfl
@[simp] theorem ctrlWrite_cfg (s : State) (d : Byte) : (ctrlWrite d s).cfg = s.cfg := rfl
@[simp] theorem ctrlWrite_rst (s : State) (d : Byte) : (ctrlWrite d s).rst = s.rst := rfl
@[simp] theorem ctrlWrite_hrdata (s : State) (d : Byte) : (ctrlWrite d s).hrdata = s.hrdata := rfl
@[simp] theorem ctrlWrite_inputs (s : State) (d : Byte) : (ctrlWrite d s).inputs = s.inputs := rfl
@[simp] theorem ctrlWrite_romStale (s : State) (d : Byte) : (ctrlWrite d s).romStale = s.romStale := rfl
@[simp] theorem ctrlWrite_freeCtr (s : State) (d : Byte) : (ctrlWrite d s).freeCtr = s.freeCtr := rfl
@[simp] theorem ctrlWrite_tilesWide (s : State) (d : Byte) : (ctrlWrite d s).tilesWide = s.tilesWide := rfl
@[simp] theorem ctrlWrite_tilesHigh (s : State) (d : Byte) : (ctrlWrite d s).tilesHigh = s.tilesHigh := rfl

/-! ### tickInputs -/

@[simp] theorem tickInputs_inPtr (s : State) : (tickInputs s).inPtr = s.inPtr := rfl
@[simp] theorem tickInputs_inByte (s : State) : (tickInputs s).inByte = s.inByte := rfl
@[simp] theorem tickInputs_inCnt (s : State) : (tickInputs s).inCnt = s.inCnt := rfl
@[simp] theorem tickInputs_hdr (s : State) : (tickInputs s).hdr = s.hdr := rfl
@[simp] theorem tickInputs_pptr (s : State) : (tickInputs s).pptr = s.pptr := rfl
@[simp] theorem tickInputs_sptr (s : State) : (tickInputs s).sptr = s.sptr := rfl
@[simp] theorem tickInputs_row (s : State) : (tickInputs s).row = s.row := rfl
@[simp] theorem tickInputs_col (s : State) : (tickInputs s).col = s.col := rfl
@[simp] theorem tickInputs_rot (s : State) : (tickInputs s).rot = s.rot := rfl
@[simp] theorem tickInputs_orient (s : State) : (tickInputs s).orient = s.orient := rfl
@[simp] theorem tickInputs_orient0 (s : State) : (tickInputs s).orient0 = s.orient0 := rfl
@[simp] theorem tickInputs_fpd (s : State) : (tickInputs s).fpd = s.fpd := rfl
@[simp] theorem tickInputs_mode (s : State) : (tickInputs s).mode = s.mode := rfl
@[simp] theorem tickInputs_flipL (s : State) : (tickInputs s).flipL = s.flipL := rfl
@[simp] theorem tickInputs_rlen (s : State) : (tickInputs s).rlen = s.rlen := rfl
@[simp] theorem tickInputs_rlecnt (s : State) : (tickInputs s).rlecnt = s.rlecnt := rfl
@[simp] theorem tickInputs_phase (s : State) : (tickInputs s).phase = s.phase := rfl
@[simp] theorem tickInputs_ctrlFlip (s : State) : (tickInputs s).ctrlFlip = s.ctrlFlip := rfl
@[simp] theorem tickInputs_ctrlIrqEn (s : State) : (tickInputs s).ctrlIrqEn = s.ctrlIrqEn := rfl
@[simp] theorem tickInputs_busy (s : State) : (tickInputs s).busy = s.busy := rfl
@[simp] theorem tickInputs_done (s : State) : (tickInputs s).done = s.done := rfl
@[simp] theorem tickInputs_err (s : State) : (tickInputs s).err = s.err := rfl
@[simp] theorem tickInputs_errCode (s : State) : (tickInputs s).errCode = s.errCode := rfl
@[simp] theorem tickInputs_src (s : State) : (tickInputs s).src = s.src := rfl
@[simp] theorem tickInputs_faultAddr (s : State) : (tickInputs s).faultAddr = s.faultAddr := rfl
@[simp] theorem tickInputs_wm (s : State) : (tickInputs s).wm = s.wm := rfl
@[simp] theorem tickInputs_out (s : State) : (tickInputs s).out = s.out := rfl
@[simp] theorem tickInputs_rom (s : State) : (tickInputs s).rom = s.rom := rfl
@[simp] theorem tickInputs_cfg (s : State) : (tickInputs s).cfg = s.cfg := rfl
@[simp] theorem tickInputs_rst (s : State) : (tickInputs s).rst = s.rst := rfl
@[simp] theorem tickInputs_hrdata (s : State) : (tickInputs s).hrdata = s.hrdata := rfl
@[simp] theorem tickInputs_romStale (s : State) : (tickInputs s).romStale = s.romStale := rfl
@[simp] theorem tickInputs_freeCtr (s : State) : (tickInputs s).freeCtr = s.freeCtr := rfl
@[simp] theorem tickInputs_tilesWide (s : State) : (tickInputs s).tilesWide = s.tilesWide := rfl
@[simp] theorem tickInputs_tilesHigh (s : State) : (tickInputs s).tilesHigh = s.tilesHigh := rfl

end Sys2Proof.Machine
end

