-- ==== Sys2Proof/Laws/Memory.lean ====
section
/-! SUPPORT. The laws of a memory: a read after a write, and the canonical form that every operation keeps. -/

namespace Sys2Proof.Machine

/-! ### Reads after writes -/

theorem findCell_setCell (cs : List Host.Cell) (a b : Nat) (v : Byte) :
    findCell (setCell cs a v) b = if a = b then some v else findCell cs b := by
  induction cs with
  | nil => simp [setCell, findCell]
  | cons c cs ih =>
    obtain ⟨k, w⟩ := c
    unfold setCell
    split
    · simp [findCell]
    · split
      · subst_vars
        by_cases h : k = b <;> simp [findCell, h]
      · by_cases h : k = b
        · subst h; simp [findCell, ‹¬a = k›]
        · simp [findCell, h, ih]

theorem findCell_dropCell (cs : List Host.Cell) (a b : Nat) :
    findCell (dropCell cs a) b = if a = b then none else findCell cs b := by
  induction cs with
  | nil => simp [dropCell, findCell]
  | cons c cs ih =>
    obtain ⟨k, w⟩ := c
    unfold dropCell at ih ⊢
    by_cases hk : k = a
    · subst hk
      by_cases hb : k = b <;> simp [findCell, hb, ih]
      simpa [hb] using ih
    · by_cases hb : k = b
      · subst hb
        simp [findCell, hk, Ne.symm hk]
      · simp [findCell, hk, hb, ih]

@[simp] theorem Memory.write_fill (m : Memory) (a : Nat) (v : Byte) : (m.write a v).fill = m.fill := by
  unfold Memory.write; split <;> rfl

/-- The one law of reads and writes: the written address reads the byte, every other address reads as before. -/
theorem Memory.read_write (m : Memory) (a b : Nat) (v : Byte) :
    (m.write a v).read b = if a = b then v else m.read b := by
  unfold Memory.write
  split
  · rename_i h
    by_cases hab : a = b
    · subst hab; simp [Memory.read, findCell_dropCell, h]
    · simp [Memory.read, findCell_dropCell, hab]
  · by_cases hab : a = b
    · subst hab; simp [Memory.read, findCell_setCell]
    · simp [Memory.read, findCell_setCell, hab]

@[simp] theorem Memory.read_write_same (m : Memory) (a : Nat) (v : Byte) : (m.write a v).read a = v := by
  simp [Memory.read_write]

theorem Memory.read_write_other (m : Memory) (a b : Nat) (v : Byte) (h : a ≠ b) :
    (m.write a v).read b = m.read b := by
  simp [Memory.read_write, h]

@[simp] theorem Memory.read_zero (a : Nat) : Memory.zero.read a = 0 := rfl

/-! ### The canonical form -/

theorem Memory.wf_iff (m : Memory) :
    m.wf = true ↔ m.cells.Pairwise (fun x y => x.1 < y.1) ∧ ∀ c ∈ m.cells, c.2 ≠ unlistedByte m.fill c.1 := by
  simp [Memory.wf]

theorem Memory.below_iff (m : Memory) (n : Nat) : m.below n = true ↔ ∀ c ∈ m.cells, c.1 < n := by
  simp [Memory.below]

theorem mem_setCell (cs : List Host.Cell) (a : Nat) (v : Byte) (c : Host.Cell) (h : c ∈ setCell cs a v) :
    c = (a, v) ∨ c ∈ cs := by
  induction cs with
  | nil => simpa [setCell] using h
  | cons d cs ih =>
    obtain ⟨k, w⟩ := d
    unfold setCell at h
    split at h
    · simpa using h
    · split at h
      · rcases List.mem_cons.mp h with h | h
        · exact .inl h
        · exact .inr (List.mem_cons_of_mem _ h)
      · rcases List.mem_cons.mp h with h | h
        · exact .inr (h ▸ List.mem_cons_self)
        · rcases ih h with h | h
          · exact .inl h
          · exact .inr (List.mem_cons_of_mem _ h)

theorem setCell_pairwise (cs : List Host.Cell) (a : Nat) (v : Byte)
    (h : cs.Pairwise (fun x y => x.1 < y.1)) : (setCell cs a v).Pairwise (fun x y => x.1 < y.1) := by
  induction cs with
  | nil => simp [setCell]
  | cons d cs ih =>
    obtain ⟨k, w⟩ := d
    obtain ⟨hk, ht⟩ := List.pairwise_cons.mp h
    unfold setCell
    split
    · rename_i hlt
      refine List.pairwise_cons.mpr ⟨?_, h⟩
      intro c hc
      rcases List.mem_cons.mp hc with rfl | hc
      · exact hlt
      · exact Nat.lt_trans hlt (hk c hc)
    · split
      · rename_i heq
        exact List.pairwise_cons.mpr ⟨fun c hc => heq ▸ hk c hc, ht⟩
      · rename_i hnlt hne
        refine List.pairwise_cons.mpr ⟨?_, ih ht⟩
        intro c hc
        rcases mem_setCell cs a v c hc with rfl | hc
        · exact Nat.lt_of_le_of_ne (Nat.not_lt.mp hnlt) (Ne.symm hne)
        · exact hk c hc

/-- A write keeps the canonical form. -/
theorem Memory.wf_write (m : Memory) (a : Nat) (v : Byte) (h : m.wf = true) : (m.write a v).wf = true := by
  obtain ⟨hp, hv⟩ := m.wf_iff.mp h
  unfold Memory.write
  split
  · refine (Memory.wf_iff _).mpr ⟨hp.filter _, ?_⟩
    intro c hc
    exact hv c (List.mem_of_mem_filter hc)
  · rename_i hne
    refine (Memory.wf_iff _).mpr ⟨setCell_pairwise _ _ _ hp, ?_⟩
    intro c hc
    rcases mem_setCell _ _ _ c hc with rfl | hc
    · exact hne
    · exact hv c hc

/-- A write below `n` keeps every listed address below `n`. -/
theorem Memory.below_write (m : Memory) (a n : Nat) (v : Byte) (ha : a < n) (h : m.below n = true) :
    (m.write a v).below n = true := by
  have hb := (m.below_iff n).mp h
  unfold Memory.write
  split
  · exact (Memory.below_iff _ _).mpr fun c hc => hb c (List.mem_of_mem_filter hc)
  · refine (Memory.below_iff _ _).mpr fun c hc => ?_
    rcases mem_setCell _ _ _ c hc with rfl | hc
    · exact ha
    · exact hb c hc

theorem Memory.zero_wf : Memory.zero.wf = true := by decide

theorem Memory.unspecified_wf (draw : Nat) : (Memory.unspecified draw).wf = true := by
  simp [Memory.wf_iff, Memory.unspecified]

/-- The memories of the reset state have the canonical form. -/
theorem reset_memories_wf :
    State.reset.wm.wf = true ∧ State.reset.out.wf = true ∧ State.reset.rom.wf = true := by
  simp [Memory.wf_iff, State.reset]

/-! ### Folds of writes -/

/-- A property of memories that one write at an allowed address keeps, a fold of such steps keeps. -/
theorem foldl_keeps {α : Type} (P : Memory → Prop) (f : Memory → α → Memory) (l : List α) (m : Memory)
    (hf : ∀ m x, x ∈ l → P m → P (f m x)) (hm : P m) : P (l.foldl f m) := by
  induction l generalizing m with
  | nil => exact hm
  | cons x l ih =>
    exact ih (f m x) (fun m y hy => hf m y (List.mem_cons_of_mem _ hy)) (hf m x List.mem_cons_self hm)

end Sys2Proof.Machine
end

