-- ==== Sys2Proof/Laws/Ops.lean ====
section
/-! SUPPORT. What the shared operations can do, said once: the bit reader moves only the cursor (and draws free values), the cell
write changes one byte of WM, the advance moves only the advance registers. -/

namespace Sys2Proof.Machine

/-! ### The bit reader -/

/-- `t` is `s` with the bit cursor moved and perhaps free values drawn. -/
def CursorMoved (s t : State) : Prop :=
  ∃ p y c n, t = { s with inPtr := p, inByte := y, inCnt := c, freeCtr := n }

theorem CursorMoved.refl (s : State) : CursorMoved s s := ⟨s.inPtr, s.inByte, s.inCnt, s.freeCtr, rfl⟩

theorem CursorMoved.trans {s t u : State} (h : CursorMoved s t) (k : CursorMoved t u) : CursorMoved s u := by
  obtain ⟨p, y, c, n, rfl⟩ := h
  obtain ⟨p', y', c', n', rfl⟩ := k
  exact ⟨p', y', c', n', rfl⟩

theorem romByte_moved (s : State) (a : Nat) : CursorMoved s (romByte s a).2 := by
  unfold romByte
  split
  · exact CursorMoved.refl s
  · exact ⟨_, _, _, s.freeCtr + 1, rfl⟩

/-- Without a changed byte at the address, the fetch returns the ROM's byte (R13). -/
theorem romByte_unchanged (s : State) (a : Nat) (h : ∀ c ∈ s.romStale, c.1 ≠ a) : romByte s a = (s.rom.read a, s) := by
  have hf : s.romStale.filter (fun c => c.1 == a) = [] := by
    simpa [List.filter_eq_nil_iff] using h
  simp only [romByte, hf]

theorem romFetch_error {s e : State} (h : romFetch s = .error e) :
    e = s ∧ s.cfg.romSize ≤ s.inPtr.toNat := by
  unfold romFetch at h
  split at h
  · exact ⟨(Except.error.inj h).symm, ‹_›⟩
  · cases h

theorem romFetch_ok {s t : State} {b : Byte} (h : romFetch s = .ok (b, t)) :
    s.inPtr.toNat < s.cfg.romSize ∧ b = (romByte s s.inPtr.toNat).1 ∧
      t = { (romByte s s.inPtr.toNat).2 with inPtr := s.inPtr + 1 } := by
  unfold romFetch at h
  split at h
  · cases h
  · obtain ⟨rfl, rfl⟩ := Prod.mk.inj (Except.ok.inj h)
    refine ⟨Nat.not_le.mp ‹_›, rfl, ?_⟩
    unfold romByte
    split <;> rfl

theorem romFetch_moved {s t : State} {b : Byte} (h : romFetch s = .ok (b, t)) : CursorMoved s t := by
  obtain ⟨-, -, rfl⟩ := romFetch_ok h
  obtain ⟨p, y, c, n, hr⟩ := romByte_moved s s.inPtr.toNat
  rw [hr]
  exact ⟨s.inPtr + 1, y, c, n, rfl⟩

/-- A failing bit read changes nothing: no unread bit is left and the next byte is beyond the ROM (R57). -/
theorem readBit_error {s e : State} (h : readBit s = .error e) :
    e = s ∧ s.inCnt = 0 ∧ s.cfg.romSize ≤ s.inPtr.toNat := by
  unfold readBit at h
  split at h
  · split at h
    · obtain ⟨rfl, hs⟩ := romFetch_error ‹_›
      exact ⟨(Except.error.inj h).symm, ‹_›, hs⟩
    · cases h
  · cases h

/-- With bits left, the next one is bit 7 of `IN_BYTE` (R57). -/
theorem readBit_of_left (s : State) (h : s.inCnt ≠ 0) :
    readBit s = .ok (s.inByte.getLsbD 7, s.setCursor s.inPtr (s.inByte <<< 1) (s.inCnt - 1)) := by
  rw [readBit, if_neg h, shiftBit]

/-- With no bit left, the next byte is fetched first (R57). -/
theorem readBit_of_refill (s : State) (h : s.inCnt = 0) (hp : s.inPtr.toNat < s.cfg.romSize)
    (hs : ∀ c ∈ s.romStale, c.1 ≠ s.inPtr.toNat) :
    readBit s = .ok ((s.rom.read s.inPtr.toNat).getLsbD 7,
      s.setCursor (s.inPtr + 1) (s.rom.read s.inPtr.toNat <<< 1) 7) := by
  simp [readBit, h, romFetch, Nat.not_le.mpr hp, romByte_unchanged s _ hs, shiftBit, State.setCursor]

theorem shiftBit_moved (s : State) : CursorMoved s (shiftBit s).2 := ⟨_, _, _, s.freeCtr, rfl⟩

theorem readBit_moved {s t : State} {b : Bool} (h : readBit s = .ok (b, t)) : CursorMoved s t := by
  unfold readBit at h
  split at h
  · split at h
    · cases h
    · rename_i s1 hf
      obtain ⟨-, rfl⟩ := Prod.mk.inj (Except.ok.inj h)
      exact (romFetch_moved hf).trans ⟨_, _, _, s1.freeCtr, rfl⟩
  · obtain ⟨-, rfl⟩ := Prod.mk.inj (Except.ok.inj h)
    exact shiftBit_moved s

theorem readBits_moved {k v w : Nat} {s t : State} (h : readBitsFrom readBit k v s = .ok (w, t)) : CursorMoved s t := by
  induction k generalizing v s with
  | zero =>
    obtain ⟨-, rfl⟩ := Prod.mk.inj (Except.ok.inj h)
    exact CursorMoved.refl s
  | succ k ih =>
    unfold readBitsFrom at h
    split at h
    · cases h
    · rename_i hb
      exact (readBit_moved hb).trans (ih h)

/-- A failing read of several bits keeps the bits read before the failure consumed, and fails at the end of the ROM (R96). -/
theorem readBits_error {k v : Nat} {s e : State} (h : readBitsFrom readBit k v s = .error e) :
    CursorMoved s e ∧ e.inCnt = 0 ∧ e.cfg.romSize ≤ e.inPtr.toNat := by
  induction k generalizing v s with
  | zero => cases h
  | succ k ih =>
    unfold readBitsFrom at h
    split at h
    · rename_i hb
      obtain ⟨rfl, h0, hs⟩ := readBit_error hb
      cases h
      exact ⟨CursorMoved.refl _, h0, hs⟩
    · rename_i hb
      obtain ⟨hm, hr⟩ := ih h
      exact ⟨(readBit_moved hb).trans hm, hr⟩

/-! ### Cells -/

theorem cellTransform_eq (x : Byte) (rot : BitVec 2) (h : x.toNat < 4) :
    cellTransform x rot = x <<< (2 * rot.toNat) := by
  have hx : x = 0#8 ∨ x = 1#8 ∨ x = 2#8 ∨ x = 3#8 := by
    have h4 : x.toNat = 0 ∨ x.toNat = 1 ∨ x.toNat = 2 ∨ x.toNat = 3 := by omega
    rcases h4 with h | h | h | h
    · exact .inl (BitVec.eq_of_toNat_eq h)
    · exact .inr (.inl (BitVec.eq_of_toNat_eq h))
    · exact .inr (.inr (.inl (BitVec.eq_of_toNat_eq h)))
    · exact .inr (.inr (.inr (BitVec.eq_of_toNat_eq h)))
  have hr : ∀ r : BitVec 2, ∀ y ∈ [0#8, 1#8, 2#8, 3#8], cellTransform y r = y <<< (2 * r.toNat) := by decide
  exact hr rot x (by rcases hx with h | h | h | h <;> simp [h])

theorem cellWrite_some {x : Byte} {s t : State} (h : cellWrite x s = some t) :
    s.pptr.toNat < Config.outSize ∧
      t = s.writeWm s.pptr.toNat (s.wm.read s.pptr.toNat ||| cellTransform x s.rot) := by
  unfold cellWrite at h
  split at h
  · exact ⟨‹_›, (Option.some.inj h).symm⟩
  · cases h

theorem cellWrite_of_lt (x : Byte) (s : State) (h : s.pptr.toNat < Config.outSize) :
    cellWrite x s = some (s.writeWm s.pptr.toNat (s.wm.read s.pptr.toNat ||| cellTransform x s.rot)) := by
  simp [cellWrite, h]

/-- Writing a byte that is there already changes nothing that a read sees. -/
theorem writeWm_read_same (s : State) (a b : Nat) : (s.writeWm a (s.wm.read a)).wm.read b = s.wm.read b := by
  by_cases h : a = b <;> simp [Memory.read_write, h]

/-! ### The advance -/

/-- The advance touches only the advance registers (R69, "State written"). -/
theorem advance_frame (s : State) :
    ∃ row col rot pptr sptr orient fpd, (advance s).2 =
      { s with row := row, col := col, rot := rot, pptr := pptr, sptr := sptr, orient := orient, fpd := fpd } := by
  unfold advance
  repeat' split
  all_goals exact ⟨_, _, _, _, _, _, _, rfl⟩

/-- The five outcomes of the advance (R69). -/
theorem advance_cases (s : State) :
    (s.row.toNat + 1 ≠ 8 * s.tilesHigh ∧
      advance s = (.notYetReady, { s with row := s.row + 1, pptr := s.pptr + 1 })) ∨
    (s.row.toNat + 1 = 8 * s.tilesHigh ∧ s.rot ≠ 0 ∧
      advance s = (.notYetReady, { s with row := 0, rot := s.rot - 1, pptr := s.sptr })) ∨
    (s.row.toNat + 1 = 8 * s.tilesHigh ∧ s.rot = 0 ∧ s.col.toNat + 8 ≠ 8 * s.tilesWide ∧
      advance s = (.notYetReady,
        { s with row := 0, rot := 3, col := s.col + 8, pptr := s.pptr + 1, sptr := s.pptr + 1 })) ∨
    (s.row.toNat + 1 = 8 * s.tilesHigh ∧ s.rot = 0 ∧ s.col.toNat + 8 = 8 * s.tilesWide ∧ s.fpd = false ∧
      advance s = (.restart, { s with row := 0, rot := 3, col := 0, orient := !s.orient, fpd := true })) ∨
    (s.row.toNat + 1 = 8 * s.tilesHigh ∧ s.rot = 0 ∧ s.col.toNat + 8 = 8 * s.tilesWide ∧ s.fpd = true ∧
      advance s = (.done, { s with row := 0, rot := 3, col := 0 })) := by
  unfold advance Config.tilePx
  split
  · exact .inl ⟨‹_›, rfl⟩
  · have h1 : s.row.toNat + 1 = 8 * s.tilesHigh := not_not.mp ‹_›
    split
    · exact .inr (.inl ⟨h1, ‹_›, rfl⟩)
    · have h2 : s.rot = 0 := not_not.mp ‹_›
      split
      · exact .inr (.inr (.inl ⟨h1, h2, ‹_›, rfl⟩))
      · have h3 : s.col.toNat + 8 = 8 * s.tilesWide := not_not.mp ‹_›
        split
        · exact .inr (.inr (.inr (.inl ⟨h1, h2, h3, ‹_›, rfl⟩)))
        · exact .inr (.inr (.inr (.inr ⟨h1, h2, h3, by simpa using ‹¬s.fpd = false›, rfl⟩)))

theorem dispatch_eq (r : AdvanceResult) (c : Phase) (s : State) :
    dispatch r c s = s.setPhase (match r with | .notYetReady => c | .restart => .passSetup | .done => .unpack) := by
  cases r <;> rfl

end Sys2Proof.Machine
end

