-- ==== Sys2Proof/Laws/PerInstr.lean ====
section
/-! SUPPORT. Statements about every instruction as syntax, one lemma a constructor. -/

namespace Sys2Proof.Laws

/-- The width of a token, a step or a command in bits (R46, R48, R55). -/
def tokenWidth (i : Instr) : Nat :=
  match i with
  | .hdr _ _ => 8
  | .orient _ => 1
  | .mode0 => 1
  | .mode1 => 2
  | .mode2 => 2
  | .kindRle => 1
  | .kindData => 1
  | .endData => 2
  | .pair1 => 2
  | .pair2 => 2
  | .pair3 => 2
  | .runN0 _ => 2
  | .runN1 _ => 4
  | .runN2 _ => 6
  | .runN3 _ => 8
  | .runN4 _ => 10
  | .runN5 _ => 12
  | .runN6 _ => 14
  | .runN7 _ => 16
  | .runN8 _ => 18
  | .runN9 _ => 20
  | .runN10 _ => 22
  | .runN11 _ => 24
  | .runN12 _ => 26
  | .runN13 _ => 28
  | .runN14 _ => 30
  | .runOverlong => 15
  | .passSetup => 0
  | .rleWrite => 0
  | .unpack => 0
  | .interleave => 0
  | .start _ => 20
  | .ctrlWr _ => 20
  | .clrSt _ => 20
  | .srcWr0 _ => 20
  | .srcWr1 _ => 20
  | .srcWr2 _ => 20
  | .rd _ => 12

end Sys2Proof.Laws

namespace Sys2Proof.Laws.EncodedLength

/-- The encoding has the width the spec's formats give it. -/
def Statement (i : Instr) : Prop := (encode i).length = tokenWidth i

theorem hdr (w h : BitVec 4) : Statement (.hdr w h) := by
  simp [Statement, encode, tokenWidth]

theorem orient (o : Bool) : Statement (.orient o) := rfl

theorem mode0 : Statement .mode0 := rfl

theorem mode1 : Statement .mode1 := rfl

theorem mode2 : Statement .mode2 := rfl

theorem kindRle : Statement .kindRle := rfl

theorem kindData : Statement .kindData := rfl

theorem endData : Statement .endData := rfl

theorem pair1 : Statement .pair1 := rfl

theorem pair2 : Statement .pair2 := rfl

theorem pair3 : Statement .pair3 := rfl

theorem runN0 (v : BitVec 1) : Statement (.runN0 v) := by
  simp [Statement, encode, tokenWidth, runBits]

theorem runN1 (v : BitVec 2) : Statement (.runN1 v) := by
  simp [Statement, encode, tokenWidth, runBits]

theorem runN2 (v : BitVec 3) : Statement (.runN2 v) := by
  simp [Statement, encode, tokenWidth, runBits]

theorem runN3 (v : BitVec 4) : Statement (.runN3 v) := by
  simp [Statement, encode, tokenWidth, runBits]

theorem runN4 (v : BitVec 5) : Statement (.runN4 v) := by
  simp [Statement, encode, tokenWidth, runBits]

theorem runN5 (v : BitVec 6) : Statement (.runN5 v) := by
  simp [Statement, encode, tokenWidth, runBits]

theorem runN6 (v : BitVec 7) : Statement (.runN6 v) := by
  simp [Statement, encode, tokenWidth, runBits]

theorem runN7 (v : BitVec 8) : Statement (.runN7 v) := by
  simp [Statement, encode, tokenWidth, runBits]

theorem runN8 (v : BitVec 9) : Statement (.runN8 v) := by
  simp [Statement, encode, tokenWidth, runBits]

theorem runN9 (v : BitVec 10) : Statement (.runN9 v) := by
  simp [Statement, encode, tokenWidth, runBits]

theorem runN10 (v : BitVec 11) : Statement (.runN10 v) := by
  simp [Statement, encode, tokenWidth, runBits]

theorem runN11 (v : BitVec 12) : Statement (.runN11 v) := by
  simp [Statement, encode, tokenWidth, runBits]

theorem runN12 (v : BitVec 13) : Statement (.runN12 v) := by
  simp [Statement, encode, tokenWidth, runBits]

theorem runN13 (v : BitVec 14) : Statement (.runN13 v) := by
  simp [Statement, encode, tokenWidth, runBits]

theorem runN14 (v : BitVec 15) : Statement (.runN14 v) := by
  simp [Statement, encode, tokenWidth, runBits]

theorem runOverlong : Statement .runOverlong := by
  simp [Statement, encode, tokenWidth]

theorem passSetup : Statement .passSetup := rfl

theorem rleWrite : Statement .rleWrite := rfl

theorem unpack : Statement .unpack := rfl

theorem interleave : Statement .interleave := rfl

theorem start (d : Byte) : Statement (.start d) := by
  simp [Statement, encode, tokenWidth, hostWriteBits]

theorem ctrlWr (d : Byte) : Statement (.ctrlWr d) := by
  simp [Statement, encode, tokenWidth, hostWriteBits]

theorem clrSt (d : Byte) : Statement (.clrSt d) := by
  simp [Statement, encode, tokenWidth, hostWriteBits]

theorem srcWr0 (d : Byte) : Statement (.srcWr0 d) := by
  simp [Statement, encode, tokenWidth, hostWriteBits]

theorem srcWr1 (d : Byte) : Statement (.srcWr1 d) := by
  simp [Statement, encode, tokenWidth, hostWriteBits]

theorem srcWr2 (d : Byte) : Statement (.srcWr2 d) := by
  simp [Statement, encode, tokenWidth, hostWriteBits]

theorem rd (a : HostAddr) : Statement (.rd a) := by
  simp [Statement, encode, tokenWidth]

end Sys2Proof.Laws.EncodedLength
end

