-- ==== Sys2Proof/Laws/Reconstruct.lean ====
section
/-! SUPPORT. What the reconstruction does to the memories: the canonical form is kept, addresses outside the planes are left
alone, OUT holds the two planes after the interleave. -/

namespace Sys2Proof.Machine

/-! ### Nibble reversal -/

theorem nibrev_nibrev : ∀ x : Byte, nibrev (nibrev x) = x := by decide +kernel

/-- Bit `i` of `nibrev x` is the bit mirrored inside its nibble (R75). -/
theorem nibrev_getLsbD : ∀ x : Byte, ∀ i : Fin 8,
    (nibrev x).getLsbD i = x.getLsbD (if i.val < 4 then 3 - i.val else 11 - i.val) := by decide +kernel

theorem nibrev_xor (x y : Byte) : nibrev (x ^^^ y) = nibrev x ^^^ nibrev y := by
  apply BitVec.eq_of_getLsbD_eq
  intro i hi
  have hx := nibrev_getLsbD (x ^^^ y) ⟨i, hi⟩
  simp only [nibrev_getLsbD x ⟨i, hi⟩, nibrev_getLsbD y ⟨i, hi⟩, hx, BitVec.getLsbD_xor]

/-! ### The delta decode -/

/-- Two memories that differ only inside `[b, b + n)` and have the same fill. -/
def SameOutside (b n : Nat) (m m' : Memory) : Prop :=
  m'.fill = m.fill ∧ ∀ a, a < b ∨ b + n ≤ a → m'.read a = m.read a

theorem SameOutside.refl (b n : Nat) (m : Memory) : SameOutside b n m m := ⟨rfl, fun _ _ => rfl⟩

theorem SameOutside.trans {b n : Nat} {m m' m'' : Memory} (h : SameOutside b n m m') (k : SameOutside b n m' m'') :
    SameOutside b n m m'' := ⟨k.1.trans h.1, fun a ha => (k.2 a ha).trans (h.2 a ha)⟩

theorem SameOutside.write {b n : Nat} (m : Memory) (a : Nat) (v : Byte) (h1 : b ≤ a) (h2 : a < b + n) :
    SameOutside b n m (m.write a v) :=
  ⟨Memory.write_fill m a v, fun c hc => Memory.read_write_other m a c v (by omega)⟩

/-- A column index and a row index inside the sprite name a byte inside its 8·w·h bytes. -/
theorem column_byte_lt {w h c r : Nat} (hc : c < w) (hr : r < 8 * h) : c * (8 * h) + r < 8 * w * h := by
  have h1 : (c + 1) * (8 * h) ≤ w * (8 * h) := Nat.mul_le_mul_right _ hc
  have h2 : w * (8 * h) = 8 * w * h := by ring
  rw [Nat.succ_mul] at h1
  omega

theorem deltaCols_keeps (P : Memory → Prop) (b n r : Nat) (f : Bool) (cs : List Nat) (run : Bool) (m : Memory)
    (hP : ∀ m v c, c ∈ cs → P m → P (m.write (b + c * n + r) v)) (hm : P m) :
    P (deltaCols b n r f cs run m) := by
  induction cs generalizing run m with
  | nil => exact hm
  | cons c cs ih =>
    exact ih _ _ (fun m v c hc => hP m v c (List.mem_cons_of_mem _ hc)) (hP m _ c List.mem_cons_self hm)

/-- What every write inside the sprite's bytes keeps, the delta decode keeps. -/
theorem deltaDecode_keeps (P : Memory → Prop) (b w h : Nat) (f : Bool) (m : Memory)
    (hP : ∀ m v a, b ≤ a → a < b + 8 * w * h → P m → P (m.write a v)) (hm : P m) : P (deltaDecode b w h f m) := by
  refine foldl_keeps P _ _ m (fun m r hr hm => ?_) hm
  refine deltaCols_keeps P b (8 * h) r f _ false m (fun m v c hc hm => ?_) hm
  have := column_byte_lt (List.mem_range.mp hc) (List.mem_range.mp hr)
  exact hP m v _ (by omega) (by omega) hm

theorem deltaDecode_outside (b w h : Nat) (f : Bool) (m : Memory) :
    SameOutside b (8 * w * h) m (deltaDecode b w h f m) :=
  deltaDecode_keeps (SameOutside b (8 * w * h) m) b w h f m
    (fun m v a h1 h2 hm => hm.trans (SameOutside.write m a v h1 h2)) (SameOutside.refl _ _ m)

theorem deltaDecode_wf (b w h : Nat) (f : Bool) (m : Memory) (hm : m.wf = true) : (deltaDecode b w h f m).wf = true :=
  deltaDecode_keeps (fun m => m.wf = true) b w h f m (fun m v a _ _ hm => m.wf_write a v hm) hm

theorem deltaDecode_below (b w h n : Nat) (f : Bool) (m : Memory) (hn : b + 8 * w * h ≤ n) (hm : m.below n = true) :
    (deltaDecode b w h f m).below n = true :=
  deltaDecode_keeps (fun m => m.below n = true) b w h f m
    (fun m v a _ h2 hm => m.below_write a n v (by omega) hm) hm

/-! ### The merge -/

/-- One byte of the merge: the second plane's byte becomes its (reordered) self XOR the first plane's byte (R79). -/
theorem mergeByte_read (pp sp : Nat) (f : Bool) (m : Memory) (j a : Nat) (hne : sp + j ≠ pp + j) :
    (mergeByte pp sp f m j).read a =
      if a = sp + j then flipIf f (m.read (sp + j)) ^^^ m.read (pp + j) else m.read a := by
  have hpp : pp + j ≠ sp + j := Ne.symm hne
  cases f
  · by_cases ha : a = sp + j
    · simp [mergeByte, flipIf, ha]
    · simp [mergeByte, ha, Memory.read_write_other _ _ _ _ (Ne.symm ha)]
  · by_cases ha : a = sp + j
    · simp [mergeByte, flipIf, ha, Memory.read_write_other _ _ _ _ hne]
    · simp [mergeByte, ha, Memory.read_write_other _ _ _ _ (Ne.symm ha)]

theorem mergePlanes_keeps (P : Memory → Prop) (pp sp w h : Nat) (f : Bool) (m : Memory)
    (hP : ∀ m v j, j < 8 * w * h → P m → P (m.write (sp + j) v)) (hm : P m) : P (mergePlanes pp sp w h f m) := by
  refine foldl_keeps P _ _ m (fun m j hj hm => ?_) hm
  have hj := List.mem_range.mp hj
  cases f
  · exact hP _ _ j hj hm
  · exact hP _ _ j hj (hP _ _ j hj hm)

theorem mergePlanes_wf (pp sp w h : Nat) (f : Bool) (m : Memory) (hm : m.wf = true) :
    (mergePlanes pp sp w h f m).wf = true :=
  mergePlanes_keeps (fun m => m.wf = true) pp sp w h f m (fun m v _ _ hm => m.wf_write _ v hm) hm

theorem mergePlanes_below (pp sp w h n : Nat) (f : Bool) (m : Memory) (hn : sp + 8 * w * h ≤ n)
    (hm : m.below n = true) : (mergePlanes pp sp w h f m).below n = true :=
  mergePlanes_keeps (fun m => m.below n = true) pp sp w h f m
    (fun m v _ _ hm => m.below_write _ n v (by omega) hm) hm

theorem mergePlanes_outside (pp sp w h : Nat) (f : Bool) (m : Memory) :
    SameOutside sp (8 * w * h) m (mergePlanes pp sp w h f m) :=
  mergePlanes_keeps (SameOutside sp (8 * w * h) m) pp sp w h f m
    (fun m v j hj hm => hm.trans (SameOutside.write m _ v (by omega) (by omega))) (SameOutside.refl _ _ m)

/-! ### The interleave -/

/-- Below the bytes still to come, OUT is what it was; the bytes of index `i < n` come from the planes (R85). -/
theorem interleaveFrom_read (wm : Memory) (n : Nat) (out : Memory) (a : Nat) :
    (interleaveFrom wm n out).read a =
      if a < 2 * n then (if a % 2 = 0 then wm.read (a / 2) else wm.read (0x188 + a / 2)) else out.read a := by
  induction n generalizing out with
  | zero => simp [interleaveFrom]
  | succ n ih =>
    rw [interleaveFrom, ih]
    by_cases h1 : a < 2 * n
    · simp [h1, Nat.lt_of_lt_of_le h1 (show 2 * n ≤ 2 * (n + 1) by omega)]
    · by_cases h2 : a = 2 * n
      · subst h2; simp
      · by_cases h3 : a = 2 * n + 1
        · subst h3
          have hd : (2 * n + 1) / 2 = n := by omega
          simp [Memory.read_write, hd, show 2 * n + 1 < 2 * (n + 1) by omega]
        · have h4 : ¬ a < 2 * (n + 1) := by omega
          simp [h1, h4, Memory.read_write, Ne.symm h2, Ne.symm h3]

theorem interleaveFrom_keeps (P : Memory → Prop) (wm : Memory) (n : Nat) (out : Memory)
    (hP : ∀ m v a, a < 2 * n → P m → P (m.write a v)) (ho : P out) : P (interleaveFrom wm n out) := by
  induction n generalizing out with
  | zero => exact ho
  | succ n ih =>
    refine ih _ (fun m v a ha => hP m v a (by omega)) ?_
    exact hP _ _ _ (by omega) (hP _ _ _ (by omega) ho)

theorem interleavePlanes_wf (wm : Memory) : (interleavePlanes wm).wf = true :=
  interleaveFrom_keeps (fun m => m.wf = true) wm _ _ (fun m v a _ hm => m.wf_write a v hm) Memory.zero_wf

theorem interleavePlanes_below (wm : Memory) : (interleavePlanes wm).below Config.outSize = true :=
  interleaveFrom_keeps (fun m => m.below Config.outSize = true) wm _ _
    (fun m v a ha hm => m.below_write a _ v (by simpa [Config.planeSize, Config.outSize] using ha) hm) (by decide)

end Sys2Proof.Machine
end

