-- ==== Sys2Proof/Laws/Step.lean ====
section
/-! SUPPORT. What a step can do, said once: which token a phase reads, how an engine step and an input end. -/

namespace Sys2Proof.Machine

/-! ### The token readers over the machine's bit reader -/

theorem orientFrom_moved {s t : State} {i : Instr} (h : orientFrom readBit s = .ok (i, t)) :
    CursorMoved s t ∧ contextOf i = .orient := by
  unfold orientFrom at h
  split at h
  · cases h
  · obtain ⟨rfl, rfl⟩ := Prod.mk.inj (Except.ok.inj h)
    exact ⟨readBit_moved ‹_›, rfl⟩

theorem modeFrom_moved {s t : State} {i : Instr} (h : modeFrom readBit s = .ok (i, t)) :
    CursorMoved s t ∧ contextOf i = .mode := by
  unfold modeFrom at h
  split at h
  · cases h
  · obtain ⟨rfl, rfl⟩ := Prod.mk.inj (Except.ok.inj h)
    exact ⟨readBit_moved ‹_›, rfl⟩
  · rename_i hb
    split at h
    · cases h
    · rename_i m _ hm
      obtain ⟨rfl, rfl⟩ := Prod.mk.inj (Except.ok.inj h)
      exact ⟨(readBit_moved hb).trans (readBit_moved hm), by cases m <;> rfl⟩

theorem kindFrom_moved {s t : State} {i : Instr} (h : kindFrom readBit s = .ok (i, t)) :
    CursorMoved s t ∧ contextOf i = .kind := by
  unfold kindFrom at h
  split at h
  · cases h
  · rename_i k _ hk
    obtain ⟨rfl, rfl⟩ := Prod.mk.inj (Except.ok.inj h)
    exact ⟨readBit_moved hk, by cases k <;> rfl⟩

theorem pairOfCode_context (c : Nat) : contextOf (pairOfCode c) = .data := by
  unfold pairOfCode; split <;> rfl

theorem pairFrom_moved {s t : State} {i : Instr} (h : pairFrom readBit s = .ok (i, t)) :
    CursorMoved s t ∧ contextOf i = .data := by
  unfold pairFrom at h
  split at h
  · cases h
  · rename_i hc
    obtain ⟨rfl, rfl⟩ := Prod.mk.inj (Except.ok.inj h)
    exact ⟨readBits_moved hc, pairOfCode_context _⟩

theorem runToken_context {n v : Nat} {i : Instr} (h : runToken n v = some i) : contextOf i = .run := by
  unfold runToken at h
  split at h <;> first | cases h; rfl | cases h

theorem runValueFrom_moved {n : Nat} {s t : State} {i : Instr} (h : runValueFrom readBit n s = .ok (some i, t)) :
    CursorMoved s t ∧ contextOf i = .run := by
  unfold runValueFrom at h
  split at h
  · cases h
  · rename_i hv
    obtain ⟨hi, rfl⟩ := Prod.mk.inj (Except.ok.inj h)
    exact ⟨readBits_moved hv, runToken_context hi⟩

/-! ### The engine's read -/

theorem ofToken_token {r : Except State (Instr × State)} {i : Instr} {t : State} (h : ofToken r = .token i t) :
    r = .ok (i, t) := by
  unfold ofToken at h
  split at h
  · cases h
  · cases h; rfl

/-- A complete token: the cursor moved past it, nothing else changed, and it is one the phase reads (R50). -/
theorem fetch_token {s t : State} {i : Instr} (h : fetch s = .token i t) :
    CursorMoved s t ∧ phaseContext s.phase = some (contextOf i) := by
  unfold fetch at h
  split at h <;> rename_i hp <;> rw [hp]
  case h_2 =>
    unfold fetchHeader at h
    split at h
    · cases h
    · cases h
      exact ⟨romFetch_moved ‹_›, rfl⟩
  case h_3 =>
    obtain ⟨hm, hc⟩ := orientFrom_moved (ofToken_token h)
    exact ⟨hm, by rw [hc]; rfl⟩
  case h_5 =>
    obtain ⟨hm, hc⟩ := modeFrom_moved (ofToken_token h)
    exact ⟨hm, by rw [hc]; rfl⟩
  case h_6 =>
    obtain ⟨hm, hc⟩ := kindFrom_moved (ofToken_token h)
    exact ⟨hm, by rw [hc]; rfl⟩
  case h_7 =>
    obtain ⟨hm, hc⟩ := pairFrom_moved (ofToken_token h)
    exact ⟨hm, by rw [hc]; rfl⟩
  case h_8 =>
    unfold fetchRunBit at h
    split at h
    · cases h
    · rename_i hb
      split at h
      · cases h
        exact ⟨readBit_moved hb, rfl⟩
      · cases h
      · cases h
  case h_9 =>
    unfold fetchRunValue at h
    split at h
    · cases h
    · cases h
      obtain ⟨hm, hc⟩ := runValueFrom_moved ‹_›
      exact ⟨hm, by rw [hc]; rfl⟩
    · cases h
  all_goals cases h
  all_goals exact ⟨CursorMoved.refl s, rfl⟩

/-- One bit of a run's unary part (R66): a 1-bit is counted, a 0-bit leads to the value. -/
theorem fetch_more {s t : State} (h : fetch s = .more t) :
    s.phase = .rlePrefix ∧ ∃ b u, readBit s = .ok (b, u) ∧ CursorMoved s u ∧
      ((b = true ∧ s.rlen.toNat ≠ Config.rleMaxPrefix ∧ t = { u with rlen := u.rlen + 1 }) ∨
       (b = false ∧ t = u.setPhase .rleValue)) := by
  unfold fetch at h
  split at h <;> rename_i hp
  case h_8 =>
    refine ⟨hp, ?_⟩
    unfold fetchRunBit at h
    split at h
    · cases h
    · rename_i b u hb
      refine ⟨b, u, hb, readBit_moved hb, ?_⟩
      cases b
      · simp only [runBit] at h
        exact .inr ⟨rfl, by simpa using h.symm⟩
      · by_cases hr : s.rlen.toNat = Config.rleMaxPrefix
        · simp [runBit, hr] at h
        · simp only [runBit, if_true, hr, if_false] at h
          exact .inl ⟨rfl, hr, by simpa using h.symm⟩
  case h_2 => unfold fetchHeader at h; split at h <;> cases h
  case h_9 => unfold fetchRunValue at h; split at h <;> cases h
  all_goals first | cases h | (unfold ofToken at h; split at h <;> cases h)

/-! ### The engine step -/

/-- How an engine step that answers a next state ends. -/
theorem engineStep_next {s t : State} (h : engineStep s = .next t) :
    (∃ i u, fetch s = .token i u ∧ CursorMoved s u ∧ phaseContext s.phase = some (contextOf i) ∧ exec i u = .next t) ∨
    fetch s = .more t ∨
    (∃ u, fetch s = .romOutOfRange u ∧ t = raise .romOob u.inPtr u) ∨
    (fetch s = .quiescent ∧ t = s) := by
  unfold engineStep at h
  split at h
  · rename_i i u hf
    obtain ⟨hm, hc⟩ := fetch_token hf
    exact .inl ⟨i, u, hf, hm, hc, h⟩
  · cases h; exact .inr (.inl ‹_›)
  · cases h; exact .inr (.inr (.inl ⟨_, ‹_›, rfl⟩))
  · cases h; exact .inr (.inr (.inr ⟨‹_›, rfl⟩))
  · cases h

theorem fetch_quiescent_iff (s : State) : fetch s = .quiescent ↔ phaseBusy s.phase = false := by
  unfold fetch
  cases s.phase
  case header => simp only [fetchHeader, phaseBusy]; split <;> simp
  case rlePrefix => simp only [fetchRunBit, phaseBusy]; split <;> (try split) <;> simp
  case rleValue => simp only [fetchRunValue, phaseBusy]; split <;> simp
  all_goals simp only [ofToken, phaseBusy]
  all_goals (try split)
  all_goals simp

/-! ### Inputs -/

theorem dueInput_some {s s1 : State} {e : Event} (h : dueInput s = some (e, s1)) :
    ∃ p rest, s.inputs = p :: rest ∧ (p.delay = 0 ∨ phaseBusy s.phase = false) ∧ e = p.event ∧
      s1 = { s with inputs := rest } := by
  unfold dueInput at h
  split at h
  · cases h
  · rename_i p rest hi
    split at h
    · rename_i hd
      obtain ⟨rfl, rfl⟩ := Prod.mk.inj (Option.some.inj h)
      exact ⟨p, rest, hi, by simpa using hd, rfl, rfl⟩
    · cases h

theorem dueInput_none {s : State} (h : dueInput s = none) :
    s.inputs = [] ∨ ∃ p rest, s.inputs = p :: rest ∧ p.delay ≠ 0 ∧ phaseBusy s.phase = true := by
  unfold dueInput at h
  split at h
  · exact .inl ‹_›
  · rename_i p rest hi
    split at h
    · cases h
    · rename_i hd
      exact .inr ⟨p, rest, hi, by simpa using hd⟩

/-- While RST is low a host write has its effect (R106). -/
theorem hostWrites_released {s : State} (h : s.rst = false) (t : State) : hostWrites s t = t := by
  simp [hostWrites, h]

/-- While RST is asserted a host write has none (R106). -/
theorem hostWrites_held {s : State} (h : s.rst = true) (t : State) : hostWrites s t = s := by
  simp [hostWrites, h]

/-- RST asserted or released puts the reset values in place; low on low changes nothing (R106). -/
theorem driveRst_cases (level : Bool) (s : State) :
    ((level = true ∨ s.rst = true) ∧ driveRst level s = applyReset level s) ∨
    (level = false ∧ s.rst = false ∧ driveRst level s = s) := by
  unfold driveRst
  cases level <;> cases s.rst <;> simp

/-- The reset values hold once RST is asserted (R106). -/
theorem applyReset_held (s : State) : ResetInv (applyReset true s) := fun _ => rfl

/-- A step is an input or an engine step. -/
theorem step_next {s t : State} (h : step s = .next t) :
    (∃ e u, dueInput s = some (e, u) ∧ inputStep e u = .next t) ∨
    (dueInput s = none ∧ engineStep (tickInputs s) = .next t) := by
  unfold step at h
  split at h
  · exact .inl ⟨_, _, ‹_›, h⟩
  · exact .inr ⟨‹_›, h⟩

theorem tickInputs_of_nil (s : State) (h : s.inputs = []) : tickInputs s = s := by
  obtain ⟨⟩ := s
  cases h
  rfl

/-- Without pending inputs a step is an engine step. -/
theorem step_of_no_input (s : State) (h : s.inputs = []) : step s = engineStep s := by
  have hd : dueInput s = none := by unfold dueInput; rw [h]
  unfold step
  rw [hd]
  simp only [tickInputs_of_nil s h]

end Sys2Proof.Machine
end

