-- ==== Sys2Proof/Tests/Slice0.lean ====
section
/-! SUPPORT. Words written out from the spec's encodings, ill-formed terms, single-step vectors of 95_test_vectors.md, and for every
statement with hypotheses a concrete state and operands that meet them. Expected results come from the spec's vectors
(named V<n>, E<n>) or rules, never from the model. -/

namespace Sys2Proof.Tests

open Sys2Proof Sys2Proof.Machine

set_option Elab.async false

/-! ### Helpers -/

/-- The outcome is a next state with the property. -/
def onNext (o : Host.Outcome State Fault Refusal) (p : State → Bool) : Bool :=
  match o with
  | .next t => p t
  | .fault _ => false
  | .refused _ => false

/-- A ROM image. -/
def image (bytes : List Nat) : Memory := writeBytes Memory.zero 0 (bytes.map (BitVec.ofNat 8))

/-- A 1×1 sprite in phase `p`, at the start of its first or second pass, two ROM bytes still unread. -/
def sample (p : Phase) (fpd : Bool) : State :=
  { State.reset with
    phase := p
    busy := phaseBusy p
    fpd := fpd
    orient := fpd
    hdr := 0x11
    wm := Memory.zero
    rom := image [0x11, 0x3C, 0x13, 0xC1]
    cfg := { romSize := 4, mode0Flip := false }
    inPtr := 2
    pptr := planeBase fpd
    sptr := planeBase fpd
    rlecnt := 1 }

/-- `sample` with the given bits as the next ones to read (at most 8). -/
def withBits (s : State) (bits : List Bool) : State :=
  { s with
    inByte := BitVec.ofNat 8 (natOfBits ((bits ++ List.replicate 8 false).take 8))
    inCnt := BitVec.ofNat 4 bits.length }

/-- The first `n` bytes of WM from `a` on all read `v`. -/
def wmIs (s : State) (a n : Nat) (v : Byte) : Bool := (List.range n).all fun i => s.wm.read (a + i) == v

/-- Eight bytes `v` at the start of a plane. -/
def eight (b : Nat) (v : Byte) (m : Memory) : Memory := writeBytes m b (List.replicate 8 v)

/-! ### Ill-formed terms -/

theorem test_illformed_start : WellFormed (.start 0x02) = false := by decide
theorem test_illformed_ctrlWr : WellFormed (.ctrlWr 0x03) = false := by decide
theorem test_wellformed_start : WellFormed (.start 0x03) = true := by decide

/-! ### Words written out from the encodings (R46, R47, R55; V25 to V28) -/

theorem test_decode_hdr : decode .header (bitsOfBytes [0x23]) = .ok (.hdr 2 3, []) := by decide
theorem test_decode_orient : decode .orient [true, false] = .ok (.orient true, [false]) := by decide
theorem test_decode_modes :
    decode .mode [false, true] = .ok (.mode0, [true]) ∧ decode .mode [true, false] = .ok (.mode1, []) ∧
    decode .mode [true, true] = .ok (.mode2, []) := by decide
theorem test_decode_kinds :
    decode .kind [false] = .ok (.kindRle, []) ∧ decode .kind [true] = .ok (.kindData, []) := by decide
theorem test_decode_pairs :
    decode .data [false, false] = .ok (.endData, []) ∧ decode .data [false, true] = .ok (.pair1, []) ∧
    decode .data [true, false] = .ok (.pair2, []) ∧ decode .data [true, true] = .ok (.pair3, []) := by decide
theorem test_decode_runs_short :
    decode .run [false, true] = .ok (.runN0 1, []) ∧ decode .run [true, false, true, true] = .ok (.runN1 3, []) ∧
    decode .run [true, true, false, false, false, true] = .ok (.runN2 1, []) ∧
    decode .run (bitsOfNat 8 0b11101001) = .ok (.runN3 9, []) ∧
    decode .run (bitsOfNat 10 0b1111000001) = .ok (.runN4 1, []) := by decide
theorem test_decode_runs_middle :
    decode .run (bitsOfNat 12 0b111110000001) = .ok (.runN5 1, []) ∧
    decode .run (bitsOfNat 14 0b11111101000000) = .ok (.runN6 64, []) ∧
    decode .run (bitsOfNat 16 0b1111111010000001) = .ok (.runN7 0x81, []) ∧
    decode .run (bitsOfNat 18 0b111111110100000010) = .ok (.runN8 258, []) ∧
    decode .run (bitsOfNat 20 0b11111111101000100001) = .ok (.runN9 545, []) := by decide
theorem test_decode_runs_long :
    decode .run (bitsOfNat 22 0b1111111111010000000001) = .ok (.runN10 1025, []) ∧
    decode .run (bitsOfNat 24 0b111111111110100000000011) = .ok (.runN11 2051, []) ∧
    decode .run (bitsOfNat 26 0b11111111111101000000000101) = .ok (.runN12 4101, []) ∧
    decode .run (bitsOfNat 28 0b1111111111111010000000000001) = .ok (.runN13 8193, []) ∧
    decode .run (bitsOfNat 30 0b111111111111110111111111111111) = .ok (.runN14 32767, []) := by decide
theorem test_decode_overlong : decode .run (List.replicate 15 true ++ [false]) = .ok (.runOverlong, [false]) := by decide
theorem test_decode_implicit :
    decode .passSetup [true] = .ok (.passSetup, [true]) ∧ decode .rleWrite [] = .ok (.rleWrite, []) ∧
    decode .unpack [] = .ok (.unpack, []) ∧ decode .interleave [] = .ok (.interleave, []) := by decide
theorem test_decode_host :
    decode .hostWrite (bitsOfNat 20 0x00003) = .ok (.start 3, []) ∧
    decode .hostWrite (bitsOfNat 20 0x00006) = .ok (.ctrlWr 6, []) ∧
    decode .hostWrite (bitsOfNat 20 0x00106) = .ok (.clrSt 6, []) ∧
    decode .hostWrite (bitsOfNat 20 0x00434) = .ok (.srcWr0 0x34, []) ∧
    decode .hostWrite (bitsOfNat 20 0x00512) = .ok (.srcWr1 0x12, []) ∧
    decode .hostWrite (bitsOfNat 20 0x006FF) = .ok (.srcWr2 0xFF, []) ∧
    decode .hostRead (bitsOfNat 12 0x80F) = .ok (.rd 0x80F, []) := by decide
/-- V60: a write to a reserved address is no command. -/
theorem test_decode_refusals :
    decode .hostWrite (bitsOfNat 20 0x003FF) = .error .ignoredWrite ∧ decode .data [true] = .error .truncated := by decide
theorem test_table_words :
    decodeTableWord 8 0xE9 = some (.runN3 9) ∧ decodeTableWord 16 0xFE80 = some (.runN7 0x80) ∧
    decodeTableWord 24 0xFFE001 = some (.runN11 1) ∧ decodeTableWord 24 0x00001 = some (.start 1) ∧
    decodeTableWord 24 0x00000 = some (.ctrlWr 0) ∧ decodeTableWord 24 0x00602 = some (.srcWr2 2) ∧
    decodeTableWord 8 0x77 = some (.hdr 7 7) ∧ decodeTableWord 16 0x400 = some (.rd 0x400) := by decide

/-! ### A placed word is what the first step after reset runs -/

theorem test_fetchWord_run : onNext (step (State.reset.withFetchWord 8 0xE9))
    (fun t => t.rlen == 3 && t.rlecnt == 24 && t.phase == .rleWrite) = true := by decide +kernel
theorem test_fetchWord_longRun : onNext (step (State.reset.withFetchWord 24 0xFFE000))
    (fun t => t.rlen == 11 && t.rlecnt == 4095) = true := by decide +kernel
theorem test_fetchWord_start : onNext (step (State.reset.withFetchWord 24 0x00003))
    (fun t => t.phase == .header && t.flipL) = true := by decide +kernel
theorem test_fetchWord_hdr : onNext (step (State.reset.withFetchWord 8 0x23))
    (fun t => t.phase == .orient && t.hdr == 0x23) = true := by decide +kernel

/-! ### Bit reader (V1, V3, V4) -/

theorem test_readBit_refill :
    (match readBit { sample .data false with inPtr := 1 } with
      | .ok (b, t) => !b && t.inPtr == 2 && t.inByte == 0x78 && t.inCnt == 7
      | .error _ => false) = true := by decide +kernel
theorem test_readBits_across_bytes :
    (match readBitsFrom readBit 2 0 { withBits (sample .data false) [true] with rom := image [0, 0, 0x40] } with
      | .ok (v, t) => v == 2 && t.inPtr == 3 && t.inCnt == 7 && t.inByte == 0x80
      | .error _ => false) = true := by decide +kernel

/-! ### Header, orientation, mode, kind (V8, V10, V13, V15, V17, V19, E2) -/

theorem test_hdr_legal : onNext (step { sample .header false with inPtr := 0, rom := image [0x23] })
    (fun t => t.hdr == 0x23 && t.phase == .orient && t.inPtr == 1) = true := by decide +kernel
theorem test_hdr_illegal : onNext (step { sample .header false with inPtr := 2, rom := image [0, 0, 0x08], src := 2 })
    (fun t => t.hdr == 0x08 && t.errCode == .dim && t.faultAddr == 2 && t.phase == .error && statusByte t == 0x04) = true := by
  decide +kernel
theorem test_orient_one : onNext (step (withBits (sample .orient false) [true]))
    (fun t => t.orient && t.orient0 && t.phase == .passSetup) = true := by decide +kernel
theorem test_passSetup_second_plane : onNext (step (sample .passSetup true))
    (fun t => t.pptr == 0x188 && t.sptr == 0x188 && t.phase == .mode) = true := by decide +kernel
theorem test_passSetup_first_pass : onNext (step (sample .passSetup false))
    (fun t => t.pptr == 0 && t.phase == .kind) = true := by decide +kernel
theorem test_mode_zero_one_bit : onNext (step (withBits (sample .mode true) [false, true]))
    (fun t => t.mode == 0 && t.inCnt == 1 && t.phase == .kind) = true := by decide +kernel
theorem test_mode_one : onNext (step (withBits (sample .mode true) [true, false]))
    (fun t => t.mode == 1 && t.inCnt == 0) = true := by decide +kernel
theorem test_mode_two : onNext (step (withBits (sample .mode true) [true, true]))
    (fun t => t.mode == 2 && t.inCnt == 0) = true := by decide +kernel
theorem test_kind_data : onNext (step (withBits (sample .kind false) [true])) (fun t => t.phase == .data) = true := by
  decide +kernel
theorem test_kind_rle : onNext (step { withBits (sample .kind false) [false] with rlen := 5 })
    (fun t => t.phase == .rlePrefix && t.rlen == 0) = true := by decide +kernel

/-! ### Packets (V20 to V24, V26 to V31) -/

theorem test_pair3 : onNext (step (withBits (sample .data false) [true, true]))
    (fun t => t.wm.read 0 == 0xC0 && t.row == 1 && t.pptr == 1 && t.phase == .data) = true := by decide +kernel
/-- V20: 0xC0 at `ROT` 3, then 1 at `ROT` 2 gives 0xD0. -/
theorem test_pair1_same_byte :
    onNext (exec .pair1 { sample .data false with wm := Memory.zero.write 0 0xC0, rot := 2 })
      (fun t => t.wm.read 0 == 0xD0) = true := by decide +kernel
/-- V23. -/
theorem test_pair2_restart : onNext (step { withBits (sample .data false) [true, false] with row := 7, rot := 0, pptr := 7 })
    (fun t => t.wm.read 7 == 0x02 && t.row == 0 && t.rot == 3 && t.col == 0 && t.orient && t.fpd && t.phase == .passSetup) =
      true := by decide +kernel
theorem test_endData : onNext (step (withBits (sample .data false) [false, false]))
    (fun t => t.rlen == 0 && t.phase == .rlePrefix && t.wm.cells.isEmpty) = true := by decide +kernel
/-- V24. -/
theorem test_pair_cut_short : onNext (step { withBits (sample .data false) [true] with inPtr := 4 })
    (fun t => t.errCode == .romOob && t.faultAddr == 4 && t.inCnt == 0 && t.wm.cells.isEmpty && t.row == 0) = true := by
  decide +kernel
theorem test_run_unary_bit : onNext (step { withBits (sample .rlePrefix false) [true] with rlen := 2 })
    (fun t => t.rlen == 3 && t.phase == .rlePrefix) = true := by decide +kernel
/-- V26. -/
theorem test_run_value : onNext (step { withBits (sample .rleValue false) [true, false, false, true] with rlen := 3 })
    (fun t => t.rlecnt == 24 && t.phase == .rleWrite) = true := by decide +kernel
/-- V27. -/
theorem test_run_longest : onNext (exec (.runN14 32767) (sample .rleValue false))
    (fun t => t.rlen == 14 && t.rlecnt == 65534) = true := by decide +kernel
/-- V25, R48: the lower end of each other length. -/
theorem test_run_lower_ends :
    onNext (exec (.runN0 1) (sample .rleValue false)) (fun t => t.rlecnt == 2) ∧
    onNext (exec (.runN1 0) (sample .rleValue false)) (fun t => t.rlecnt == 3) ∧
    onNext (exec (.runN2 0) (sample .rleValue false)) (fun t => t.rlecnt == 7) ∧
    onNext (exec (.runN3 0) (sample .rleValue false)) (fun t => t.rlecnt == 15) ∧
    onNext (exec (.runN4 0) (sample .rleValue false)) (fun t => t.rlecnt == 31) ∧
    onNext (exec (.runN5 0) (sample .rleValue false)) (fun t => t.rlecnt == 63) ∧
    onNext (exec (.runN6 0) (sample .rleValue false)) (fun t => t.rlecnt == 127) ∧
    onNext (exec (.runN7 0) (sample .rleValue false)) (fun t => t.rlecnt == 255) ∧
    onNext (exec (.runN8 0) (sample .rleValue false)) (fun t => t.rlecnt == 511) ∧
    onNext (exec (.runN9 545) (sample .rleValue false)) (fun t => t.rlecnt == 1568) ∧
    onNext (exec (.runN10 0) (sample .rleValue false)) (fun t => t.rlecnt == 2047) ∧
    onNext (exec (.runN11 0) (sample .rleValue false)) (fun t => t.rlecnt == 4095) ∧
    onNext (exec (.runN12 0) (sample .rleValue false)) (fun t => t.rlecnt == 8191) ∧
    onNext (exec (.runN13 0) (sample .rleValue false)) (fun t => t.rlecnt == 16383) := by decide +kernel
/-- V28, E3: the 15th 1-bit is bit 7 of the byte at offset 3. -/
theorem test_overlong : onNext (step { sample .rlePrefix false with rom := image [0x11, 0x3F, 0xFF, 0xC0], inPtr := 3, rlen := 14 })
    (fun t => t.errCode == .rleLen && t.faultAddr == 3 && t.inPtr == 4 && t.inCnt == 7 && t.inByte == 0x80 && t.rlen == 14 &&
      phaseCode t.phase == 13) = true := by decide +kernel
/-- V31: the last cell of the first pass. -/
theorem test_rleWrite_restart : onNext (step { sample .rleWrite false with row := 7, rot := 0, pptr := 7 })
    (fun t => t.rlecnt == 0 && t.phase == .passSetup && t.orient && t.wm.cells.isEmpty) = true := by decide +kernel
/-- V29: the run's last cell inside the pass. -/
theorem test_rleWrite_to_data : onNext (step (sample .rleWrite false))
    (fun t => t.rlecnt == 0 && t.phase == .data && t.row == 1) = true := by decide +kernel

/-! ### Advance (section 2.8: k = 31 and k = 63) -/

theorem test_advance_next_column :
    let r := advance { sample .data false with hdr := 0x21, orient := true, row := 7, rot := 0, pptr := 0x18F, sptr := 0x188 }
    r.1 = .notYetReady ∧ r.2.row = 0 ∧ r.2.rot = 3 ∧ r.2.col = 8 ∧ r.2.pptr = 0x190 ∧ r.2.sptr = 0x190 := by decide +kernel
theorem test_advance_restart :
    let r := advance
      { sample .data false with hdr := 0x21, orient := true, row := 7, rot := 0, col := 8, pptr := 0x197, sptr := 0x190 }
    r.1 = .restart ∧ r.2.pptr = 0x197 ∧ r.2.sptr = 0x190 ∧ r.2.orient = false ∧ r.2.fpd = true := by decide +kernel

/-! ### Reconstruction (V34, V35, V38 to V44) -/

theorem test_delta_bytes :
    [0x80, 0x81, 0xC0, 0x55, 0xAA, 0x3C].map (fun x => (deltaByte (BitVec.ofNat 8 x) false).1) =
      [0xFF#8, 0xFE#8, 0x80#8, 0x66#8, 0xCC#8, 0x28#8] := by decide +kernel
/-- V38. -/
theorem test_delta_two_columns :
    let m := deltaDecode 0 2 1 false (writeBytes (writeBytes Memory.zero 0 [0x80, 0x40]) 8 [0xC0, 0x00])
    (m.read 0, m.read 8, m.read 1, m.read 9) = (0xFF#8, 0x7F#8, 0x7F#8, 0xFF#8) := by decide +kernel
/-- V40. -/
theorem test_unpack_mode1_flip :
    onNext (step { sample .unpack true with mode := 1, flipL := true, wm := eight 0 0xC0 (eight 0x188 0x40 Memory.zero) })
      (fun t => wmIs t 0 8 0x10 && wmIs t 0x188 8 0x30 && t.pptr == 0 && t.sptr == 0x188 && t.phase == .interleave) = true := by
  decide +kernel
/-- V41. -/
theorem test_unpack_mode2 :
    onNext (step { sample .unpack true with mode := 2, wm := eight 0 0x80 (eight 0x188 0x80 Memory.zero) })
      (fun t => wmIs t 0 8 0xFF && wmIs t 0x188 8 0x00 && t.pptr == 0 && t.sptr == 0x188) = true := by decide +kernel
/-- V43, both values of `MODE0_FLIP`. -/
theorem test_unpack_mode0_flip :
    [false, true].map (fun f => onNext
      (exec .unpack { sample .unpack true with flipL := true, cfg := { romSize := 4, mode0Flip := f }, wm := Memory.zero.write 0 0xB0 })
      (fun t => t.wm.read 0 == (if f then 0xBF#8 else 0xDF#8))) = [true, true] := by decide +kernel
/-- V44. -/
theorem test_interleave :
    onNext (step { sample .interleave true with wm := eight 0 0x80 (eight 0x188 0xC0 Memory.zero), ctrlIrqEn := true })
      (fun t => t.out.read 0 == 0x80 && t.out.read 1 == 0xC0 && t.out.read 14 == 0x80 && t.out.read 15 == 0xC0 &&
        t.out.read 16 == 0 && t.out.cells.length == 16 && statusByte t == 0x02 && irq t) = true := by decide +kernel

/-! ### Host port (V52 to V60) -/

theorem test_reset_reads :
    [0x000, 0x001, 0x002, 0x017, 0x014].map (fun a => portByte State.reset (BitVec.ofNat 12 a)) =
      [0x00#8, 0x00#8, 0x00#8, 0x00#8, 0x03#8] := by decide +kernel
/-- V53. -/
theorem test_srcWr0 : onNext (exec (.srcWr0 0x34) { State.reset with src := 0xABCDEF }) (fun t => t.src == 0xABCD34) = true := by
  decide +kernel
theorem test_srcWr1 : onNext (exec (.srcWr1 0x12) { State.reset with src := 0xABCDEF }) (fun t => t.src == 0xAB12EF) = true := by
  decide +kernel
theorem test_srcWr2 : onNext (exec (.srcWr2 0x00) { State.reset with src := 0xABCDEF }) (fun t => t.src == 0x00CDEF) = true := by
  decide +kernel
/-- R89's example. -/
theorem test_start : onNext (exec (.start 0x03) { sample .done true with done := true, src := 0x10 })
    (fun t => ctrlByte t == 0x02 && t.flipL && t.inPtr == 0x10 && statusByte t == 0x01 && phaseCode t.phase == 1 && t.rot == 3) =
      true := by decide +kernel
/-- V55. -/
theorem test_start_busy : onNext (exec (.start 0x07) (sample .data false))
    (fun t => ctrlByte t == 0x06 && !t.flipL && t.phase == .data) = true := by decide +kernel
/-- V59. -/
theorem test_ctrlWr_irq : onNext (exec (.ctrlWr 0x04) { sample .done true with done := true })
    (fun t => ctrlByte t == 0x04 && irq t && t.phase == .done) = true := by decide +kernel
/-- V58, R91's example. -/
theorem test_clrSt : onNext (exec (.clrSt 0x06) { sample .error false with err := true, errCode := .rleLen })
    (fun t => statusByte t == 0x00 && t.errCode == .rleLen && t.phase == .error) = true := by decide +kernel
/-- V57: only the flag whose bit is written is cleared. -/
theorem test_clrSt_other_bit : onNext (exec (.clrSt 0x04) { sample .done true with done := true })
    (fun t => statusByte t == 0x02) = true := by decide +kernel
theorem test_rd_window : onNext (exec (.rd 0x40A) { sample .done true with wm := Memory.zero.write 10 0x5A })
    (fun t => t.hrdata == 0x5A) = true := by decide +kernel
/-- V61: a busy read runs, whatever byte it gives. -/
theorem test_rd_busy : onNext (exec (.rd 0x400) (sample .data false)) (fun t => t.freeCtr == 3 && t.phase == .data) = true := by
  decide +kernel
/-- V60. -/
theorem test_ignored_write :
    step { State.reset with inputs := [{ delay := 0, event := .hostWrite 0x400 0xFF }] } = .next State.reset := rfl
/-- U19. -/
theorem test_rst_while_busy : onNext (step { sample .data false with inputs := [{ delay := 0, event := .rst true }] })
    (fun t => t.rst && t.phase == .idle && t.rot == 3 && t.hdr == 0 && !t.busy && t.inPtr == 0) = true := by decide +kernel
/-- R106: while RST is asserted a START and a SRC write leave the reset values. -/
theorem test_rst_held :
    onNext (step { State.reset with rst := true, inputs := [{ delay := 0, event := .hostWrite 0x000 0x07 }] })
      (fun t => t.phase == .idle && ctrlByte t == 0x00 && statusByte t == 0x00) ∧
    onNext (step { State.reset with rst := true, inputs := [{ delay := 0, event := .hostWrite 0x005 0xFF }] })
      (fun t => t.src == 0) := by decide +kernel
/-- R106: the release leaves them too, and the next START begins a decode. -/
theorem test_rst_released :
    onNext (step { State.reset with rst := true, inputs := [{ delay := 0, event := .rst false }] })
      (fun t => !t.rst && t.phase == .idle && onNext (exec (.start 0x01) t) (fun u => u.phase == .header)) := by decide +kernel
/-- U5: an input with a delay waits for engine steps. -/
theorem test_delayed_input :
    onNext (step { sample .passSetup false with inputs := [{ delay := 2, event := .hostWrite 0x000 0x02 }] })
      (fun t => t.phase == .kind && !t.ctrlFlip && t.inputs == [{ delay := 1, event := .hostWrite 0x000 0x02 }]) = true := by
  decide +kernel
/-- S4 to S6. -/
theorem test_translator : resolveAddr 5 0x1234 = 0x1234 ∧ relativizeAddr 0x2ABCD = (0x0A, 0x6BCD) ∧
    resolveAddr 0x0A 0x6BCD = 0x2ABCD ∧ readU16le (image [0x34, 0x12]) 0 = 0x1234 := by decide +kernel


/-! ### The sample states meet the invariants -/

theorem sample_wide (p : Phase) (fpd : Bool) : (sample p fpd).tilesWide = 1 := by simp [State.tilesWide, sample]
theorem sample_high (p : Phase) (fpd : Bool) : (sample p fpd).tilesHigh = 1 := by simp [State.tilesHigh, sample]
theorem image_sample :
    (image [0x11, 0x3C, 0x13, 0xC1]).wf = true ∧ (image [0x11, 0x3C, 0x13, 0xC1]).below 4 = true ∧
    (image [0x11, 0x3C, 0x13, 0xC1]).fill = .zero := by decide +kernel

theorem sample_memory (p : Phase) (fpd : Bool) : MemoryInv (sample p fpd) where
  wm_wf := rfl
  wm_size := rfl
  out_wf := rfl
  out_size := rfl
  rom_wf := image_sample.1
  rom_size := image_sample.2.1
  rom_fill := image_sample.2.2
  size_range := ⟨by show 1 ≤ 4; decide, by show 4 ≤ 0x800000; decide⟩

theorem sample_status (p : Phase) (fpd : Bool) (h : p ≠ .error) : StatusInv (sample p fpd) where
  busy_iff := rfl
  done_phase := fun hd => by cases hd
  err_phase := fun he => by cases he
  code_none := ⟨fun _ => h, fun _ => rfl⟩
  addr_zero := fun _ => rfl

theorem sample_geometry (p : Phase) (fpd : Bool) : PassGeometry (sample p fpd) where
  row_lt := by rw [sample_high]; show (0#8).toNat < 8 * 1; decide
  column := ⟨0, by rw [sample_wide]; decide, rfl, by simp [sample]⟩
  pptr_eq := rfl

theorem sample_pass (p : Phase) (fpd : Bool) (h1 : p = .header ∨ p = .orient → fpd = false)
    (h2 : p = .mode ∨ passesDone p = true → fpd = true) : PassInv (sample p fpd) where
  cnt_le := by show (0#4).toNat ≤ 8; decide
  mode_le := by show (0#2).toNat ≤ 2; decide
  rlen_le := by show (0#4).toNat ≤ 14; decide
  count_le := by show (1#16).toNat ≤ 65534; decide
  pptr_lt := by show (planeBase fpd).toNat < 0x310; cases fpd <;> decide
  sptr_lt := by show (planeBase fpd).toNat < 0x310; cases fpd <;> decide
  row_le := by show (0#8).toNat ≤ 55; decide
  col_le := ⟨0, by decide, rfl⟩
  count_pos := fun _ => by show 1 ≤ (1#16).toNat; decide
  dims := fun _ => by rw [sample_wide, sample_high]; decide
  geometry := fun _ => sample_geometry p fpd
  at_start := fun _ => ⟨rfl, rfl, rfl⟩
  first_pass := fun h => ⟨h1 h, rfl⟩
  second_pass := h2
  orient_eq := by cases fpd <;> rfl
  mode_unread := fun _ => rfl
  header_aligned := fun _ => rfl

theorem sample_planes (p : Phase) (fpd : Bool) : PlaneInv (sample p fpd) where
  wm_known := fun _ => rfl
  beyond_zero := fun _ _ _ _ => ⟨rfl, rfl⟩
  plane_zero := fun _ _ _ => rfl
  other_zero := fun _ _ _ _ => rfl
  ahead_zero := fun _ k _ _ => by simp [cellValue, sample]

/-- What the invariant says of the unary count, the run count and the cursor outside HEADER. -/
theorem pass_moved {s : State} (h : PassInv s) (hp : s.phase ≠ .header) (ptr : RomAddr) (y : Byte) (c n : BitVec 4)
    (k : BitVec 16) (hc : c.toNat ≤ 8) (hn : n.toNat ≤ 14) (hk : 1 ≤ k.toNat ∧ k.toNat ≤ 65534) :
    PassInv { s with inPtr := ptr, inByte := y, inCnt := c, rlen := n, rlecnt := k } :=
  { h with
    cnt_le := hc
    rlen_le := hn
    count_le := hk.2
    count_pos := fun _ => hk.1
    geometry := fun hg => ⟨(h.geometry hg).row_lt, (h.geometry hg).column, (h.geometry hg).pptr_eq⟩
    header_aligned := fun hh => absurd hh hp }

/-! ### States that meet the hypotheses of the statements -/

theorem hyps_DecodeOfEncodeIsTheInstruction : WellFormed (.start 0x03) = true ∧ WellFormed (.runN14 0x7FFF) = true := by decide
theorem hyps_DecodedBitsAreTheEncoding : decode .run [true, false, true, true, false] = .ok (.runN1 3, [false]) := by decide
/-- Both ends of the table. -/
theorem hyps_EveryRunLengthHasOneCode :
    (0 ≤ 14 ∧ 1 < 2 ^ (0 + 1)) ∧ (14 ≤ 14 ∧ 32767 < 2 ^ (14 + 1)) ∧ runCount 0 0 = 1 ∧ runCount 14 32767 = 65534 ∧
      (10 ≤ 10 ∧ 7 ≤ 7) := by decide

theorem hyps_RomFetch_past : let s := { sample .data false with inPtr := 4 }; s.cfg.romSize ≤ s.inPtr.toNat := by decide
theorem hyps_RomFetch_last :
    let s := { sample .data false with inPtr := 3 }
    s.inPtr.toNat < s.cfg.romSize ∧ ∀ c ∈ s.romStale, c.1 ≠ s.inPtr.toNat := by decide

/-- At the end of the ROM, and with the next bit still in `IN_BYTE` or not. -/
theorem hyps_ReadBit :
    let s := sample .data false
    (s.inCnt.toNat ≤ 8 ∧ s.cfg.romSize ≤ Config.romSizeMax ∧ s.romStale = []) ∧
    unreadBits { s with inPtr := 4 } = [] ∧
    unreadBits { s with inPtr := 3 } = true :: [true, false, false, false, false, false, true] ∧
    unreadBits { withBits s [true] with inPtr := 4 } = true :: [] := by decide +kernel
theorem hyps_ReadBits :
    let s := { sample .data false with inPtr := 3 }
    s.inCnt.toNat ≤ 8 ∧ s.cfg.romSize ≤ Config.romSizeMax ∧ s.romStale = [] ∧ 8 ≤ (unreadBits s).length ∧
      (unreadBits s).length < 9 := by decide +kernel

theorem hyps_EngineReads_token :
    let s := sample .data false
    MemoryInv s ∧ PassInv s ∧ s.romStale = [] ∧ phaseContext s.phase = some .data ∧ s.phase ≠ .rlePrefix ∧
      decode .data (tokenBits s) =
        .ok (.endData, [false, true, false, false, true, true] ++ [true, true, false, false, false, false, false, true]) :=
  ⟨sample_memory _ _, sample_pass _ _ (by decide) (by decide), rfl, rfl, by decide, by decide +kernel⟩
/-- One bit of a pair is left. -/
theorem hyps_EngineReads_truncated :
    let s : State := { sample .data false with inPtr := 4, inByte := 0x80, inCnt := 1, rlen := 0, rlecnt := 1 }
    MemoryInv s ∧ PassInv s ∧ s.romStale = [] ∧ phaseContext s.phase = some .data ∧ s.phase ≠ .rlePrefix ∧
      decode .data (tokenBits s) = .error .truncated :=
  ⟨{ sample_memory .data false with },
    pass_moved (sample_pass _ _ (by decide) (by decide)) (by decide) _ _ _ _ _ (by decide) (by decide) (by decide), rfl,
    rfl, by decide, by decide +kernel⟩
theorem hyps_EngineReads_run_ended :
    let s : State := { sample .rlePrefix false with inPtr := 4, inByte := 0, inCnt := 0, rlen := 3, rlecnt := 1 }
    MemoryInv s ∧ PassInv s ∧ s.romStale = [] ∧ phaseContext s.phase = some .run ∧ s.phase = .rlePrefix ∧ unreadBits s = [] :=
  ⟨{ sample_memory .rlePrefix false with },
    pass_moved (sample_pass _ _ (by decide) (by decide)) (by decide) _ _ _ _ _ (by decide) (by decide) (by decide),
    rfl, rfl, rfl, by decide +kernel⟩
/-- The 15th 1-bit. -/
theorem hyps_EngineReads_overlong :
    let s : State := { sample .rlePrefix false with inPtr := 4, inByte := 0x80, inCnt := 1, rlen := 14, rlecnt := 1 }
    MemoryInv s ∧ PassInv s ∧ s.romStale = [] ∧ phaseContext s.phase = some .run ∧ s.phase = .rlePrefix ∧
      unreadBits s = true :: [] ∧ s.rlen = 14 :=
  ⟨{ sample_memory .rlePrefix false with },
    pass_moved (sample_pass _ _ (by decide) (by decide)) (by decide) _ _ _ _ _ (by decide) (by decide) (by decide),
    rfl, rfl, rfl, by decide +kernel, rfl⟩
theorem hyps_EngineReads_run_bit :
    let s : State := { sample .rlePrefix false with inPtr := 4, inByte := 0, inCnt := 1, rlen := 14, rlecnt := 1 }
    MemoryInv s ∧ PassInv s ∧ s.romStale = [] ∧ phaseContext s.phase = some .run ∧ s.phase = .rlePrefix ∧
      unreadBits s = false :: [] ∧ ¬(false = true ∧ s.rlen = 14) :=
  ⟨{ sample_memory .rlePrefix false with },
    pass_moved (sample_pass _ _ (by decide) (by decide)) (by decide) _ _ _ _ _ (by decide) (by decide) (by decide),
    rfl, rfl, rfl, by decide +kernel, by decide⟩

/-- A pending input whose delay is not over, and each way a read can end. -/
theorem hyps_Step_engine :
    let s : State := { withBits (sample .data false) [true, true] with inputs := [{ delay := 1, event := .rst true }] }
    dueInput s = none ∧ (∃ t, fetch (tickInputs s) = .token .pair3 t) ∧
    dueInput { s with phase := .rlePrefix } = none ∧ (∃ t, fetch (tickInputs { s with phase := .rlePrefix }) = .more t) ∧
    dueInput { s with inCnt := 0, inPtr := 4 } = none ∧
      (∃ t, fetch (tickInputs { s with inCnt := 0, inPtr := 4 }) = .romOutOfRange t) :=
  ⟨rfl, ⟨_, rfl⟩, rfl, ⟨_, rfl⟩, rfl, ⟨_, rfl⟩⟩
theorem hyps_Step_input :
    let s := { sample .data false with inputs := [{ delay := 0, event := .hostWrite 0x000 0x03 }] }
    dueInput s = some (.hostWrite 0x000 0x03, { s with inputs := [] }) ∧ hostWriteInstr 0x000 0x03 = some (.start 0x03) ∧
    dueInput { s with inputs := [{ delay := 0, event := .hostRead 0x017 }] } = some (.hostRead 0x017, { s with inputs := [] }) ∧
    dueInput { s with inputs := [{ delay := 0, event := .hostWrite 0x002 0xFF }] } =
      some (.hostWrite 0x002 0xFF, { s with inputs := [] }) ∧ hostWriteInstr 0x002 0xFF = none ∧
    dueInput { s with inputs := [{ delay := 0, event := .romWrite 3 0x55 }] } = some (.romWrite 3 0x55, { s with inputs := [] }) ∧
    dueInput { s with inputs := [{ delay := 0, event := .rst true }] } = some (.rst true, { s with inputs := [] }) ∧
    (sample .data false).inputs = [] := ⟨rfl, by decide, rfl, rfl, by decide, rfl, rfl, rfl⟩

/-- The run of 24 zero cells, 1110 1001. -/
theorem hyps_RunTokenTakesOneStepPerBit :
    let s : State := { sample .rlePrefix false with inPtr := 4, inByte := 0xE9, inCnt := 8, rlen := 0, rlecnt := 1 }
    MemoryInv s ∧ PassInv s ∧ s.romStale = [] ∧ s.inputs = [] ∧ s.phase = .rlePrefix ∧ s.rlen = 0 ∧ 9 < 2 ^ (3 + 1) ∧
      runToken 3 9 = some (.runN3 9) ∧ unreadBits s = encode (.runN3 9) ++ [] :=
  ⟨{ sample_memory .rlePrefix false with },
    pass_moved (sample_pass _ _ (by decide) (by decide)) (by decide) _ _ _ _ _ (by decide) (by decide) (by decide),
    rfl, rfl, rfl, rfl, by decide, by decide, by decide +kernel⟩

/-- The smallest and the largest legal header, and illegal ones on both sides. -/
theorem hyps_HeaderIsLatchedThenChecked :
    let legal := fun w h : BitVec 4 => (1 ≤ w.toNat ∧ w.toNat ≤ 7) ∧ (1 ≤ h.toNat ∧ h.toNat ≤ 7)
    legal 1 1 ∧ legal 7 7 ∧ ¬legal 0 8 ∧ ¬legal 8 1 := by decide

theorem hyps_CellTransform : (3#8).toNat < 4 := by decide
/-- The first and the last index of WM. -/
theorem hyps_PairWrites :
    (Instr.pair3, 3#8) ∈ [(Instr.pair1, 1#8), (Instr.pair2, 2#8), (Instr.pair3, 3#8)] ∧
    (sample .data false).pptr.toNat < 0x310 ∧ { sample .data true with pptr := 0x30F }.pptr.toNat < 0x310 := by decide
theorem hyps_PairSetsItsCellExactly :
    (Instr.pair2, 2#8) ∈ [(Instr.pair1, 1#8), (Instr.pair2, 2#8), (Instr.pair3, 3#8)] ∧
    PassInv (sample .data true) ∧ PlaneInv (sample .data true) ∧ (sample .data true).phase = .data ∧
      ∃ t, exec .pair2 (sample .data true) = .next t :=
  ⟨by decide, sample_pass _ _ (by decide) (by decide), sample_planes _ _, rfl, _, rfl⟩

theorem hyps_RunTokens : contextOf (.runN5 1) = .run ∧ (Instr.runN5 1) ≠ .runOverlong := by decide
theorem hyps_RunStep : (sample .rleWrite false).pptr.toNat < 0x310 := by decide
/-- The sample's pass has 32 cells left: the counts where the two clauses meet, and the shortest and the longest run. -/
theorem hyps_RunWrites :
    let run := fun k : BitVec 16 =>
      { sample .rleWrite true with inPtr := 4, inByte := 0, inCnt := 0, rlen := 14, rlecnt := k }
    (∀ k : BitVec 16, 1 ≤ k.toNat ∧ k.toNat ≤ 65534 →
      PassInv (run k) ∧ (run k).phase = .rleWrite ∧ (run k).inputs = [] ∧ (run k).rlecnt = k) ∧
    (run 1).rlecnt.toNat < (run 1).passCells - (run 1).cellIndex ∧
    (run 31).rlecnt.toNat < (run 31).passCells - (run 31).cellIndex ∧
    (run 32).passCells - (run 32).cellIndex ≤ (run 32).rlecnt.toNat ∧
    (run 65534).passCells - (run 65534).cellIndex ≤ (run 65534).rlecnt.toNat :=
  ⟨fun k hk => ⟨pass_moved (sample_pass .rleWrite true (by decide) (by decide)) (by decide) 4 0 0 14 k (by decide) (by decide) hk,
      rfl, rfl, rfl⟩,
    by decide +kernel, by decide +kernel, by decide +kernel, by decide +kernel⟩

/-- The first and the last cell of a pass. -/
theorem hyps_AdvanceVisits :
    let s := sample .data true
    let t : State := { s with row := 7, rot := 0, pptr := 0x18F }
    (1 ≤ s.tilesWide ∧ s.tilesWide ≤ 7 ∧ 1 ≤ s.tilesHigh ∧ s.tilesHigh ≤ 7 ∧ PassGeometry s ∧ s.cellIndex + 1 < s.passCells) ∧
    (1 ≤ t.tilesWide ∧ t.tilesWide ≤ 7 ∧ 1 ≤ t.tilesHigh ∧ t.tilesHigh ≤ 7 ∧ PassGeometry t ∧ t.cellIndex + 1 = t.passCells) :=
  ⟨⟨by decide, by decide, by decide, by decide, sample_geometry _ _, by decide⟩,
    ⟨by decide, by decide, by decide, by decide, ⟨by decide, ⟨0, by decide, by decide, by decide⟩, by decide⟩, by decide⟩⟩
theorem hyps_CellWritesStayInTheirPlane : PassInv (sample .data true) ∧ inPass (sample .data true).phase = true :=
  ⟨sample_pass _ _ (by decide) (by decide), rfl⟩

theorem hyps_Nibrev : 3 ≤ 3 := by decide
theorem hyps_ResetPtrs :
    let s := sample .unpack true
    PassInv s ∧ s.phase = .unpack ∧ s.orient = !s.orient0 := ⟨sample_pass _ _ (by decide) (by decide), rfl, rfl⟩
theorem hyps_CLRST :
    let s := sample .data false
    s.rst = false ∧ StatusInv s ∧ s.busy = true ∧ { s with rst := true }.rst = true :=
  ⟨rfl, sample_status _ _ (by decide), rfl, rfl⟩
/-- The last row and pixel of a 7×7 sprite, its last byte, and an address beyond it. -/
theorem hyps_DeltaDecode : 55 < 8 * 7 ∧ 391 < 8 * 7 * 7 ∧ 0x188 + 8 * 7 * 7 ≤ 0x310 := by decide
theorem hyps_Unpack : [0#2, 1#2, 2#2].all (fun m =>
    let s := { sample .unpack true with mode := m, hdr := 0x77 }
    decide (8 * s.tilesWide * s.tilesHigh ≤ 0x188) && decide (s.mode.toNat ≤ 2) && s.orient == !s.orient0) = true := by decide
theorem hyps_Interleave :
    let s := sample .interleave true
    391 < 0x188 ∧ PlaneInv s ∧ s.phase = .interleave ∧ s.spriteBytes ≤ 8 := ⟨by decide, sample_planes _ _, rfl, by decide⟩
theorem hyps_OutTiles :
    let s := sample .interleave true
    PassInv s ∧ PlaneInv s ∧ s.phase = .interleave ∧ (∃ t, exec .interleave s = .next t) ∧
      0 < s.tilesWide * s.tilesHigh ∧ (s.tilesWide * s.tilesHigh ≤ 48 ∧ 48 < 49) :=
  ⟨sample_pass _ _ (by decide) (by decide), sample_planes _ _, rfl, ⟨_, rfl⟩, by decide, by decide⟩

theorem hyps_Start : WellFormed (.start 0x01) = true ∧
    ((sample .data false).rst = false ∧ (sample .data false).busy = true) ∧
    ((sample .done true).rst = false ∧ (sample .done true).busy = false) ∧ { State.reset with rst := true }.rst = true := by decide
/-- Two states whose engine registers differ. -/
theorem hyps_StartForgets :
    let s := sample .done true
    let s' := { sample .error false with rot := 1, hdr := 0x23, errCode := .dim, err := true, mode := 2 }
    s.rst = false ∧ s'.rst = false ∧ s.busy = false ∧ s'.busy = false ∧ s.src = s'.src ∧ s.rom = s'.rom ∧ s.cfg = s'.cfg ∧ s.out = s'.out ∧
      s.hrdata = s'.hrdata ∧ s.inputs = s'.inputs ∧ s.freeCtr = s'.freeCtr := by decide +kernel
theorem hyps_CtrlWr : WellFormed (.ctrlWr 0x06) = true ∧ State.reset.rst = false ∧ { State.reset with rst := true }.rst = true := by
  decide
theorem hyps_SrcWr (d : Byte) :
    (Instr.srcWr2 d, 2) ∈ [(Instr.srcWr0 d, 0), (Instr.srcWr1 d, 1), (Instr.srcWr2 d, 2)] ∧ 23 < 24 ∧
    State.reset.rst = false ∧ { State.reset with rst := true }.rst = true := by simp [State.reset]
/-- The first and last addresses of the view and the windows, and those beside them. -/
theorem hyps_HostRead :
    (sample .data false).busy = true ∧ (sample .done true).busy = false ∧
    [0x00C, 0x00E, 0x010, 0x01E, 0x400, 0x70F, 0x800, 0xB0F].all (fun a => isDebugView (BitVec.ofNat 12 a)) = true ∧
    [0x00B, 0x00F, 0x01F, 0x3FF, 0x710, 0x7FF, 0xB10, 0xFFF].all (fun a => !isDebugView (BitVec.ofNat 12 a)) = true := by
  decide +kernel
theorem hyps_HostPortMap :
    let w := fun a : HostAddr => 0x400 ≤ a.toNat ∧ a.toNat ≤ 0x70F
    let o := fun a : HostAddr => 0x800 ≤ a.toNat ∧ a.toNat ≤ 0xB0F
    w 0x400 ∧ w 0x70F ∧ o 0x800 ∧ o 0xB0F := by decide
theorem hyps_Reserved :
    let free := fun a : HostAddr => a.toNat = 0x003 ∨ a.toNat = 0x007 ∨ a.toNat = 0x00B ∨ a.toNat = 0x00F ∨
      (0x01F ≤ a.toNat ∧ a.toNat ≤ 0x3FF) ∨ (0x710 ≤ a.toNat ∧ a.toNat ≤ 0x7FF) ∨ 0xB10 ≤ a.toNat
    free 0x003 ∧ free 0x01F ∧ free 0x3FF ∧ free 0x710 ∧ free 0x7FF ∧ free 0xB10 ∧ free 0xFFF := by decide
theorem hyps_IgnoredWrite :
    let a : HostAddr := 0x002
    let s := { sample .data false with inputs := [{ delay := 0, event := .hostWrite a 0xFF }] }
    let t := { sample .done true with inputs := [{ delay := 5, event := .hostWrite a 0xFF }] }
    (a.toNat ≠ 0x000 ∧ a.toNat ≠ 0x001 ∧ a.toNat ≠ 0x004 ∧ a.toNat ≠ 0x005 ∧ a.toNat ≠ 0x006 ∧ a.toNat ≤ 0x00A) ∧
    s.inputs = { delay := 0, event := .hostWrite a 0xFF } :: [] ∧
    t.inputs = { delay := 5, event := .hostWrite a 0xFF } :: [] ∧ phaseBusy t.phase = false := ⟨by decide, rfl, rfl, rfl⟩

/-- HEADER with the cursor at the end, and DATA with no bit left. -/
theorem hyps_ReadPastTheRom :
    let s := { sample .header false with inPtr := 4 }
    let t := { sample .data true with inPtr := 4 }
    (s.phase ∈ [Phase.header, .orient, .mode, .kind, .data, .rlePrefix, .rleValue] ∧ (s.phase = .header ∨ s.inCnt = 0) ∧
      s.cfg.romSize ≤ s.inPtr.toNat) ∧
    (t.phase ∈ [Phase.header, .orient, .mode, .kind, .data, .rlePrefix, .rleValue] ∧ (t.phase = .header ∨ t.inCnt = 0) ∧
      t.cfg.romSize ≤ t.inPtr.toNat) := by decide
/-- One value bit left and no byte; one byte left and 15 value bits to read. -/
theorem hyps_SecondBitPastTheRom :
    let s := { withBits (sample .data false) [false] with inPtr := 4 }
    let t := { withBits (sample .mode true) [true] with inPtr := 4 }
    let u := { withBits (sample .rleValue true) [true] with inPtr := 4, rlen := 1 }
    let v := { sample .rleValue true with inPtr := 3, rlen := 14 }
    (s.inCnt = 1 ∧ s.cfg.romSize ≤ s.inPtr.toNat ∧ s.phase = .data) ∧
    (t.inCnt = 1 ∧ t.cfg.romSize ≤ t.inPtr.toNat ∧ t.phase = .mode ∧ t.inByte.getLsbD 7 = true) ∧
    (u.inCnt.toNat ≤ 8 ∧ u.cfg.romSize ≤ Config.romSizeMax ∧ u.phase = .rleValue ∧ (unreadBits u).length < u.rlen.toNat + 1) ∧
    (v.inCnt.toNat ≤ 8 ∧ v.cfg.romSize ≤ Config.romSizeMax ∧ v.phase = .rleValue ∧ (unreadBits v).length < v.rlen.toNat + 1 ∧
      v.inPtr.toNat < v.cfg.romSize) := by decide +kernel
/-- Each of the three errors is raised. -/
theorem hyps_Errors :
    (∃ t, engineStep { sample .data false with inPtr := 4 } = .next t ∧ t.phase = .error ∧ t.errCode = .romOob) ∧
    (∃ t, engineStep { sample .header false with inPtr := 3 } = .next t ∧ t.phase = .error ∧ t.errCode = .dim) ∧
    (∃ t, engineStep { withBits (sample .rlePrefix false) [true] with rlen := 14 } = .next t ∧ t.phase = .error ∧
      t.errCode = .rleLen) := ⟨⟨_, rfl, rfl, rfl⟩, ⟨_, rfl, rfl, rfl⟩, ⟨_, rfl, rfl, rfl⟩⟩
/-- The first index outside WM, headers on both sides of the plane's size, RLEN 15 with 16 bits left, the first offset outside. -/
theorem hyps_Stops :
    Instr.rleWrite ∈ [Instr.pair1, .pair2, .pair3, .rleWrite] ∧ 0x310 ≤ { sample .data true with pptr := 0x310 }.pptr.toNat ∧
    0x188 < 8 * { sample .unpack true with hdr := 0x87 }.tilesWide * { sample .unpack true with hdr := 0x87 }.tilesHigh ∧
    8 * { sample .unpack true with hdr := 0x77, mode := 3 }.tilesWide *
      { sample .unpack true with hdr := 0x77, mode := 3 }.tilesHigh ≤ 0x188 ∧
    (∃ v t, readBitsFrom readBit 16 0 { sample .rleValue true with rlen := 15 } = .ok (v, t)) ∧
    (sample .data true).cfg.romSize ≤ (4#24).toNat :=
  ⟨by decide, by decide, by decide, by decide, ⟨_, _, rfl⟩, by decide⟩
/-- START leaves DONE. -/
theorem hyps_Quiescence :
    let s := { sample .done true with inputs := [{ delay := 9, event := .hostWrite 0x000 0x01 }] }
    phaseBusy s.phase = false ∧ ∃ t, step s = .next t ∧ t.phase ≠ s.phase := ⟨rfl, _, rfl, by decide⟩
/-- START, and a ROM change, while busy. -/
theorem hyps_InputsLeaveARunningEngineAlone :
    let s := { sample .data false with inputs := [{ delay := 0, event := .hostWrite 0x000 0x01 }] }
    let r := { sample .data false with inputs := [{ delay := 0, event := .romWrite 3 0x55 }] }
    (StatusInv s ∧ phaseBusy s.phase = true ∧ dueInput s = some (.hostWrite 0x000 0x01, { s with inputs := [] }) ∧
      (∀ level, Event.hostWrite 0x000 0x01 ≠ .rst level) ∧ (∀ a d, Event.hostWrite 0x000 0x01 ≠ .romWrite a d) ∧ ∃ t, inputStep (.hostWrite 0x000 0x01) { s with inputs := [] } = .next t) ∧
    (StatusInv r ∧ phaseBusy r.phase = true ∧ dueInput r = some (.romWrite 3 0x55, { r with inputs := [] }) ∧
      (∀ level, Event.romWrite 3 0x55 ≠ .rst level) ∧ ∃ t, inputStep (.romWrite 3 0x55) { r with inputs := [] } = .next t) :=
  ⟨⟨{ sample_status .data false (by decide) with }, rfl, rfl, fun _ h => (by cases h), fun _ _ h => (by cases h), _, rfl⟩,
    ⟨{ sample_status .data false (by decide) with }, rfl, rfl, fun _ h => (by cases h), _, rfl⟩⟩
theorem hyps_EngineLeavesHostStateAlone : ∃ t, engineStep (sample .data false) = .next t := ⟨_, rfl⟩
theorem hyps_OnlyInterleave :
    let s := { sample .interleave true with out := Memory.zero, wm := Memory.zero.write 0 1 }
    ∃ t, step s = .next t ∧ t.out ≠ s.out := ⟨_, rfl, by decide +kernel⟩
theorem hyps_ResetAborts :
    let s := { sample .data false with inputs := [{ delay := 0, event := .rst true }] }
    let r := { State.reset with rst := true, inputs := [{ delay := 0, event := .rst false }] }
    let l := { State.reset with inputs := [{ delay := 7, event := .rst false }] }
    s.inputs = { delay := 0, event := .rst true } :: [] ∧
    (r.inputs = { delay := 0, event := .rst false } :: [] ∧ r.rst = true) ∧
    (l.inputs = { delay := 7, event := .rst false } :: [] ∧ phaseBusy l.phase = false ∧ l.rst = false) :=
  ⟨rfl, ⟨rfl, rfl⟩, rfl, rfl, rfl⟩
/-- A START while RST is asserted. -/
theorem hyps_ResetHeld :
    let s := { State.reset with rst := true, inputs := [{ delay := 0, event := .hostWrite 0x000 0x01 }] }
    ResetInv s ∧ s.rst = true ∧ ∃ t, step s = .next t := ⟨fun _ => rfl, rfl, _, rfl⟩
/-- A byte changed while busy, and the last offset of the ROM. -/
theorem hyps_ChangedRomByte :
    { sample .data false with romStale := [(2, 0x77)] }.inPtr.toNat < (sample .data false).cfg.romSize ∧
    (3#24).toNat < (sample .data false).cfg.romSize := by decide
theorem hyps_HostWritesCommute :
    let s := sample .data false
    s.rst = false ∧ phaseBusy s.phase = true ∧ s.busy = true ∧ ∃ t, engineStep s = .next t := ⟨rfl, rfl, rfl, _, rfl⟩
theorem hyps_AddressTranslator :
    (0x3FFF < 0x4000 ∧ 0x4000 ≤ 0x4000) ∧ (image [0x34, 0x12]).read 0 = 0x34 ∧ (image [0x34, 0x12]).read (0 + 1) = 0x12 := by
  decide +kernel

/-- `IN_PTR` in its range, with a byte to fetch and at the end. -/
theorem hyps_InPtrRange :
    let s := { sample .data false with inPtr := 3 }
    let t := { sample .data false with inPtr := 4 }
    (s.cfg.romSize ≤ Config.romSizeMax ∧ s.inPtr.toNat ≤ s.cfg.romSize ∧ ∃ u, engineStep s = .next u) ∧
    (t.cfg.romSize ≤ Config.romSizeMax ∧ t.inPtr.toNat ≤ t.cfg.romSize ∧ ∃ u, engineStep t = .next u) :=
  ⟨⟨by decide, by decide, _, rfl⟩, by decide, by decide, _, rfl⟩

/-- A host command, and an engine step, from states that meet the invariants. -/
theorem hyps_StepKeeps :
    let s := sample .data true
    MemoryInv s ∧ StatusInv s ∧ PassInv s ∧ PlaneInv s ∧ phaseBusy s.phase = true ∧ s.inputs = [] ∧
      (∃ t, step s = .next t) ∧ (∃ t, engineStep s = .next t) :=
  ⟨sample_memory _ _, sample_status _ _ (by decide), sample_pass _ _ (by decide) (by decide), sample_planes _ _, rfl, rfl,
    ⟨_, rfl⟩, ⟨_, rfl⟩⟩

end Sys2Proof.Tests
end

section
/-! SUPPORT. The bit reader on the unread stream (R9, R15, R38, R57): a read takes the first unread bit, and `ReadBits(k)` takes the
first `k` of them, most significant first. -/

namespace Sys2Proof.Machine

/-! ### The cursor and the unread bits -/

/-- The bit cursor is in its range (R15), ROM offsets do not wrap, and the host has changed no byte under the engine (R109). -/
structure CursorReady (s : State) : Prop where
  cnt_le : s.inCnt.toNat ≤ 8
  size_le : s.cfg.romSize ≤ Config.romSizeMax
  unchanged : s.romStale = []

/-- Setting the cursor to a count in range leaves it ready. -/
theorem CursorReady.setCursor {s : State} (h : CursorReady s) (p : RomAddr) (b : Byte) {c : BitVec 4} (hc : c.toNat ≤ 8) :
    CursorReady (s.setCursor p b c) := ⟨hc, h.size_le, h.unchanged⟩

/-- Shifting a byte left by one moves its lower bits one place to the front. -/
theorem bitsOfNat_shiftLeft_one (b : Byte) : bitsOfNat 8 (b <<< 1).toNat = bitsOfNat 7 b.toNat ++ [false] := by
  simp only [bitsOfNat, BitVec.testBit_toNat, BitVec.getLsbD_shiftLeft]
  simp

/-- With bits left in `IN_BYTE`, the first unread bit is its bit 7; shifting it out leaves the others (R57). -/
theorem unreadBits_of_left (s : State) (p : RomAddr) (b : Byte) (c : BitVec 4) (h0 : c ≠ 0) (h8 : c.toNat ≤ 8) :
    unreadBits (s.setCursor p b c) = b.getLsbD 7 :: unreadBits (s.setCursor p (b <<< 1) (c - 1)) := by
  obtain ⟨n, hn⟩ : ∃ n, c.toNat = n + 1 := Nat.exists_eq_succ_of_ne_zero (by simpa [BitVec.toNat_eq] using h0)
  have hc : (c - 1).toNat = n := by bv_omega
  have htake : (bitsOfNat 8 (b <<< 1).toNat).take n = (bitsOfNat 7 b.toNat).take n := by
    rw [bitsOfNat_shiftLeft_one, List.take_append_of_le_length (by rw [bitsOfNat_length]; omega)]
  have hhead : bitsOfNat 8 b.toNat = b.getLsbD 7 :: bitsOfNat 7 b.toNat := rfl
  simp only [unreadBits, State.setCursor_inByte, State.setCursor_inCnt, State.setCursor_inPtr, State.setCursor_rom,
    State.setCursor_cfg, hn, hc, htake, hhead, List.take_succ_cons, List.cons_append]

/-- With none left in `IN_BYTE`, fetching the next byte into it leaves the unread bits as they are (R38, R57). -/
theorem unreadBits_refill {s : State} (h : CursorReady s) (h0 : s.inCnt = 0) (hp : s.inPtr.toNat < s.cfg.romSize) :
    unreadBits s = unreadBits (s.setCursor (s.inPtr + 1) (s.rom.read s.inPtr.toNat) 8) := by
  have hmax : s.cfg.romSize ≤ 0x800000 := h.size_le
  have hnext : (s.inPtr + 1#24).toNat = s.inPtr.toNat + 1 := by bv_omega
  obtain ⟨n, hn⟩ : ∃ n, s.cfg.romSize - s.inPtr.toNat = n + 1 := ⟨s.cfg.romSize - s.inPtr.toNat - 1, by omega⟩
  have hrest : s.cfg.romSize - (s.inPtr.toNat + 1) = n := by omega
  have hall (v : Nat) : (bitsOfNat 8 v).take 8 = bitsOfNat 8 v := List.take_of_length_le (by simp)
  simp [unreadBits, h0, hn, hnext, hrest, hall, romBytes, -BitVec.toNat_add]

/-- With none left and the next byte beyond the ROM, no bit is unread. -/
theorem unreadBits_at_end {s : State} (h0 : s.inCnt = 0) (hp : s.cfg.romSize ≤ s.inPtr.toNat) : unreadBits s = [] := by
  simp [unreadBits, h0, Nat.sub_eq_zero_of_le hp, romBytes]

/-! ### Reading one bit -/

/-- What one bit read can do: it fails with no bit unread and nothing changed, or it takes the first unread bit (R57). -/
theorem readBit_cases {s : State} (h : CursorReady s) :
    (unreadBits s = [] ∧ readBit s = .error s) ∨
    ∃ b t, readBit s = .ok (b, t) ∧ unreadBits s = b :: unreadBits t ∧ CursorReady t := by
  by_cases h0 : s.inCnt = 0
  · by_cases hp : s.cfg.romSize ≤ s.inPtr.toNat
    · exact .inl ⟨unreadBits_at_end h0 hp, by simp [readBit, h0, romFetch, hp]⟩
    · have hlt := Nat.not_le.mp hp
      refine .inr ⟨_, _, readBit_of_refill s h0 hlt (by simp [h.unchanged]), ?_, h.setCursor _ _ (by decide)⟩
      rw [unreadBits_refill h h0 hlt]
      exact unreadBits_of_left s _ _ 8 (by decide) (by decide)
  · have hle : (s.inCnt - 1).toNat ≤ 8 := by have := h.cnt_le; bv_omega
    exact .inr ⟨_, _, readBit_of_left s h0, unreadBits_of_left s _ _ _ h0 h.cnt_le, h.setCursor _ _ hle⟩

/-! ### Reading several bits -/

/-- With `k` bits left, `ReadBits(k)` appends them to the value read so far and leaves the rest (R9, R47). -/
theorem readBits_of_enough {k v : Nat} {s : State} (h : CursorReady s) (hk : k ≤ (unreadBits s).length) :
    ∃ t, readBitsFrom readBit k v s = .ok (((unreadBits s).take k).foldl (fun v b => 2 * v + b.toNat) v, t) ∧
      unreadBits t = (unreadBits s).drop k ∧ CursorReady t := by
  induction k generalizing v s with
  | zero => exact ⟨s, rfl, rfl, h⟩
  | succ k ih =>
    obtain ⟨hnil, -⟩ | ⟨b, u, hread, hbits, hu⟩ := readBit_cases h
    · simp [hnil] at hk
    · obtain ⟨t, hrun, hrest, ht⟩ := ih (v := 2 * v + b.toNat) hu (by simpa [hbits] using hk)
      exact ⟨t, by simp [readBitsFrom, hread, hrun, hbits], by simp [hrest, hbits], ht⟩

/-- With fewer than `k` bits left, `ReadBits(k)` consumes them all and fails (R96). -/
theorem readBits_of_short {k v : Nat} {s : State} (h : CursorReady s) (hk : (unreadBits s).length < k) :
    ∃ e, readBitsFrom readBit k v s = .error e ∧ unreadBits e = [] := by
  induction k generalizing v s with
  | zero => omega
  | succ k ih =>
    obtain ⟨hnil, hread⟩ | ⟨b, u, hread, hbits, hu⟩ := readBit_cases h
    · exact ⟨s, by simp [readBitsFrom, hread], hnil⟩
    · simpa [readBitsFrom, hread] using ih (v := 2 * v + b.toNat) hu (by simpa [hbits] using hk)

/-- Settles O7, by induction on `k`: every bit read takes the first unread bit, or finds none and changes nothing. -/
theorem readBitsIsMostSignificantFirst : Obligations.ReadBitsIsMostSignificantFirst := by
  intro k s hcnt hsize hstale
  have h : CursorReady s := ⟨hcnt, hsize, hstale⟩
  refine ⟨fun hk => ?_, readBits_of_short h⟩
  obtain ⟨t, hread, hrest, -⟩ := readBits_of_enough (v := 0) h hk
  exact ⟨t, hread, hrest⟩

end Sys2Proof.Machine
end

section
/-! SUPPORT. What one step can do to the state, sorted by what it changes: the upkeep before it (the pending inputs and the bit
cursor), the moves of the engine, the moves of the host. Every invariant of the machine is proved over these few moves. -/

namespace Sys2Proof.Machine

/-! ### The moves -/

/-- `u` is `s` with the pending inputs and the bit cursor moved on and perhaps free values drawn. -/
def Upkeep (s u : State) : Prop :=
  ∃ p y c n l, u = { s with inPtr := p, inByte := y, inCnt := c, freeCtr := n, inputs := l }

/-- What one engine step makes of a state whose bit cursor stands past the bits it read (R24). -/
inductive EngineMove (s : State) : State → Prop
  /-- IDLE, DONE and ERROR (R105) -/
  | rest : EngineMove s s
  /-- one of the three errors (R95), perhaps with the header or `RLEN` latched before it -/
  | error (b : Byte) (n : BitVec 4) (c : ErrCode) (a : RomAddr) (hp : phaseBusy s.phase = true) (hc : c ≠ .none) :
      EngineMove s (raise c a { s with hdr := b, rlen := n })
  /-- HEADER (R58) -/
  | header (b : Byte) (hp : s.phase = .header) : EngineMove s { s with hdr := b, phase := .orient }
  /-- ORIENT (R59) -/
  | orient (o : Bool) (hp : s.phase = .orient) : EngineMove s { s with orient := o, orient0 := o, phase := .passSetup }
  /-- PASS_SETUP (R60) -/
  | passSetup (hp : s.phase = .passSetup) :
      EngineMove s { s with
        pptr := planeBase s.orient, sptr := planeBase s.orient, phase := if s.fpd then .mode else .kind }
  /-- a token or a bit of one inside a pass that writes no cell (R61, R62, R65 to R67) -/
  | token (m : BitVec 2) (n : BitVec 4) (k : BitVec 16) (p : Phase) (hp : inPass s.phase = true) (hq : inPass p = true)
      (hu : passUnbegun p = true → passUnbegun s.phase = true) :
      EngineMove s { s with mode := m, rlen := n, rlecnt := k, phase := p }
  /-- a pair or a cell of a run (R65, R68): the cell is written, the advance says where the pass goes on -/
  | cell (x : Byte) (w : State) (k : BitVec 16) (p : Phase) (hp : inPass s.phase = true) (hx : x.toNat < 4)
      (hw : cellWrite x s = some w) (hc : p = .data ∨ p = .rleWrite) :
      EngineMove s (dispatch (advance w).1 p { (advance w).2 with rlecnt := k })
  /-- UNPACK (R80) -/
  | unpack (hp : s.phase = .unpack) (hf : planeFits s = true) : EngineMove s ((unpackBy s).setPhase .interleave)
  /-- INTERLEAVE (R85) -/
  | interleave (hp : s.phase = .interleave) :
      EngineMove s { s with out := interleavePlanes s.wm, busy := false, done := true, phase := .done }

/-- What an input makes of a state it has left the pending ones of. -/
inductive HostMove (e : Event) (s : State) : State → Prop
  /-- an ignored write, a read, CTRL, SRC, START while busy, any write while RST is asserted (R33, R89 to R93, R106) -/
  | port (flip irqEn : Bool) (a : RomAddr) (d : Byte) (n : Nat) :
      HostMove e s { s with ctrlFlip := flip, ctrlIrqEn := irqEn, src := a, hrdata := d, freeCtr := n }
  /-- START while not busy (R89) -/
  | start (d : Byte) (hb : s.busy = false) : HostMove e s (startDecode (ctrlWrite d s))
  /-- CLRST (R91) -/
  | clear (dn er : Bool) (hd : dn = true → s.done = true) (he : er = true → s.err = true) :
      HostMove e s { s with done := dn, err := er }
  /-- a changed ROM byte (R109) -/
  | romWrite (a : Nat) (d : Byte) (l : List Host.Cell) (ha : a < s.cfg.romSize) :
      HostMove e s { s with rom := s.rom.write a d, romStale := l }
  /-- RST asserted, or released where it was asserted (R106) -/
  | reset (level : Bool) (he : e = .rst level) : HostMove e s (applyReset level s)

/-! ### The upkeep of a step -/

theorem CursorMoved.upkeep {s u : State} (h : CursorMoved s u) : Upkeep s u := by
  obtain ⟨p, y, c, n, rfl⟩ := h
  exact ⟨p, y, c, n, s.inputs, rfl⟩

theorem Upkeep.trans {s t u : State} (h : Upkeep s t) (k : Upkeep t u) : Upkeep s u := by
  obtain ⟨p, y, c, n, l, rfl⟩ := h
  obtain ⟨p', y', c', n', l', rfl⟩ := k
  exact ⟨p', y', c', n', l', rfl⟩

theorem tickInputs_upkeep (s : State) : Upkeep s (tickInputs s) := ⟨_, _, _, _, _, rfl⟩

theorem dueInput_upkeep {s u : State} {e : Event} (h : dueInput s = some (e, u)) : Upkeep s u := by
  obtain ⟨-, rest, -, -, -, rfl⟩ := dueInput_some h
  exact ⟨_, _, _, _, rest, rfl⟩

/-! ### What a failing read leaves -/

theorem readBit_error_moved {s e : State} (h : readBit s = .error e) : CursorMoved s e :=
  (readBit_error h).1 ▸ CursorMoved.refl s

theorem modeFrom_error_moved {s e : State} (h : modeFrom readBit s = .error e) : CursorMoved s e := by
  unfold modeFrom at h
  split at h
  · cases h; exact readBit_error_moved ‹_›
  · cases h
  · rename_i hb
    split at h
    · cases h; exact (readBit_moved hb).trans (readBit_error_moved ‹_›)
    · cases h

theorem ofToken_romOutOfRange {r : Except State (Instr × State)} {e : State} (h : ofToken r = .romOutOfRange e) :
    r = .error e := by
  unfold ofToken at h
  split at h <;> cases h
  rfl

/-- A read past the ROM has moved the bit cursor only (R56, R96), in a phase that reads. -/
theorem fetch_romOutOfRange {s e : State} (h : fetch s = .romOutOfRange e) :
    CursorMoved s e ∧ phaseBusy s.phase = true := by
  have hbusy : phaseBusy s.phase = true := by
    by_contra hq
    rw [(fetch_quiescent_iff s).mpr (by simpa using hq)] at h
    cases h
  refine ⟨?_, hbusy⟩
  unfold fetch at h
  split at h
  case h_2 =>
    unfold fetchHeader at h
    split at h <;> cases h
    exact (romFetch_error ‹_›).1 ▸ CursorMoved.refl s
  case h_3 =>
    have hr := ofToken_romOutOfRange h
    unfold orientFrom at hr
    split at hr <;> cases hr
    exact readBit_error_moved ‹_›
  case h_5 => exact modeFrom_error_moved (ofToken_romOutOfRange h)
  case h_6 =>
    have hr := ofToken_romOutOfRange h
    unfold kindFrom at hr
    split at hr <;> cases hr
    exact readBit_error_moved ‹_›
  case h_7 =>
    have hr := ofToken_romOutOfRange h
    unfold pairFrom at hr
    split at hr <;> cases hr
    exact (readBits_error ‹_›).1
  case h_8 =>
    unfold fetchRunBit at h
    split at h
    · cases h; exact readBit_error_moved ‹_›
    · split at h <;> cases h
  case h_9 =>
    unfold fetchRunValue at h
    split at h
    · rename_i hr
      cases h
      unfold runValueFrom at hr
      split at hr <;> cases hr
      exact (readBits_error ‹_›).1
    all_goals cases h
  all_goals cases h

/-- Exactly the lengths above 14 have no run token (R52, U16). -/
theorem runToken_none_iff (n v : Nat) : runToken n v = none ↔ 14 < n := by
  rcases Nat.lt_or_ge 14 n with h | h
  · obtain ⟨k, rfl⟩ := Nat.exists_eq_add_of_le' h
    simp [runToken]
  · interval_cases n <;> simp [runToken]

theorem ofToken_ne_unreachable (r : Except State (Instr × State)) : ofToken r ≠ .unreachable := by
  unfold ofToken
  split <;> exact nofun

/-- Only a run value with `RLEN` above 14 has no token (U16). -/
theorem fetch_unreachable {s : State} (h : fetch s = .unreachable) : 14 < s.rlen.toNat := by
  unfold fetch at h
  split at h
  case h_2 => unfold fetchHeader at h; split at h <;> cases h
  case h_3 | h_5 | h_6 | h_7 => exact absurd h (ofToken_ne_unreachable _)
  case h_8 => unfold fetchRunBit at h; split at h <;> (try split at h) <;> cases h
  case h_9 =>
    unfold fetchRunValue at h
    split at h
    · cases h
    · cases h
    · rename_i hr
      unfold runValueFrom at hr
      split at hr
      · cases hr
      · exact (runToken_none_iff _ _).mp (Prod.mk.inj (Except.ok.inj hr)).1
  all_goals cases h

/-! ### The engine's moves -/

/-- The phases that read in a context: one, but for the two that read a run (R50). -/
def ReadsIn (p : Phase) (c : Context) : Prop :=
  match c with
  | .header => p = .header
  | .orient => p = .orient
  | .passSetup => p = .passSetup
  | .mode => p = .mode
  | .kind => p = .kind
  | .data => p = .data
  | .run => p = .rlePrefix ∨ p = .rleValue
  | .rleWrite => p = .rleWrite
  | .unpack => p = .unpack
  | .interleave => p = .interleave
  | .hostWrite => False
  | .hostRead => False

theorem readsIn_of_phaseContext {p : Phase} {c : Context} (h : phaseContext p = some c) : ReadsIn p c := by
  cases p <;> cases h <;> simp [ReadsIn]

/-- A complete run token leads on to its writes (R67). -/
theorem startRun_move {s : State} (hp : s.phase = .rlePrefix ∨ s.phase = .rleValue) (n v : Nat) :
    EngineMove s (startRun n v s) :=
  .token s.mode _ _ .rleWrite (by rcases hp with h | h <;> rw [h] <;> rfl) rfl nofun

/-- A non-zero pair writes its cell and goes on in DATA (R65). -/
theorem writePair_move {s t : State} {c : Byte} (hp : s.phase = .data) (hc : c.toNat < 4)
    (h : writePair c s = .next t) : EngineMove s t := by
  unfold writePair at h
  split at h
  · cases h
  · rename_i w hw
    cases h
    exact .cell c w (advance w).2.rlecnt .data (by rw [hp]; rfl) hc hw (.inl rfl)

/-- After a cell of a run the pass goes on with the run, with the next pair, or as the advance says (R68, R73). -/
theorem finishRunCell_eq (r : AdvanceResult) (s : State) :
    finishRunCell r s =
      dispatch r (if s.rlecnt - 1 = 0 then .data else .rleWrite) { s with rlecnt := s.rlecnt - 1 } := by
  cases r
  case notYetReady => simp only [finishRunCell, dispatch]; split <;> rfl
  all_goals rfl

/-- A cell of a run writes zero (R68). -/
theorem execRleWrite_move {s t : State} (hp : s.phase = .rleWrite) (h : execRleWrite s = .next t) : EngineMove s t := by
  unfold execRleWrite at h
  split at h
  · cases h
  · rename_i w hw
    cases h
    rw [finishRunCell_eq]
    refine .cell 0 w _ _ (by rw [hp]; rfl) (by decide) hw ?_
    split
    · exact .inl rfl
    · exact .inr rfl

theorem execHdr_move {s t : State} {w h : BitVec 4} (hp : s.phase = .header) (ht : execHdr w h s = .next t) :
    EngineMove s t := by
  unfold execHdr at ht
  split at ht <;> cases ht
  · exact .header _ hp
  · exact .error _ s.rlen _ _ (by rw [hp]; rfl) nofun

/-- Every token of the engine makes one of the moves. -/
theorem exec_move {i : Instr} {s t : State} (hr : ReadsIn s.phase (contextOf i)) (h : exec i s = .next t) :
    EngineMove s t := by
  cases i with
  | hdr w b => exact execHdr_move hr h
  | orient o => cases h; exact .orient o hr
  | mode0 | mode1 | mode2 =>
    cases h; exact .token _ s.rlen s.rlecnt .kind (by rw [hr]; rfl) rfl fun _ => by rw [hr]; rfl
  | kindRle =>
    cases h; exact .token s.mode 0 s.rlecnt .rlePrefix (by rw [hr]; rfl) rfl nofun
  | kindData =>
    cases h; exact .token s.mode s.rlen s.rlecnt .data (by rw [hr]; rfl) rfl nofun
  | endData =>
    cases h; exact .token s.mode 0 s.rlecnt .rlePrefix (by rw [hr]; rfl) rfl nofun
  | pair1 | pair2 | pair3 => exact writePair_move hr (by decide) h
  | runN0 v | runN1 v | runN2 v | runN3 v | runN4 v | runN5 v | runN6 v | runN7 v | runN8 v | runN9 v | runN10 v
  | runN11 v | runN12 v | runN13 v | runN14 v => cases h; exact startRun_move hr _ _
  | runOverlong => cases h; exact .error s.hdr 14 _ _ (by rcases hr with hr | hr <;> rw [hr] <;> rfl) nofun
  | passSetup => cases h; exact .passSetup hr
  | rleWrite => exact execRleWrite_move hr h
  | unpack =>
    simp only [exec, execUnpack] at h
    split at h <;> cases h
    exact .unpack hr ‹_›
  | interleave => cases h; exact .interleave hr
  | start d | ctrlWr d | clrSt d | srcWr0 d | srcWr1 d | srcWr2 d | rd a => exact hr.elim

/-- A bit of a run's unary part makes one of the moves (R66). -/
theorem fetch_more_move {s t : State} (h : fetch s = .more t) : ∃ u, CursorMoved s u ∧ EngineMove u t := by
  obtain ⟨hp, b, u, -, hm, hb⟩ := fetch_more h
  refine ⟨u, hm, ?_⟩
  have hu : inPass u.phase = true := by
    obtain ⟨p, y, c, n, rfl⟩ := hm
    simp only [hp]; rfl
  rcases hb with ⟨-, -, rfl⟩ | ⟨-, rfl⟩
  · exact .token u.mode (u.rlen + 1) u.rlecnt u.phase hu hu id
  · exact .token u.mode u.rlen u.rlecnt .rleValue hu rfl nofun

/-- An engine step moves the bit cursor and then makes one of the moves (R24, R50, R88). -/
theorem engineStep_move {s t : State} (h : engineStep s = .next t) : ∃ u, CursorMoved s u ∧ EngineMove u t := by
  rcases engineStep_next h with ⟨i, u, -, hm, hc, he⟩ | hmore | ⟨u, hf, rfl⟩ | ⟨-, rfl⟩
  · refine ⟨u, hm, exec_move ?_ he⟩
    obtain ⟨p, y, c, n, rfl⟩ := hm
    exact readsIn_of_phaseContext hc
  · exact fetch_more_move hmore
  · obtain ⟨hm, hb⟩ := fetch_romOutOfRange hf
    refine ⟨u, hm, .error u.hdr u.rlen _ _ ?_ nofun⟩
    obtain ⟨p, y, c, n, rfl⟩ := hm
    exact hb
  · exact ⟨t, CursorMoved.refl t, .rest⟩

/-! ### The host's moves -/

theorem HostMove.refl (e : Event) (s : State) : HostMove e s s := .port s.ctrlFlip s.ctrlIrqEn s.src s.hrdata s.freeCtr

/-- While RST is asserted a host write does nothing (R106). -/
theorem hostWrites_move {e : Event} {s t : State} (h : HostMove e s t) : HostMove e s (hostWrites s t) := by
  unfold hostWrites
  split
  · exact HostMove.refl e s
  · exact h

theorem execStart_move {e : Event} {s t : State} {d : Byte} (h : execStart d s = .next t) : HostMove e s t := by
  unfold execStart at h
  cases h
  refine hostWrites_move ?_
  split
  · exact .port _ _ s.src s.hrdata s.freeCtr
  · exact .start d (by simpa using ‹¬(ctrlWrite d s).busy = true›)

theorem execRd_move {e : Event} {s t : State} {a : HostAddr} (h : execRd a s = .next t) : HostMove e s t := by
  unfold execRd at h
  split at h <;> cases h
  · exact .port s.ctrlFlip s.ctrlIrqEn s.src _ _
  · exact .port s.ctrlFlip s.ctrlIrqEn s.src _ s.freeCtr

/-- A clear bit of CLRST leaves its flag, a set one clears it (R91). -/
theorem execClrSt_move {e : Event} {s t : State} {d : Byte} (h : execClrSt d s = .next t) : HostMove e s t := by
  unfold execClrSt at h
  cases h
  exact hostWrites_move (.clear _ _ (by split <;> simp) (by split <;> simp))

/-- Every command of the host makes one of its moves. -/
theorem exec_hostMove {e : Event} {a : HostAddr} {d : Byte} {i : Instr} {s t : State}
    (hi : hostWriteInstr a d = some i) (h : exec i s = .next t) : HostMove e s t := by
  have hsrc (x : RomAddr) : HostMove e s (hostWrites s { s with src := x }) :=
    hostWrites_move (.port s.ctrlFlip s.ctrlIrqEn x s.hrdata s.freeCtr)
  unfold hostWriteInstr at hi
  split at hi
  · split at hi <;> cases hi
    · exact execStart_move h
    · cases h; exact hostWrites_move (.port _ _ s.src s.hrdata s.freeCtr)
  split at hi
  · cases hi; exact execClrSt_move h
  split at hi
  · cases hi; cases h; exact hsrc _
  split at hi
  · cases hi; cases h; exact hsrc _
  split at hi
  · cases hi; cases h; exact hsrc _
  · cases hi

theorem applyRomWrite_move {e : Event} {a : RomAddr} {d : Byte} {s t : State} (h : applyRomWrite a d s = .next t) :
    HostMove e s t := by
  unfold applyRomWrite at h
  split at h <;> cases h
  exact .romWrite _ d _ ‹_›

theorem driveRst_move (level : Bool) (s : State) : HostMove (.rst level) s (driveRst level s) := by
  rcases driveRst_cases level s with ⟨-, h⟩ | ⟨-, -, h⟩ <;> rw [h]
  · exact .reset level rfl
  · exact HostMove.refl _ s

theorem inputStep_move {e : Event} {s t : State} (h : inputStep e s = .next t) : HostMove e s t := by
  unfold inputStep at h
  split at h
  · split at h
    · exact exec_hostMove ‹_› h
    · cases h; exact HostMove.refl _ _
  · exact execRd_move h
  · exact applyRomWrite_move h
  · cases h; exact driveRst_move _ s

/-! ### The moves of a step -/

/-- A step is the upkeep, then one move of the host or of the engine (R88). -/
theorem step_move {s t : State} (h : step s = .next t) :
    (∃ e u, dueInput s = some (e, u) ∧ Upkeep s u ∧ HostMove e u t) ∨
    (dueInput s = none ∧ ∃ u, Upkeep s u ∧ EngineMove u t) := by
  rcases step_next h with ⟨e, u, hd, hi⟩ | ⟨hd, he⟩
  · exact .inl ⟨e, u, hd, dueInput_upkeep hd, inputStep_move hi⟩
  · obtain ⟨u, hm, hmove⟩ := engineStep_move he
    exact .inr ⟨hd, u, (tickInputs_upkeep s).trans hm.upkeep, hmove⟩

/-- What the upkeep keeps and every move turns into `R`, a step turns into `R`. -/
theorem step_rule {P R : State → Prop} (hup : ∀ s u, Upkeep s u → P s → P u)
    (hengine : ∀ s t, EngineMove s t → P s → R t) (hhost : ∀ e s t, HostMove e s t → P s → R t)
    {s t : State} (hs : P s) (h : step s = .next t) : R t := by
  rcases step_move h with ⟨e, u, -, hu, hm⟩ | ⟨-, u, hu, hm⟩
  · exact hhost e u t hm (hup s u hu hs)
  · exact hengine u t hm (hup s u hu hs)

end Sys2Proof.Machine
end

section
/-! SUPPORT. What UNPACK and a cell write leave unchanged, as later proofs of invariants need it (R64, R69, R80). -/

namespace Sys2Proof.Machine

/-! ### UNPACK -/

/-- `t` is `s` with the focus pointers moved and bytes of the sprite written in either plane. -/
structure Rebuilt (s t : State) : Prop where
  frame : t = { s with wm := t.wm, pptr := t.pptr, sptr := t.sptr }
  keeps : ∀ P : Memory → Prop,
    (∀ m v o j, j < s.spriteBytes → P m → P (m.write ((planeBase o).toNat + j) v)) → P s.wm → P t.wm

theorem Rebuilt.refl (s : State) : Rebuilt s s := ⟨rfl, fun _ _ h => h⟩

theorem Rebuilt.trans {s t u : State} (h : Rebuilt s t) (k : Rebuilt t u) : Rebuilt s u := by
  have hsize : t.spriteBytes = s.spriteBytes := by rw [h.frame]; rfl
  refine ⟨by rw [k.frame, h.frame], fun P hP hs => ?_⟩
  exact k.keeps P (by rw [hsize]; exact hP) (h.keeps P hP hs)

/-- `ResetPtrs` points at the plane of the first pass and that of the second (R77). -/
theorem resetPtrs_eq (s : State) : resetPtrs s = { s with pptr := planeBase (!s.orient), sptr := planeBase s.orient } := by
  cases h : s.orient <;> simp [resetPtrs, planeBase, h]

theorem resetPtrs_rebuilt (s : State) : Rebuilt s (resetPtrs s) := by
  rw [resetPtrs_eq]
  exact ⟨rfl, fun _ _ h => h⟩

theorem decodePlane_rebuilt (o : Bool) (f : Bool) (s : State) : Rebuilt s (decodePlane (planeBase o).toNat f s) := by
  refine ⟨rfl, fun P hP hs => deltaDecode_keeps P _ _ _ f s.wm (fun m v a h1 h2 hm => ?_) hs⟩
  obtain ⟨j, rfl⟩ := Nat.exists_eq_add_of_le h1
  exact hP m v o j (Nat.lt_of_add_lt_add_left h2) hm

theorem xorMerge_rebuilt (s : State) : Rebuilt s (xorMerge s) := by
  have hdecoded : Rebuilt s (resetPtrs (decodePlane (resetPtrs s).pptr.toNat (resetPtrs s).flipL (resetPtrs s))) := by
    refine (resetPtrs_rebuilt s).trans (Rebuilt.trans ?_ (resetPtrs_rebuilt _))
    have hp : (resetPtrs s).pptr = planeBase (!s.orient) := by rw [resetPtrs_eq]
    rw [hp]
    exact decodePlane_rebuilt _ _ _
  refine hdecoded.trans ⟨rfl, fun P hP hs => mergePlanes_keeps P _ _ _ _ _ _ (fun m v j hj hm => ?_) hs⟩
  rw [resetPtrs_eq]
  exact hP m v _ j hj hm

/-- UNPACK in any mode writes only bytes of the sprite (R80 to R83). -/
theorem unpackBy_rebuilt (s : State) : Rebuilt s (unpackBy s) := by
  unfold unpackBy
  split
  · exact (decodePlane_rebuilt false _ s).trans (decodePlane_rebuilt true _ _)
  split
  · exact xorMerge_rebuilt s
  split
  · refine (resetPtrs_rebuilt s).trans (Rebuilt.trans ?_ (xorMerge_rebuilt _))
    have hp : (resetPtrs s).sptr = planeBase s.orient := by rw [resetPtrs_eq]
    rw [hp]
    exact decodePlane_rebuilt _ _ _
  · exact Rebuilt.refl s

/-! ### Addresses of the planes -/

@[simp] theorem planeBase_toNat (o : Bool) : (planeBase o).toNat = if o then Config.planeSize else 0 := by
  cases o <;> rfl

theorem planeFits_iff (s : State) : planeFits s = true ↔ s.spriteBytes ≤ Config.planeSize := by
  simp [planeFits, State.spriteBytes]

/-- A byte of a plane is a byte of WM (R10). -/
theorem plane_byte_lt {o : Bool} {j : Nat} (hj : j < Config.planeSize) : (planeBase o).toNat + j < Config.outSize := by
  rw [planeBase_toNat]
  unfold Config.planeSize Config.outSize at *
  split <;> omega

/-! ### A cell and the advance -/

/-- A cell of a pass changes the byte at `PPTR`, the advance registers, the count and the phase, which stays a running one. -/
theorem cell_frame {x : Byte} {s w : State} {p : Phase} (hw : cellWrite x s = some w) (hc : p = .data ∨ p = .rleWrite)
    (k : BitVec 16) :
    s.pptr.toNat < Config.outSize ∧ ∃ v row col rot pptr sptr orient fpd q, phaseBusy q = true ∧
      dispatch (advance w).1 p { (advance w).2 with rlecnt := k } =
        { s with
          wm := s.wm.write s.pptr.toNat v, row := row, col := col, rot := rot, pptr := pptr, sptr := sptr
          orient := orient, fpd := fpd, rlecnt := k, phase := q } := by
  obtain ⟨hlt, rfl⟩ := cellWrite_some hw
  obtain ⟨row, col, rot, pptr, sptr, orient, fpd, ha⟩ := advance_frame
    (s.writeWm s.pptr.toNat (s.wm.read s.pptr.toNat ||| cellTransform x s.rot))
  refine ⟨hlt, _, row, col, rot, pptr, sptr, orient, fpd, _, ?_, by rw [dispatch_eq, ha]; rfl⟩
  split
  · rcases hc with rfl | rfl <;> rfl
  · rfl
  · rfl

end Sys2Proof.Machine
end

section
/-! SUPPORT. The memories keep their canonical form and their size (R10, R12, R13, R5). -/

namespace Sys2Proof.Machine

theorem MemoryInv.upkeep {s u : State} (hu : Upkeep s u) (h : MemoryInv s) : MemoryInv u := by
  obtain ⟨p, y, c, n, l, rfl⟩ := hu
  exact { h with }

theorem MemoryInv.writeWm {s : State} (h : MemoryInv s) {a : Nat} (v : Byte) (ha : a < Config.outSize) :
    MemoryInv { s with wm := s.wm.write a v } :=
  { h with wm_wf := s.wm.wf_write a v h.wm_wf, wm_size := s.wm.below_write a _ v ha h.wm_size }

theorem MemoryInv.setOut {s : State} (h : MemoryInv s) {m : Memory} (hwf : m.wf = true)
    (hsize : m.below Config.outSize = true) : MemoryInv { s with out := m } :=
  { h with out_wf := hwf, out_size := hsize }

theorem MemoryInv.unpack {s : State} (h : MemoryInv s) (hf : planeFits s = true) : MemoryInv (unpackBy s) := by
  have hr := unpackBy_rebuilt s
  have hwf := hr.keeps (fun m => m.wf = true) (fun m v _ _ _ hm => m.wf_write _ v hm) h.wm_wf
  have hsize := hr.keeps (fun m => m.below Config.outSize = true)
    (fun m v _ j hj hm => m.below_write _ _ v (plane_byte_lt (Nat.lt_of_lt_of_le hj ((planeFits_iff s).mp hf))) hm) h.wm_size
  rw [hr.frame]
  exact { h with wm_wf := hwf, wm_size := hsize }

theorem MemoryInv.engine {s t : State} (hm : EngineMove s t) (h : MemoryInv s) : MemoryInv t := by
  cases hm with
  | cell x w k p _ _ hw hc =>
    obtain ⟨hlt, v, _, _, _, _, _, _, _, _, -, ht⟩ := cell_frame hw hc k
    rw [ht]
    exact { h.writeWm v hlt with }
  | unpack _ hf => exact { h.unpack hf with }
  | interleave _ => exact { h.setOut (interleavePlanes_wf s.wm) (interleavePlanes_below s.wm) with }
  | rest | error | header | orient | passSetup | token => exact { h with }

theorem MemoryInv.host {e : Event} {s t : State} (hm : HostMove e s t) (h : MemoryInv s) : MemoryInv t := by
  cases hm with
  | start d _ => exact { h with wm_wf := Memory.zero_wf, wm_size := rfl }
  | romWrite a d l ha =>
    exact { h with
      rom_wf := s.rom.wf_write a d h.rom_wf
      rom_size := s.rom.below_write a _ d ha h.rom_size
      rom_fill := (s.rom.write_fill a d).trans h.rom_fill }
  | reset level _ =>
    exact { h with
      wm_wf := Memory.unspecified_wf _, wm_size := rfl, out_wf := Memory.unspecified_wf _, out_size := rfl }
  | port | clear => exact { h with }

/-- Settles O53, move by move: every write lands in its memory by an operation that keeps the form. -/
theorem stepKeepsTheMemoryForm : Obligations.StepKeepsTheMemoryForm :=
  fun _ _ hs h => step_rule (fun _ _ => MemoryInv.upkeep) (fun _ _ => MemoryInv.engine) (fun _ _ _ => MemoryInv.host) hs h

end Sys2Proof.Machine
end

section
/-! SUPPORT. STATUS, ERRCODE and FAULTADDR agree with PHASE (R28, R29, R31). -/

namespace Sys2Proof.Machine

theorem phase_of_busy {p : Phase} (h : phaseBusy p = true) : p ≠ .idle ∧ p ≠ .done ∧ p ≠ .error := by
  cases p <;> simp_all [phaseBusy]

theorem phaseBusy_of_inPass {p : Phase} (h : inPass p = true) : phaseBusy p = true := by
  cases p <;> simp_all [phaseBusy, inPass]

/-- In a running phase the agreement fixes every status register. -/
theorem statusInv_running_iff {s : State} (hp : phaseBusy s.phase = true) :
    StatusInv s ↔
      s.busy = true ∧ s.done = false ∧ s.err = false ∧ s.errCode = .none ∧ s.faultAddr = 0 := by
  obtain ⟨-, hdone, herr⟩ := phase_of_busy hp
  constructor
  · intro h
    exact ⟨h.busy_iff.trans hp, by simpa using mt h.done_phase hdone, by simpa using mt h.err_phase herr,
      h.code_none.mpr herr, h.addr_zero herr⟩
  · rintro ⟨hb, hd, he, hc, ha⟩
    exact ⟨hb.trans hp.symm, by simp [hd], by simp [he], by simp [hc, herr], fun _ => ha⟩

theorem StatusInv.upkeep {s u : State} (hu : Upkeep s u) (h : StatusInv s) : StatusInv u := by
  obtain ⟨p, y, c, n, l, rfl⟩ := hu
  exact { h with }

/-- From a running phase to a running phase nothing of the status moves. -/
theorem StatusInv.runs_on {s t : State} (h : StatusInv s) (hp : phaseBusy s.phase = true) (hq : phaseBusy t.phase = true)
    (ht : t.busy = s.busy ∧ t.done = s.done ∧ t.err = s.err ∧ t.errCode = s.errCode ∧ t.faultAddr = s.faultAddr) :
    StatusInv t := by
  obtain ⟨hb, hd, he, hc, ha⟩ := ht
  rw [statusInv_running_iff hq, hb, hd, he, hc, ha]
  exact (statusInv_running_iff hp).mp h

theorem StatusInv.raise {s : State} (h : StatusInv s) (hp : phaseBusy s.phase = true) {c : ErrCode} (hc : c ≠ .none)
    (a : RomAddr) : StatusInv (raise c a s) := by
  obtain ⟨-, hd, -, -, -⟩ := (statusInv_running_iff hp).mp h
  exact ⟨rfl, by simp [hd], fun _ => rfl, by simp [hc], fun hne => absurd rfl hne⟩

theorem StatusInv.engine {s t : State} (hm : EngineMove s t) (h : StatusInv s) : StatusInv t := by
  have same : s.busy = s.busy ∧ s.done = s.done ∧ s.err = s.err ∧ s.errCode = s.errCode ∧ s.faultAddr = s.faultAddr :=
    ⟨rfl, rfl, rfl, rfl, rfl⟩
  cases hm with
  | rest => exact h
  | error b n c a hp hc =>
    have hlatched : StatusInv { s with hdr := b, rlen := n } := { h with }
    exact hlatched.raise hp hc a
  | header b hp => exact h.runs_on (by rw [hp]; rfl) rfl same
  | orient o hp => exact h.runs_on (by rw [hp]; rfl) rfl same
  | passSetup hp => exact h.runs_on (by rw [hp]; rfl) (by dsimp only; split <;> rfl) same
  | token m n k p hp hq _ => exact h.runs_on (phaseBusy_of_inPass hp) (phaseBusy_of_inPass hq) same
  | cell x w k p hp _ hw hc =>
    obtain ⟨-, _, _, _, _, _, _, _, _, q, hq, ht⟩ := cell_frame hw hc k
    rw [ht]
    exact h.runs_on (phaseBusy_of_inPass hp) hq same
  | unpack hp _ =>
    rw [(unpackBy_rebuilt s).frame]
    exact h.runs_on (by rw [hp]; rfl) rfl same
  | interleave hp =>
    obtain ⟨-, -, he, hc, ha⟩ := (statusInv_running_iff (by rw [hp]; rfl)).mp h
    exact ⟨rfl, fun _ => rfl, by simp [he], by simp [hc], fun _ => ha⟩

theorem StatusInv.host {e : Event} {s t : State} (hm : HostMove e s t) (h : StatusInv s) : StatusInv t := by
  cases hm with
  | port | romWrite => exact { h with }
  | start d _ => exact ⟨rfl, nofun, nofun, by simp [startDecode], fun _ => rfl⟩
  | clear dn er hd he => exact { h with done_phase := fun k => h.done_phase (hd k), err_phase := fun k => h.err_phase (he k) }
  | reset level _ => exact ⟨rfl, nofun, nofun, by simp [applyReset, State.reset], fun _ => rfl⟩

/-- Settles O54: each move keeps the agreement, and each of BUSY, DONE and ERR at 1 names its own phases. -/
theorem stepKeepsStatusInAgreement : Obligations.StepKeepsStatusInAgreement := by
  refine ⟨fun _ _ hs h =>
    step_rule (fun _ _ => StatusInv.upkeep) (fun _ _ => StatusInv.engine) (fun _ _ _ => StatusInv.host) hs h, fun s h => ?_⟩
  refine ⟨fun ⟨hb, hd⟩ => ?_, fun ⟨hb, he⟩ => ?_, fun ⟨hd, he⟩ => ?_⟩
  · rw [h.busy_iff, h.done_phase hd] at hb; cases hb
  · rw [h.busy_iff, h.err_phase he] at hb; cases hb
  · exact absurd ((h.done_phase hd).symm.trans (h.err_phase he)) nofun

end Sys2Proof.Machine
end

section
/-! SUPPORT. The cells of a pass (R63, R64, R71): where each one lies, what a write to one leaves of the others, where the
current one stands by the geometry of R25. -/

namespace Sys2Proof.Machine

/-! ### The place of a cell -/

theorem legalDim_iff (n : Nat) : legalDim n = true ↔ 1 ≤ n ∧ n ≤ 7 := by
  rw [legalDim, Bool.and_eq_true, decide_eq_true_eq, decide_eq_true_eq]; rfl

/-- The sprite of a legal header fits its plane (R58). -/
theorem spriteBytes_le {s : State} (hw : legalDim s.tilesWide = true) (hh : legalDim s.tilesHigh = true) :
    s.spriteBytes ≤ Config.planeSize :=
  Nat.mul_le_mul (Nat.mul_le_mul_left 8 ((legalDim_iff _).mp hw).2) ((legalDim_iff _).mp hh).2

/-- A cell of the pass lies in the sprite's bytes of its plane (R71). -/
theorem cellByte_inside (o : Bool) {w h k : Nat} (hk : k < 32 * w * h) :
    ∃ j, j < 8 * w * h ∧ cellByte o h k = (planeBase o).toNat + j := by
  have hh : 0 < h := Nat.pos_of_ne_zero fun h0 => by simp [h0] at hk
  have hc : k / (32 * h) < w := Nat.div_lt_of_lt_mul (by rwa [Nat.mul_right_comm] at hk)
  exact ⟨_, column_byte_lt hc (Nat.mod_lt (k % (32 * h)) (by omega)), Nat.add_assoc _ _ _⟩

/-- A cell's byte and bit pair tell it from every other (R71). -/
theorem cell_eq_of_place {o : Bool} {h k k' : Nat} (hh : 0 < h) (hb : cellByte o h k = cellByte o h k')
    (hr : cellRot h k = cellRot h k') : k = k' := by
  have hpos : 0 < 8 * h := by omega
  have hlt (n : Nat) : n % (32 * h) / (8 * h) < 4 :=
    Nat.div_lt_of_lt_mul (by have := Nat.mod_lt n (show 0 < 32 * h by omega); omega)
  have hrot : k % (32 * h) / (8 * h) = k' % (32 * h) / (8 * h) := by
    have := hlt k; have := hlt k'; unfold cellRot at hr; omega
  have hsum : k % (32 * h) % (8 * h) + 8 * h * (k / (32 * h)) = k' % (32 * h) % (8 * h) + 8 * h * (k' / (32 * h)) := by
    unfold cellByte at hb; rw [Nat.mul_comm (8 * h), Nat.mul_comm (8 * h)]; omega
  obtain ⟨hcol, hrow⟩ := (Nat.div_mod_unique hpos).mpr ⟨hsum, Nat.mod_lt _ hpos⟩
  obtain ⟨hcol', hrow'⟩ := (Nat.div_mod_unique hpos).mpr ⟨rfl, Nat.mod_lt (k' % (32 * h)) hpos⟩
  have hrest : k % (32 * h) = k' % (32 * h) := by
    rw [← Nat.div_add_mod (k % (32 * h)) (8 * h), ← Nat.div_add_mod (k' % (32 * h)) (8 * h), hrot, ← hrow, hrow']
  rw [← Nat.div_add_mod k (32 * h), ← Nat.div_add_mod k' (32 * h), hrest, ← hcol, hcol']

/-! ### Writing a cell -/

/-- A two-bit number has no bit from bit 2 on. -/
theorem getLsbD_of_lt_four {x : Byte} (hx : x.toNat < 4) {j : Nat} (hj : 2 ≤ j) : x.getLsbD j = false :=
  Nat.testBit_lt_two_pow (Nat.lt_of_lt_of_le hx (Nat.pow_le_pow_right (by decide : 0 < 2) hj))

/-- Two bits OR-ed in at one pair of a byte are not seen at another pair. -/
theorem pair_or_other (b x : Byte) (hx : x.toNat < 4) {p q : Nat} (hpq : p ≠ q) :
    ((b ||| x <<< (2 * p)) >>> (2 * q)) &&& 3 = (b >>> (2 * q)) &&& 3 := by
  apply BitVec.eq_of_getLsbD_eq
  intro i _
  by_cases hi : i < 2
  · have hclear : (x <<< (2 * p)).getLsbD (2 * q + i) = false := by
      rw [BitVec.getLsbD_shiftLeft]
      by_cases hlt : 2 * q + i < 2 * p
      · simp [hlt]
      · simp [getLsbD_of_lt_four hx (show 2 ≤ 2 * q + i - 2 * p by omega)]
    simp [hclear]
  · have hmask : (3#8).getLsbD i = false := getLsbD_of_lt_four (by decide) (by omega)
    simp [hmask]

/-- A write to one cell leaves every other cell of the plane as it is (R63, R64). -/
theorem cellValue_write_other (m : Memory) (o : Bool) {h k k' : Nat} (hh : 0 < h) (hk : k ≠ k') {x : Byte}
    (hx : x.toNat < 4) :
    cellValue (m.write (cellByte o h k) (m.read (cellByte o h k) ||| x <<< (2 * cellRot h k))) o h k' =
      cellValue m o h k' := by
  unfold cellValue
  rw [Memory.read_write]
  split
  · rename_i hb
    rw [pair_or_other _ _ hx fun hr => hk (cell_eq_of_place hh hb hr), hb]
  · rfl

theorem cellValue_of_zero {m : Memory} {o : Bool} {h k : Nat} (hz : m.read (cellByte o h k) = 0) :
    cellValue m o h k = 0 := by simp [cellValue, hz]

/-! ### The current cell -/

/-- `PPTR` in the column and row it points at (R25). -/
theorem PassGeometry.place {s : State} (g : PassGeometry s) :
    ∃ c, c < s.tilesWide ∧ s.col.toNat = 8 * c ∧ s.row.toNat < 8 * s.tilesHigh ∧
      s.pptr.toNat = (planeBase s.orient).toNat + (c * (8 * s.tilesHigh) + s.row.toNat) := by
  obtain ⟨c, hc, hcol, hs⟩ := g.column
  exact ⟨c, hc, hcol, g.row_lt, by rw [g.pptr_eq, hs, Nat.add_assoc]⟩

/-- During a pass `PPTR` points at a byte of the sprite in the plane of the pass (R25). -/
theorem PassGeometry.pptr_inside {s : State} (g : PassGeometry s) :
    ∃ j, j < s.spriteBytes ∧ s.pptr.toNat = (planeBase s.orient).toNat + j := by
  obtain ⟨c, hc, -, hr, hp⟩ := g.place
  exact ⟨_, column_byte_lt hc hr, hp⟩

/-- `PPTR` and `ROT` are the byte and the bit pair of the current cell (R71). -/
theorem PassGeometry.current {s : State} (g : PassGeometry s) :
    cellByte s.orient s.tilesHigh s.cellIndex = s.pptr.toNat ∧ cellRot s.tilesHigh s.cellIndex = s.rot.toNat := by
  obtain ⟨c, -, hcol, hr, hp⟩ := g.place
  have hrot : s.rot.toNat < 4 := s.rot.isLt
  have hq : (3 - s.rot.toNat) * (8 * s.tilesHigh) ≤ 3 * (8 * s.tilesHigh) := Nat.mul_le_mul_right _ (by omega)
  have hindex : s.cellIndex = 32 * s.tilesHigh * c + ((8 * s.tilesHigh) * (3 - s.rot.toNat) + s.row.toNat) := by
    unfold State.cellIndex
    rw [hcol, Nat.mul_div_cancel_left c (by decide)]
    ring
  have hin : (8 * s.tilesHigh) * (3 - s.rot.toNat) + s.row.toNat < 32 * s.tilesHigh := by
    rw [Nat.mul_comm]; omega
  have hdiv : s.cellIndex / (32 * s.tilesHigh) = c := by
    rw [hindex, Nat.mul_add_div (by omega), Nat.div_eq_of_lt hin, Nat.add_zero]
  have hmod : s.cellIndex % (32 * s.tilesHigh) = (8 * s.tilesHigh) * (3 - s.rot.toNat) + s.row.toNat := by
    rw [hindex, Nat.mul_add_mod, Nat.mod_eq_of_lt hin]
  constructor
  · rw [cellByte, hdiv, hmod, Nat.mul_add_mod, Nat.mod_eq_of_lt hr, hp, Nat.add_assoc]
  · rw [cellRot, hmod, Nat.mul_add_div (by omega), Nat.div_eq_of_lt hr]
    omega

/-- The next cell of the pass is the one after the current one (R69, R71). -/
theorem advance_cellIndex {s : State} (g : PassGeometry s) (hw : legalDim s.tilesWide = true)
    (hh : legalDim s.tilesHigh = true) (hnext : (advance s).1 = .notYetReady) :
    (advance s).2.cellIndex = s.cellIndex + 1 := by
  obtain ⟨c, hc, hcol, hr, -⟩ := g.place
  obtain ⟨-, hw7⟩ := (legalDim_iff _).mp hw
  obtain ⟨-, hh7⟩ := (legalDim_iff _).mp hh
  rcases advance_cases s with
    ⟨hrow, ha⟩ | ⟨hrow, hrot, ha⟩ | ⟨hrow, hrot, -, ha⟩ | ⟨-, -, -, -, ha⟩ | ⟨-, -, -, -, ha⟩
  · have hone : (s.row + 1).toNat = s.row.toNat + 1 := by bv_omega
    rw [ha]
    show _ + (s.row + 1).toNat = _
    rw [hone]; rfl
  · have hdown : 3 - (s.rot - 1).toNat = 3 - s.rot.toNat + 1 := by bv_omega
    rw [ha]
    show s.col.toNat / 8 * (32 * s.tilesHigh) + (3 - (s.rot - 1).toNat) * (8 * s.tilesHigh) + 0 = s.cellIndex + 1
    rw [hdown, State.cellIndex, Nat.add_one_mul (3 - s.rot.toNat)]
    omega
  · have hcol8 : (s.col + 8).toNat / 8 = c + 1 := by bv_omega
    rw [ha]
    show (s.col + 8).toNat / 8 * (32 * s.tilesHigh) + (3 - 3) * (8 * s.tilesHigh) + 0 = s.cellIndex + 1
    have hzero : s.rot.toNat = 0 := by rw [hrot]; rfl
    rw [hcol8, State.cellIndex, hcol, hzero, Nat.mul_div_cancel_left c (by decide), Nat.add_one_mul c]
    omega
  · rw [ha] at hnext; cases hnext
  · rw [ha] at hnext; cases hnext

/-- The advance stays in the pass and moves its place only, ends the first pass, or ends the second (R69). -/
theorem advance_outcome (s : State) :
    (∃ row col rot pptr sptr,
      advance s = (.notYetReady, { s with row := row, col := col, rot := rot, pptr := pptr, sptr := sptr })) ∨
    (s.fpd = false ∧ advance s = (.restart, { s with row := 0, rot := 3, col := 0, orient := !s.orient, fpd := true })) ∨
    (s.fpd = true ∧ advance s = (.done, { s with row := 0, rot := 3, col := 0 })) := by
  rcases advance_cases s with ⟨-, ha⟩ | ⟨-, -, ha⟩ | ⟨-, -, -, ha⟩ | ⟨-, -, -, hf, ha⟩ | ⟨-, -, -, hf, ha⟩
  · exact .inl ⟨_, s.col, s.rot, _, s.sptr, ha⟩
  · exact .inl ⟨_, s.col, _, _, s.sptr, ha⟩
  · exact .inl ⟨_, _, _, _, _, ha⟩
  · exact .inr (.inl ⟨hf, ha⟩)
  · exact .inr (.inr ⟨hf, ha⟩)

end Sys2Proof.Machine
end

section
/-! SUPPORT. The planes (R10, R11, R60, R64): every cell write stays in its plane, and what is not yet written stays zero. -/

namespace Sys2Proof.Machine

theorem headerPassed_of_inPass {p : Phase} (h : inPass p = true) : headerPassed p = true := by
  cases p <;> simp_all [headerPassed, inPass]

theorem PassInv.spriteBytes_le {s : State} (h : PassInv s) (hp : headerPassed s.phase = true) :
    s.spriteBytes ≤ Config.planeSize := Machine.spriteBytes_le (h.dims hp).1 (h.dims hp).2

/-- Settles O23: by the geometry of R25, `PPTR` lies inside the sprite's bytes, which fit a plane. -/
theorem cellWritesStayInTheirPlane : Obligations.CellWritesStayInTheirPlane := by
  intro s h hp
  obtain ⟨j, hj, heq⟩ := (h.geometry hp).pptr_inside
  rw [heq]
  exact ⟨Nat.le_add_right _ _, Nat.add_lt_add_left hj _,
    Nat.add_le_add_left (h.spriteBytes_le (headerPassed_of_inPass hp)) _⟩

/-- The plane invariant with what a step needs beside it: the parts of the pass invariant that the bit cursor has no say in. -/
structure PlacedPlanes (s : State) : Prop where
  dims : headerPassed s.phase = true → legalDim s.tilesWide = true ∧ legalDim s.tilesHigh = true
  geometry : inPass s.phase = true → PassGeometry s
  first_pass : s.phase = .header ∨ s.phase = .orient → s.fpd = false
  planes : PlaneInv s

theorem PassInv.placed {s : State} (h : PassInv s) (hp : PlaneInv s) : PlacedPlanes s :=
  ⟨h.dims, h.geometry, fun hf => (h.first_pass hf).1, hp⟩

theorem PlacedPlanes.upkeep {s u : State} (hu : Upkeep s u) (h : PlacedPlanes s) : PlacedPlanes u := by
  obtain ⟨p, y, c, n, l, rfl⟩ := hu
  exact { h with geometry := fun k => { h.geometry k with }, planes := { h.planes with } }

/-- Before the first pass writes, both planes are zero (R60, R89). -/
theorem PlaneInv.both_zero {s : State} (h : PlaneInv s) (hp : passUnbegun s.phase = true) (hf : s.fpd = false) (o : Bool)
    {j : Nat} (hj : j < Config.planeSize) : s.wm.read ((planeBase o).toNat + j) = 0 := by
  by_cases ho : o = s.orient
  · rw [ho]; exact h.plane_zero hp j hj
  · rw [Bool.eq_not_of_ne ho]; exact h.other_zero hf (.inl hp) j hj

/-- The header and the orientation bit come while both planes are zero, so any size and any first plane will do. -/
theorem PlaneInv.of_both_zero {s : State} (hfill : s.wm.fill = .zero)
    (hz : ∀ o j, j < Config.planeSize → s.wm.read ((planeBase o).toNat + j) = 0) (hp : inPass s.phase = false) :
    PlaneInv s where
  wm_known _ := hfill
  beyond_zero _ j _ hj := by simpa using And.intro (hz false j hj) (hz true j hj)
  plane_zero _ := hz s.orient
  other_zero _ _ := hz (!s.orient)
  ahead_zero hin := by rw [hp] at hin; cases hin

/-- Where the bytes beyond the sprite are all the invariant says of the planes (R11). -/
theorem PlaneInv.of_beyond_zero {s : State} (hfill : s.wm.fill = .zero)
    (hb : ∀ j, s.spriteBytes ≤ j → j < Config.planeSize → s.wm.read j = 0 ∧ s.wm.read (Config.planeSize + j) = 0)
    (hp : inPass s.phase = false) (hu : passUnbegun s.phase = false) : PlaneInv s where
  wm_known _ := hfill
  beyond_zero _ := hb
  plane_zero h := by rw [hu] at h; cases h
  other_zero _ h := by rw [hu, hp] at h; simp at h
  ahead_zero h := by rw [hp] at h; cases h

/-! ### The engine's moves -/

theorem PlaneInv.raise {s : State} (hfill : s.wm.fill = .zero) (c : ErrCode) (a : RomAddr) : PlaneInv (raise c a s) where
  wm_known _ := hfill
  beyond_zero := nofun
  plane_zero := nofun
  other_zero _ := by simp [passUnbegun, inPass]
  ahead_zero := nofun

/-- PASS_SETUP turns a zero plane into zero cells (R60). -/
theorem PlacedPlanes.passSetup {s : State} (h : PlacedPlanes s) (hp : s.phase = .passSetup) :
    PlaneInv { s with
      pptr := planeBase s.orient, sptr := planeBase s.orient, phase := if s.fpd then .mode else .kind } := by
  have hpassed : headerPassed s.phase = true := by rw [hp]; rfl
  have hunbegun : passUnbegun s.phase = true := by rw [hp]; rfl
  refine ⟨fun _ => h.planes.wm_known (by rw [hp]; exact nofun), fun _ => h.planes.beyond_zero hpassed,
    fun _ => h.planes.plane_zero hunbegun, fun hf _ => h.planes.other_zero hf (.inl hunbegun), fun _ k _ hk => ?_⟩
  obtain ⟨j, hj, hbyte⟩ := cellByte_inside s.orient hk
  have hsize := Machine.spriteBytes_le (h.dims hpassed).1 (h.dims hpassed).2
  refine cellValue_of_zero (Eq.trans (congrArg s.wm.read hbyte) ?_)
  exact h.planes.plane_zero hunbegun j (Nat.lt_of_lt_of_le hj hsize)

/-- What WM holds once the current cell is written. -/
structure CellWritten (s : State) (m : Memory) : Prop where
  fill : m.fill = .zero
  beyond : ∀ j, s.spriteBytes ≤ j → j < Config.planeSize → m.read j = 0 ∧ m.read (Config.planeSize + j) = 0
  other : s.fpd = false → ∀ j, j < Config.planeSize → m.read ((planeBase (!s.orient)).toNat + j) = 0
  ahead : ∀ k, s.cellIndex < k → k < s.passCells → cellValue m s.orient s.tilesHigh k = 0

/-- A cell write touches the byte of its own cell: not the bytes beyond the sprite, not the other plane, not a later cell. -/
theorem PlacedPlanes.cellWritten {s w : State} (h : PlacedPlanes s) (hp : inPass s.phase = true) {x : Byte}
    (hx : x.toNat < 4) (hw : cellWrite x s = some w) : CellWritten s w.wm := by
  obtain ⟨-, rfl⟩ := cellWrite_some hw
  have hpassed := headerPassed_of_inPass hp
  have g := h.geometry hp
  obtain ⟨j0, hj0, hpptr⟩ := g.pptr_inside
  have hsize := Machine.spriteBytes_le (h.dims hpassed).1 (h.dims hpassed).2
  have hpos := ((legalDim_iff _).mp (h.dims hpassed).2).1
  have hother (o : Bool) (j : Nat) (hj : j < Config.planeSize) (hne : o = s.orient → j ≠ j0) :
      s.pptr.toNat ≠ (planeBase o).toNat + j := by
    rw [hpptr, planeBase_toNat, planeBase_toNat]
    unfold Config.planeSize at *
    cases o <;> cases ho : s.orient <;> simp [ho] at hne ⊢ <;> omega
  have hread (o : Bool) (j : Nat) (hj : j < Config.planeSize) (hne : o = s.orient → j ≠ j0) (v : Byte) :=
    s.wm.read_write_other _ _ v (hother o j hj hne)
  refine ⟨?_, fun j hbj hj => ?_, fun hf j hj => ?_, fun k hk hkc => ?_⟩
  · exact (s.wm.write_fill _ _).trans (h.planes.wm_known fun hi => by rw [hi] at hp; cases hp)
  · obtain ⟨hz, hz'⟩ := h.planes.beyond_zero hpassed j hbj hj
    have h0 := hread false j hj (by omega) (s.wm.read s.pptr.toNat ||| cellTransform x s.rot)
    have h1 := hread true j hj (by omega) (s.wm.read s.pptr.toNat ||| cellTransform x s.rot)
    simp only [planeBase_toNat, Bool.false_eq_true, if_true, if_false, Nat.zero_add] at h0 h1
    exact ⟨h0.trans hz, h1.trans hz'⟩
  · exact (hread _ j hj (by simp) _).trans (h.planes.other_zero hf (.inr hp) j hj)
  · obtain ⟨hbyte, hrot⟩ := g.current
    show cellValue (s.wm.write _ (_ ||| cellTransform x s.rot)) _ _ _ = 0
    rw [cellTransform_eq x _ hx, ← hbyte, ← hrot, cellValue_write_other _ _ hpos (Nat.ne_of_lt hk) hx]
    exact h.planes.ahead_zero hp k (Nat.le_of_lt hk) hkc

/-- After a cell the pass goes on at the next one, the second pass begins, or both planes are written (R69, R70). -/
theorem PlacedPlanes.cell {s w : State} (h : PlacedPlanes s) (hp : inPass s.phase = true) {x : Byte} (hx : x.toNat < 4)
    (hw : cellWrite x s = some w) {p : Phase} (hc : p = .data ∨ p = .rleWrite) (k : BitVec 16) :
    PlaneInv (dispatch (advance w).1 p { (advance w).2 with rlecnt := k }) := by
  have hm := h.cellWritten hp hx hw
  obtain ⟨hwide, hhigh⟩ := h.dims (headerPassed_of_inPass hp)
  have g := h.geometry hp
  obtain ⟨v, rfl⟩ : ∃ v, w = s.writeWm s.pptr.toNat v := ⟨_, (cellWrite_some hw).2⟩
  have hnext := advance_cellIndex (s := s.writeWm s.pptr.toNat v) { g with } hwide hhigh
  obtain ⟨row, col, rot, pptr, sptr, ha⟩ | ⟨hf, ha⟩ | ⟨-, ha⟩ := advance_outcome (s.writeWm _ _)
  · rw [ha] at hnext ⊢
    have hu : passUnbegun p = false := by rcases hc with rfl | rfl <;> rfl
    refine ⟨fun _ => hm.fill, fun _ => hm.beyond, fun hb => absurd hb (by simp [dispatch, hu]),
      fun hf _ => hm.other hf, fun _ n hn hnc => hm.ahead n ?_ hnc⟩
    exact Nat.lt_of_lt_of_le (Nat.lt_succ_self _) (Nat.le_trans (Nat.le_of_eq (hnext rfl).symm) hn)
  · rw [ha]
    exact ⟨fun _ => hm.fill, fun _ => hm.beyond, fun _ => hm.other hf, nofun, nofun⟩
  · rw [ha]
    exact .of_beyond_zero hm.fill hm.beyond rfl rfl

/-- UNPACK writes only the sprite's bytes (R11, R78, R79). -/
theorem PlacedPlanes.unpack {s : State} (h : PlacedPlanes s) (hp : s.phase = .unpack) (hf : planeFits s = true) :
    PlaneInv ((unpackBy s).setPhase .interleave) := by
  have hr := unpackBy_rebuilt s
  have hsize := (planeFits_iff s).mp hf
  have hkept := hr.keeps
    (fun m => m.fill = .zero ∧ ∀ j, s.spriteBytes ≤ j → j < Config.planeSize →
      m.read j = 0 ∧ m.read (Config.planeSize + j) = 0)
    (fun m v o j hj hm => ⟨(m.write_fill _ _).trans hm.1, fun i hi hi' => ?_⟩)
    ⟨h.planes.wm_known (by rw [hp]; exact nofun), h.planes.beyond_zero (by rw [hp]; rfl)⟩
  · rw [hr.frame]
    exact .of_beyond_zero hkept.1 hkept.2 rfl rfl
  · rw [Memory.read_write_other _ _ _ _ ?_, Memory.read_write_other _ _ _ _ ?_]
    · exact hm.2 i hi hi'
    all_goals rw [planeBase_toNat]; unfold Config.planeSize at *; split <;> omega

theorem PlacedPlanes.engine {s t : State} (hm : EngineMove s t) (h : PlacedPlanes s) : PlaneInv t := by
  have known (hp : phaseBusy s.phase = true) : s.wm.fill = .zero := h.planes.wm_known (phase_of_busy hp).1
  cases hm with
  | rest => exact h.planes
  | error b n c a hp _ => exact PlaneInv.raise (s := { s with hdr := b, rlen := n }) (known hp) c a
  | header b hp =>
    exact .of_both_zero (known (by rw [hp]; rfl))
      (fun _ _ => h.planes.both_zero (by rw [hp]; rfl) (h.first_pass (.inl hp)) _) rfl
  | orient o hp =>
    exact .of_both_zero (known (by rw [hp]; rfl))
      (fun _ _ => h.planes.both_zero (by rw [hp]; rfl) (h.first_pass (.inr hp)) _) rfl
  | passSetup hp => exact h.passSetup hp
  | token m n k p hp hq hu =>
    exact ⟨fun _ => known (phaseBusy_of_inPass hp), fun _ => h.planes.beyond_zero (headerPassed_of_inPass hp),
      fun hb => h.planes.plane_zero (hu hb), fun hf _ => h.planes.other_zero hf (.inr hp),
      fun _ => h.planes.ahead_zero hp⟩
  | cell x w k p hp hx hw hc => exact h.cell hp hx hw hc k
  | unpack hp hf => exact h.unpack hp hf
  | interleave hp =>
    exact .of_beyond_zero (known (by rw [hp]; rfl)) (h.planes.beyond_zero (by rw [hp]; rfl)) rfl rfl

/-! ### The host's moves -/

theorem PlacedPlanes.host {e : Event} {s t : State} (hm : HostMove e s t) (h : PlacedPlanes s) : PlaneInv t := by
  cases hm with
  | port | clear | romWrite => exact { h.planes with }
  | start d _ => exact .of_both_zero rfl (fun _ _ _ => rfl) rfl
  | reset level _ =>
    exact ⟨fun hne => absurd rfl hne, nofun, nofun,
      fun _ => by simp [applyReset, State.reset, passUnbegun, inPass], nofun⟩

/-- Settles O56, move by move: a cell write touches its own cell only, and START clears both planes. -/
theorem stepKeepsUnwrittenCellsZero : Obligations.StepKeepsUnwrittenCellsZero :=
  fun _ _ hs hp h =>
    step_rule (fun _ _ => PlacedPlanes.upkeep) (fun _ _ => PlacedPlanes.engine) (fun _ _ _ => PlacedPlanes.host)
      (hs.placed hp) h

end Sys2Proof.Machine
end

section
/-! SUPPORT. Where a step can stop and what it cannot touch: OUT outside INTERLEAVE and RST (R12), the named stops (R25, U16). -/

namespace Sys2Proof.Machine

/-! ### OUT -/

theorem EngineMove.out_eq {s t : State} (hm : EngineMove s t) (hp : s.phase ≠ .interleave) : t.out = s.out := by
  cases hm with
  | cell x w k p _ _ hw hc =>
    obtain ⟨-, _, _, _, _, _, _, _, _, _, -, ht⟩ := cell_frame hw hc k
    rw [ht]
  | unpack _ _ => rw [(unpackBy_rebuilt s).frame]; rfl
  | interleave hi => exact absurd hi hp
  | rest | error | header | orient | passSetup | token => rfl

theorem HostMove.out_eq {e : Event} {s t : State} (hm : HostMove e s t) (he : ∀ level, e ≠ .rst level) : t.out = s.out := by
  cases hm with
  | reset level h => exact absurd h (he level)
  | port | start | clear | romWrite => rfl

/-- Settles O46: of the engine's moves only INTERLEAVE writes OUT, of the host's only RST. -/
theorem onlyInterleaveWritesOut : Obligations.OnlyInterleaveWritesOut := by
  intro s t h hout
  rcases step_move h with ⟨e, u, hd, ⟨_, _, _, _, _, rfl⟩, hm⟩ | ⟨hd, u, ⟨_, _, _, _, _, rfl⟩, hm⟩
  · right
    by_contra hno
    exact hout (hm.out_eq fun level he => hno ⟨level, _, he ▸ hd⟩)
  · left
    refine ⟨hd, ?_⟩
    by_contra hp
    exact hout (hm.out_eq hp)

/-! ### The engine answers -/

theorem writePair_answers (c : Byte) {s : State} (h : s.pptr.toNat < Config.outSize) : ∃ t, writePair c s = .next t := by
  rw [writePair, cellWrite_of_lt c s h]
  exact ⟨_, rfl⟩

theorem execRleWrite_answers {s : State} (h : s.pptr.toNat < Config.outSize) : ∃ t, execRleWrite s = .next t := by
  rw [execRleWrite, cellWrite_of_lt 0 s h]
  exact ⟨_, rfl⟩

theorem execUnpack_of_fits {s : State} (h : planeFits s = true) :
    execUnpack s = .next ((unpackBy s).setPhase .interleave) := if_pos h

/-- An instruction stops only where a cell write or UNPACK would leave WM (log 12). -/
theorem exec_answers (i : Instr) {s : State} (hp : s.pptr.toNat < Config.outSize)
    (hf : contextOf i = .unpack → planeFits s = true) : ∃ t, exec i s = .next t := by
  cases i with
  | pair1 | pair2 | pair3 => exact writePair_answers _ hp
  | rleWrite => exact execRleWrite_answers hp
  | unpack => exact ⟨_, execUnpack_of_fits (hf rfl)⟩
  | hdr w h => rw [exec, execHdr]; split <;> exact ⟨_, rfl⟩
  | rd a => rw [exec, execRd]; split <;> exact ⟨_, rfl⟩
  | orient | mode0 | mode1 | mode2 | kindRle | kindData | endData | runN0 | runN1 | runN2 | runN3 | runN4 | runN5 | runN6
  | runN7 | runN8 | runN9 | runN10 | runN11 | runN12 | runN13 | runN14 | runOverlong | passSetup | interleave | start
  | ctrlWr | clrSt | srcWr0 | srcWr1 | srcWr2 => exact ⟨_, rfl⟩

/-- Settles O57: under the invariant `PPTR` indexes WM, the plane fits and `RLEN` has a run token, so no stop is met. -/
theorem engineNeverStops : Obligations.EngineNeverStops := by
  intro s h
  unfold engineStep
  split
  · rename_i i u hf
    obtain ⟨hm, hc⟩ := fetch_token hf
    have hread := readsIn_of_phaseContext hc
    obtain ⟨p, y, c, n, rfl⟩ := hm
    refine exec_answers i h.pptr_lt fun hi => (planeFits_iff _).mpr (h.spriteBytes_le ?_)
    rw [hi] at hread
    rw [show s.phase = .unpack from hread]
    rfl
  · exact ⟨_, rfl⟩
  · exact ⟨_, rfl⟩
  · exact ⟨_, rfl⟩
  · exact absurd (fetch_unreachable ‹_›) (Nat.not_lt.mpr h.rlen_le)

/-! ### The named stops -/

theorem cellWrite_of_ge (x : Byte) {s : State} (h : Config.outSize ≤ s.pptr.toNat) : cellWrite x s = none :=
  if_neg (Nat.not_lt.mpr h)

/-- Mode 3 selects none of the procedures (R80; log 24). -/
theorem unpackBy_of_mode_three {s : State} (h : s.mode = 3) : unpackBy s = s := by simp [unpackBy, h]

/-- Settles O42, stop by stop; UNPACK of a plane that fits answers in every mode. -/
theorem stopsAreTheNamedOnes : Obligations.StopsAreTheNamedOnes := by
  refine ⟨fun s i hi hp => ?_, fun s => ⟨fun hbig => ?_, fun hfits => ?_⟩, fun s t v hp hr hb => ?_, fun s a d ha => ?_⟩
  · have hnone (x : Byte) : cellWrite x s = none := cellWrite_of_ge x hp
    simp only [List.mem_cons, List.not_mem_nil, or_false] at hi
    rcases hi with rfl | rfl | rfl | rfl
    · simp [exec, execPair1, writePair, hnone]
    · simp [exec, execPair2, writePair, hnone]
    · simp [exec, execPair3, writePair, hnone]
    · simp [exec, execRleWrite, hnone]
  · exact if_neg fun hf => Nat.not_le.mpr hbig ((planeFits_iff s).mp hf)
  · have hnext := execUnpack_of_fits ((planeFits_iff s).mpr hfits)
    refine ⟨⟨_, hnext, ?_⟩, fun hm => ?_⟩
    · conv_lhs => rw [(unpackBy_rebuilt s).frame]
      rfl
    · rw [exec, hnext, unpackBy_of_mode_three hm]
      rfl
  · have hnone : runToken 15 v = none := (runToken_none_iff 15 v).mpr (by decide)
    have hlen : s.rlen.toNat = 15 := by rw [hr]; rfl
    simp [engineStep, fetch, hp, fetchRunValue, runValueFrom, hlen, hb, hnone]
  · exact if_neg (Nat.not_lt.mpr ha)

end Sys2Proof.Machine
end

section
/-! SUPPORT. The host port map (R26 to R34): which byte each address holds, which reads are exact, which writes are ignored. -/

namespace Sys2Proof.Machine

/-! ### Bytes of registers -/

theorem byteOf24_append (x : RomAddr) : byteOf24 x 2 ++ byteOf24 x 1 ++ byteOf24 x 0 = x := by
  unfold byteOf24
  rw [BitVec.extractLsb'_append_extractLsb'_eq_extractLsb' (by decide),
    BitVec.extractLsb'_append_extractLsb'_eq_extractLsb' (by decide)]
  exact BitVec.extractLsb'_eq_self

theorem pointerByte_append (p : WmIndex) : pointerByte p 1 ++ pointerByte p 0 = 0#6 ++ p := by
  show (0#6 ++ p.extractLsb' 8 2) ++ p.extractLsb' 0 8 = 0#6 ++ p
  rw [BitVec.append_assoc, BitVec.extractLsb'_append_extractLsb'_eq_extractLsb' (by decide), BitVec.extractLsb'_eq_self]
  rfl

theorem rlecnt_append (x : BitVec 16) : x.extractLsb' 8 8 ++ x.extractLsb' 0 8 = x := by
  rw [BitVec.extractLsb'_append_extractLsb'_eq_extractLsb' (by decide)]
  exact BitVec.extractLsb'_eq_self

/-- Zero bits above `n` bits are all that is left once the `n` bits are shifted out. -/
theorem zero_append_ushiftRight {k n : Nat} (x : BitVec n) : (0#k ++ x) >>> n = 0 := by
  apply BitVec.eq_of_getLsbD_eq
  intro i _
  simp [BitVec.getLsbD_append]

/-- Bits 7:6 of INFO are reserved (R26, R33). -/
theorem infoByte_reserved (s : State) : infoByte s >>> 6 = 0 := by
  have h : ∀ (a b c d : Bool) (m : BitVec 2),
      (0#2 ++ BitVec.ofBool a ++ BitVec.ofBool b ++ BitVec.ofBool c ++ BitVec.ofBool d ++ m) >>> 6 = 0 := by decide
  exact h _ _ _ _ _

/-- Three flags below five reserved bits: the reserved ones read 0 (R27, R28, R33). -/
theorem flags_reserved (a b c : BitVec 1) {n : Nat} (hn : 3 ≤ n) : (0#5 ++ a ++ b ++ c).getLsbD n = false := by
  simp only [BitVec.getLsbD_append, BitVec.getLsbD_zero]
  rw [if_neg (by omega), if_neg (by omega), if_neg (by omega)]

/-! ### The map -/

theorem portByte_control (s : State) {a : HostAddr} (h : a.toNat < 0x00C) : portByte s a = controlByte s a.toNat :=
  if_pos h

theorem portByte_debug (s : State) {a : HostAddr} (h : 0x00C ≤ a.toNat) (h' : a.toNat < 0x01F) :
    portByte s a = debugByte s a.toNat :=
  (if_neg (Nat.not_lt.mpr h)).trans (if_pos h')

/-- Past the debug view there are the two windows and nothing else (R26, R33). -/
theorem portByte_above (s : State) {a : HostAddr} (h : 0x01F ≤ a.toNat) :
    portByte s a =
      if 0x400 ≤ a.toNat ∧ a.toNat ≤ 0x70F then s.wm.read (a.toNat - 0x400)
      else if 0x800 ≤ a.toNat ∧ a.toNat ≤ 0xB0F then s.out.read (a.toNat - 0x800)
      else 0x00 :=
  (if_neg (by omega)).trans (if_neg (by omega))

theorem portByte_wm (s : State) {a : HostAddr} (h : 0x400 ≤ a.toNat) (h' : a.toNat ≤ 0x70F) :
    portByte s a = s.wm.read (a.toNat - 0x400) := by
  rw [portByte_above s (by omega), if_pos ⟨h, h'⟩]

theorem portByte_out (s : State) {a : HostAddr} (h : 0x800 ≤ a.toNat) (h' : a.toNat ≤ 0xB0F) :
    portByte s a = s.out.read (a.toNat - 0x800) := by
  rw [portByte_above s (by omega), if_neg (by omega), if_pos ⟨h, h'⟩]

theorem isDebugView_iff (a : HostAddr) :
    isDebugView a = true ↔ (0x00C ≤ a.toNat ∧ a.toNat ≤ 0x01E ∧ a.toNat ≠ 0x00F) ∨
      (0x400 ≤ a.toNat ∧ a.toNat ≤ 0x70F) ∨ (0x800 ≤ a.toNat ∧ a.toNat ≤ 0xB0F) := by
  simp only [isDebugView, Bool.or_eq_true, Bool.and_eq_true, decide_eq_true_eq]
  omega

/-- The reserved addresses of the map (R33). -/
def IsReserved (a : HostAddr) : Prop :=
  a.toNat = 0x003 ∨ a.toNat = 0x007 ∨ a.toNat = 0x00B ∨ a.toNat = 0x00F ∨ (0x01F ≤ a.toNat ∧ a.toNat ≤ 0x3FF) ∨
    (0x710 ≤ a.toNat ∧ a.toNat ≤ 0x7FF) ∨ 0xB10 ≤ a.toNat

theorem portByte_reserved (s : State) {a : HostAddr} (h : IsReserved a) : portByte s a = 0 := by
  rcases h with h | h | h | h | h
  · rw [portByte_control s (by omega), h]; rfl
  · rw [portByte_control s (by omega), h]; rfl
  · rw [portByte_control s (by omega), h]; rfl
  · rw [portByte_debug s (by omega) (by omega), h]; rfl
  · rw [portByte_above s (by omega), if_neg (by omega), if_neg (by omega)]

/-! ### Accesses -/

/-- Outside the debug view and the windows a read is exact in every phase (R33, R93). -/
theorem execRd_exact (s : State) {a : HostAddr} (h : isDebugView a = false) :
    exec (.rd a) s = .next { s with hrdata := portByte s a } := by
  rw [exec, execRd, h, Bool.and_false]
  rfl

theorem isDebugView_of_reserved {a : HostAddr} (h : IsReserved a) : isDebugView a = false := by
  rw [← Bool.not_eq_true, isDebugView_iff]
  unfold IsReserved at h
  omega

/-- A write to any other address than those of CTRL, STATUS and SRC is no command (R33). -/
theorem hostWriteInstr_none {a : HostAddr} (d : Byte) (h0 : a.toNat ≠ 0x000) (h1 : a.toNat ≠ 0x001) (h4 : a.toNat ≠ 0x004)
    (h5 : a.toNat ≠ 0x005) (h6 : a.toNat ≠ 0x006) : hostWriteInstr a d = none := by
  have hne (b : HostAddr) (h : a.toNat ≠ b.toNat) : ¬a = b := fun he => h (congrArg _ he)
  unfold hostWriteInstr
  rw [if_neg (hne 0x000#12 h0), if_neg (hne 0x001#12 h1), if_neg (hne 0x004#12 h4), if_neg (hne 0x005#12 h5),
    if_neg (hne 0x006#12 h6)]

/-- An input whose delay is over, or that finds the engine quiescent, is the step (R88, R105). -/
theorem step_of_due {s : State} {p : Input} {rest : List Input} (hi : s.inputs = p :: rest)
    (hd : p.delay = 0 ∨ phaseBusy s.phase = false) : step s = inputStep p.event { s with inputs := rest } := by
  have hdue : dueInput s = some (p.event, { s with inputs := rest }) := by
    unfold dueInput
    rw [hi]
    exact if_pos (by simpa using hd)
  rw [step, hdue]

/-- Settles O37: the map has no byte at a reserved place, no command at one, and the control bytes are outside the view. -/
theorem reservedPlacesReadZeroAndIgnoreWrites : Obligations.ReservedPlacesReadZeroAndIgnoreWrites := by
  refine ⟨fun s a h => ?_, fun s n hn => ⟨flags_reserved _ _ _ hn, flags_reserved _ _ _ hn⟩, fun s => ?_,
    fun s a d rest delay h0 h1 h4 h5 h6 hi hd => ?_, fun s d => ⟨?_, ?_⟩, fun s a h => execRd_exact s ?_⟩
  · rw [execRd_exact s (isDebugView_of_reserved h), portByte_reserved s h]
  · exact ⟨infoByte_reserved s, zero_append_ushiftRight s.rot, zero_append_ushiftRight s.inCnt,
      zero_append_ushiftRight (phaseCode s.phase), zero_append_ushiftRight (s.pptr.extractLsb' 8 2),
      zero_append_ushiftRight (s.sptr.extractLsb' 8 2), zero_append_ushiftRight s.rlen⟩
  · rw [step_of_due hi hd]
    simp only [inputStep, hostWriteInstr_none d h0 h1 h4 h5 h6]
  · simp [ctrlWrite]
  · simp [exec, execClrSt]
  · rw [← Bool.not_eq_true, isDebugView_iff]
    omega

/-- Settles O36: each register at its address, each multi-byte register put together from its bytes. -/
theorem hostPortMapIsTheTable : Obligations.HostPortMapIsTheTable := by
  refine ⟨rfl, rfl, fun s => ?_, fun s a => ⟨portByte_wm s, portByte_out s, isDebugView_iff a⟩⟩
  exact ⟨rfl, rfl, rfl, byteOf24_append s.src, byteOf24_append s.faultAddr, byteOf24_append s.inPtr, rfl, rfl, rfl, rfl,
    rfl, rfl, rfl, rfl, pointerByte_append s.pptr, pointerByte_append s.sptr, rfl, rlecnt_append s.rlecnt⟩

/-- Settles O38: the line is the level of R34, and the reset state has IRQ_EN clear. -/
theorem interruptLineIsALevel : Obligations.InterruptLineIsALevel := ⟨fun _ => rfl, rfl⟩

end Sys2Proof.Machine
end

section
/-! SUPPORT. The word of a host write as the decoder reads it: 12 address bits, then 8 data bits (R55). -/

namespace Sys2Proof

/-- Reading `j + k` bits is reading `j` and then `k` more behind them (R9). -/
theorem readBitsFrom_add {σ ε : Type} {rd : BitSource σ ε} {j v w : Nat} {s t : σ} (k : Nat)
    (h : readBitsFrom rd j v s = .ok (w, t)) : readBitsFrom rd (j + k) v s = readBitsFrom rd k w t := by
  induction j generalizing v s with
  | zero =>
    obtain ⟨rfl, rfl⟩ := Prod.mk.inj (Except.ok.inj h)
    rw [Nat.zero_add]
  | succ j ih =>
    rw [Nat.succ_add, readBitsFrom]
    rw [readBitsFrom] at h
    split at h
    · cases h
    · exact ih h

/-- The number the 20 bits of a host write read as. -/
theorem readBitsFrom_hostWriteBits (a : HostAddr) (d : Byte) :
    readBitsFrom listBit 20 0 (hostWriteBits a.toNat d.toNat) = .ok (a.toNat * 256 + d.toNat, []) := by
  have hdata := readBitsFrom_list 8 a.toNat d.toNat []
  have haddr := readBitsFrom_list 12 0 a.toNat (bitsOfNat 8 d.toNat)
  rw [Nat.mod_eq_of_lt d.isLt, List.append_nil] at hdata
  rw [Nat.mod_eq_of_lt a.isLt, Nat.zero_mul, Nat.zero_add] at haddr
  exact (readBitsFrom_add 8 haddr).trans hdata

/-- The 20 bits of a host write decode to its command, or to the error of an ignored write (R33, R55). -/
theorem decode_hostWriteBits (a : HostAddr) (d : Byte) :
    decode .hostWrite (hostWriteBits a.toNat d.toNat) =
      (match hostWriteInstr a d with | some i => .ok (i, []) | none => .error .ignoredWrite) := by
  have ha : BitVec.ofNat 12 ((a.toNat * 256 + d.toNat) / 256) = a := by bv_omega
  have hd : BitVec.ofNat 8 (a.toNat * 256 + d.toNat) = d := by bv_omega
  cases hi : hostWriteInstr a d <;> simp only [decode, hostWriteFromList, readBitsFrom_hostWriteBits, ha, hd, hi]

end Sys2Proof
end

section
/-! SUPPORT. The host's side of the machine (R37, R42, R44, R88): what an engine step leaves alone, what a step is for each due input
and each read of the engine, the address translator. -/

namespace Sys2Proof.Machine

/-! ### What the engine leaves alone -/

/-- What the host, the platform and START set, and no engine step does: CTRL, SRC, FLIPL, the ROM with its parameters and its record
of changes, the read data, the pending inputs, RST (R23, R27, R30, R42, R44). -/
def State.hostSide (s : State) :
    Bool × Bool × RomAddr × Memory × Config.Params × Byte × List Input × List Host.Cell × Bool × Bool :=
  (s.ctrlFlip, s.ctrlIrqEn, s.src, s.rom, s.cfg, s.hrdata, s.inputs, s.romStale, s.flipL, s.rst)

theorem CursorMoved.hostSide_eq {s t : State} (h : CursorMoved s t) : t.hostSide = s.hostSide := by
  obtain ⟨p, y, c, n, rfl⟩ := h
  rfl

theorem EngineMove.hostSide_eq {s t : State} (hm : EngineMove s t) : t.hostSide = s.hostSide := by
  cases hm with
  | cell x w k p _ _ hw hc =>
    obtain ⟨-, _, _, _, _, _, _, _, _, _, -, ht⟩ := cell_frame hw hc k
    rw [ht]
    rfl
  | unpack _ _ => rw [(unpackBy_rebuilt s).frame]; rfl
  | rest | error | header | orient | passSetup | token | interleave => rfl

/-- Settles O45: an engine step moves the bit cursor and makes one engine move, and neither touches the host's side. -/
theorem engineLeavesHostStateAlone : Obligations.EngineLeavesHostStateAlone := by
  intro s t h
  obtain ⟨u, hcursor, hmove⟩ := engineStep_move h
  have hside : t.hostSide = s.hostSide := hmove.hostSide_eq.trans hcursor.hostSide_eq
  simpa only [State.hostSide, Prod.mk.injEq] using hside

/-! ### A step by its due input or its read -/

theorem step_of_dueInput_some {s u : State} {e : Event} (h : dueInput s = some (e, u)) : step s = inputStep e u := by
  rw [step, h]

theorem step_of_dueInput_none {s : State} (h : dueInput s = none) : step s = engineStep (tickInputs s) := by
  rw [step, h]

/-- A complete token runs on the state past it (R50). -/
theorem engineStep_of_token {s t : State} {i : Instr} (h : fetch s = .token i t) : engineStep s = exec i t := by
  rw [engineStep, h]

theorem engineStep_of_more {s t : State} (h : fetch s = .more t) : engineStep s = .next t := by
  rw [engineStep, h]

/-- A read past the ROM raises ROM_OOB with the offset that was to be read (R56, R96). -/
theorem engineStep_of_romOutOfRange {s t : State} (h : fetch s = .romOutOfRange t) :
    engineStep s = .next (raise .romOob t.inPtr t) := by
  rw [engineStep, h]

theorem inputStep_of_command {a : HostAddr} {d : Byte} {i : Instr} (h : hostWriteInstr a d = some i) (s : State) :
    inputStep (.hostWrite a d) s = exec i s := by
  simp only [inputStep, h]

theorem inputStep_of_ignored {a : HostAddr} {d : Byte} (h : hostWriteInstr a d = none) (s : State) :
    inputStep (.hostWrite a d) s = .next s := by
  simp only [inputStep, h]

/-- A placed access is due at once, and then the state is as before (log 9). -/
theorem dueInput_placeAccess (e : Event) (s : State) : dueInput (placeAccess e s) = some (e, s) := rfl

/-- Settles O9: three clauses by what the engine reads, five by the due input, the last by the decoder and the placement. -/
theorem stepRunsTheDecodedInstruction : Obligations.StepRunsTheDecodedInstruction := by
  refine ⟨fun s i t hd hf => ?_, fun s t hd hf => ?_, fun s t hd hf => ?_, fun s a d i t hd hi => ?_,
    fun s a d t hd hi => ?_, fun s a t hd => step_of_dueInput_some hd, fun s a d t hd => step_of_dueInput_some hd,
    fun s level t hd => step_of_dueInput_some hd,
    fun s a d => ⟨decode_hostWriteBits a d, fun _ => dueInput_placeAccess _ s⟩⟩
  · rw [step_of_dueInput_none hd, engineStep_of_token hf]
  · rw [step_of_dueInput_none hd, engineStep_of_more hf]
  · rw [step_of_dueInput_none hd, engineStep_of_romOutOfRange hf]
  · rw [step_of_dueInput_some hd, inputStep_of_command hi]
  · rw [step_of_dueInput_some hd, inputStep_of_ignored hi]

/-! ### The address translator -/

/-- An address below the window is one of bank 0 (R37). -/
theorem resolveAddr_of_lt (bank : Nat) {addr : Nat} (h : addr < 0x4000) : resolveAddr bank addr = addr := if_pos h

/-- An address of the window is an offset into its bank (R37). -/
theorem resolveAddr_window (bank off : Nat) : resolveAddr bank (0x4000 + off) = bank * 0x4000 + off := by
  rw [resolveAddr, if_neg (by omega), Nat.add_sub_cancel_left]

/-- `relativize` gives an address of the window 0x4000 to 0x7FFF (R37). -/
theorem relativizeAddr_window (x : Nat) : 0x4000 ≤ (relativizeAddr x).2 ∧ (relativizeAddr x).2 < 0x8000 := by
  simp only [relativizeAddr]
  omega

/-- `resolve` undoes `relativize`: an offset is its bank times the bank's size and the rest (R37). -/
theorem resolveAddr_relativizeAddr (x : Nat) : resolveAddr (relativizeAddr x).1 (relativizeAddr x).2 = x :=
  (resolveAddr_window _ _).trans (Nat.div_add_mod' x 0x4000)

/-- Settles O51: `resolve` by its two cases, the round trip by division with remainder. -/
theorem addressTranslatorRoundTrips : Obligations.AddressTranslatorRoundTrips := by
  refine ⟨fun bank _ h => resolveAddr_of_lt bank h, fun x _ => ?_, fun m a hlo hhi => ?_⟩
  · obtain ⟨hge, hlt⟩ := relativizeAddr_window x
    exact ⟨hge, hlt, resolveAddr_relativizeAddr x⟩
  · rw [readU16le, hlo, hhi]
    rfl

end Sys2Proof.Machine
end

section
/-! SUPPORT. The encoder and the decoder over lists of bits (R46 to R52, R55): a number and its bits, the header and the host words,
the run tokens, and the two directions of the round trip. -/

namespace Sys2Proof

/-! ### Numbers and their bits -/

/-- Reading `k` bits of a list after the value `v` answers a number that continues `v`, and its `k` low bits are the bits read. -/
theorem readBitsFrom_list_ok {k v w : Nat} {bs r : List Bool} (h : readBitsFrom listBit k v bs = .ok (w, r)) :
    w / 2 ^ k = v ∧ bs = bitsOfNat k w ++ r := by
  induction k generalizing v bs with
  | zero =>
    obtain ⟨rfl, rfl⟩ := Prod.mk.inj (Except.ok.inj h)
    exact ⟨Nat.div_one v, rfl⟩
  | succ k ih =>
    cases bs with
    | nil => cases h
    | cons b bs =>
      obtain ⟨hdiv, rfl⟩ := ih (v := 2 * v + b.toNat) h
      have hlast : b.toNat < 2 := b.toNat_lt
      have hbit : w.testBit k = b := by
        rw [Nat.testBit_eq_decide_div_mod_eq, hdiv]
        cases b <;> simp
      refine ⟨?_, by rw [bitsOfNat, hbit]; rfl⟩
      rw [Nat.pow_succ, ← Nat.div_div_eq_div_mul, hdiv]
      omega

/-- `ReadBits(k)` of a list answers `w` exactly when `w` fits `k` bits and they stand at the front (R9, R47). -/
theorem readBits_list_iff {k w : Nat} {bs r : List Bool} :
    readBitsFrom listBit k 0 bs = .ok (w, r) ↔ w < 2 ^ k ∧ bs = bitsOfNat k w ++ r := by
  constructor
  · intro h
    obtain ⟨hdiv, hbits⟩ := readBitsFrom_list_ok h
    exact ⟨Nat.lt_of_div_eq_zero (Nat.two_pow_pos k) hdiv, hbits⟩
  · rintro ⟨hw, rfl⟩
    rw [readBitsFrom_list, Nat.mod_eq_of_lt hw, Nat.zero_mul, Nat.zero_add]

/-- Two fields one behind the other are the bits of one number, the first field its high part. -/
theorem bitsOfNat_append {j k a b : Nat} (ha : a < 2 ^ j) (hb : b < 2 ^ k) :
    bitsOfNat j a ++ bitsOfNat k b = bitsOfNat (j + k) (a * 2 ^ k + b) := by
  have hfirst := readBitsFrom_list j 0 a (bitsOfNat k b)
  have hsecond := readBitsFrom_list k a b []
  rw [Nat.mod_eq_of_lt ha, Nat.zero_mul, Nat.zero_add] at hfirst
  rw [List.append_nil, Nat.mod_eq_of_lt hb] at hsecond
  have hboth := (readBitsFrom_add k hfirst).trans hsecond
  simpa using (readBits_list_iff.mp hboth).2

/-! ### The header -/

theorem hdrOfByte_append (w h : BitVec 4) : hdrOfByte (w ++ h) = .hdr w h :=
  congrArg₂ Instr.hdr BitVec.extractLsb'_append_eq_left BitVec.extractLsb'_append_eq_right

/-- The two nibbles of a header are its byte, most significant bit first (R47). -/
theorem encode_hdrOfByte (b : Byte) : encode (hdrOfByte b) = bitsOfNat 8 b.toNat := by
  have hb : (b.extractLsb' 4 4).toNat * 2 ^ 4 + (b.extractLsb' 0 4).toNat = b.toNat := by
    simp only [BitVec.extractLsb'_toNat]
    omega
  rw [hdrOfByte, encode, bitsOfNat_append (BitVec.isLt _) (BitVec.isLt _), hb]

/-- The header tokens are those of the bytes, each written by its byte's bits (R46). -/
theorem decode_header_iff {bs r : List Bool} {i : Instr} :
    decode .header bs = .ok (i, r) ↔ ∃ b, i = hdrOfByte b ∧ bs = encode i ++ r := by
  simp only [decode, headerFromList]
  constructor
  · intro h
    split at h
    · cases h
    · rename_i v _ hread
      obtain ⟨hv, rfl⟩ := readBits_list_iff.mp hread
      obtain ⟨rfl, rfl⟩ := Prod.mk.inj (Except.ok.inj h)
      exact ⟨_, rfl, by rw [encode_hdrOfByte, BitVec.toNat_ofNat, Nat.mod_eq_of_lt hv]⟩
  · rintro ⟨b, rfl, rfl⟩
    rw [encode_hdrOfByte, readBits_list_iff.mpr ⟨b.isLt, rfl⟩]
    simp

/-! ### The host port -/

/-- A read command is its 12 address bits (R55). -/
theorem decode_hostRead_iff {bs r : List Bool} {i : Instr} :
    decode .hostRead bs = .ok (i, r) ↔ ∃ a, i = .rd a ∧ bs = encode i ++ r := by
  simp only [decode, hostReadFromList]
  constructor
  · intro h
    split at h
    · cases h
    · rename_i v _ hread
      obtain ⟨hv, rfl⟩ := readBits_list_iff.mp hread
      obtain ⟨rfl, rfl⟩ := Prod.mk.inj (Except.ok.inj h)
      exact ⟨_, rfl, by rw [encode, BitVec.toNat_ofNat, Nat.mod_eq_of_lt hv]⟩
  · rintro ⟨a, rfl, rfl⟩
    rw [encode, readBits_list_iff.mpr ⟨a.isLt, rfl⟩]
    simp

/-- A host write is one number of 20 bits, the address its high part (R55). -/
theorem hostWriteBits_eq (a : HostAddr) (d : Byte) :
    hostWriteBits a.toNat d.toNat = bitsOfNat 20 (a.toNat * 2 ^ 8 + d.toNat) :=
  bitsOfNat_append a.isLt d.isLt

/-- A host write is decoded from its address and data bits, if it is a command (R33, R55). -/
theorem decode_hostWrite_iff {bs r : List Bool} {i : Instr} :
    decode .hostWrite bs = .ok (i, r) ↔
      ∃ a d, hostWriteInstr a d = some i ∧ bs = hostWriteBits a.toNat d.toNat ++ r := by
  simp only [decode, hostWriteFromList]
  constructor
  · intro h
    split at h
    · cases h
    · rename_i w _ hread
      obtain ⟨hw, rfl⟩ := readBits_list_iff.mp hread
      split at h
      · obtain ⟨rfl, rfl⟩ := Prod.mk.inj (Except.ok.inj h)
        have hword : (BitVec.ofNat 12 (w / 256)).toNat * 2 ^ 8 + (BitVec.ofNat 8 w).toNat = w := by
          simp only [BitVec.toNat_ofNat]
          omega
        exact ⟨_, _, ‹_›, by rw [hostWriteBits_eq, hword]⟩
      · cases h
  · rintro ⟨a, d, hi, rfl⟩
    have ha : BitVec.ofNat 12 ((a.toNat * 2 ^ 8 + d.toNat) / 256) = a := by bv_omega
    have hd : BitVec.ofNat 8 (a.toNat * 2 ^ 8 + d.toNat) = d := by bv_omega
    rw [hostWriteBits_eq, readBits_list_iff.mpr ⟨by omega, rfl⟩]
    simp only [ha, hd, hi]

/-- The command of a host write is well formed and is written by that write (R55). -/
theorem hostWriteInstr_some {a : HostAddr} {d : Byte} {i : Instr} (h : hostWriteInstr a d = some i) :
    contextOf i = .hostWrite ∧ WellFormed i = true ∧ encode i = hostWriteBits a.toNat d.toNat := by
  unfold hostWriteInstr at h
  split at h
  · subst a
    split at h <;> cases h
    · exact ⟨rfl, ‹_›, rfl⟩
    · exact ⟨rfl, by simpa [WellFormed] using ‹¬d.getLsbD 0 = true›, rfl⟩
  repeat' split at h
  all_goals cases h
  all_goals subst a; exact ⟨rfl, rfl, rfl⟩

/-- Every well-formed host write command is the command of some write (R55). -/
theorem hostWriteInstr_of_wellFormed {i : Instr} (hc : contextOf i = .hostWrite) (hw : WellFormed i = true) :
    ∃ a d, hostWriteInstr a d = some i := by
  cases i with
  | start d => exact ⟨0x000, d, congrArg some (if_pos hw)⟩
  | ctrlWr d => exact ⟨0x000, d, congrArg some (if_neg (by simpa [WellFormed] using hw))⟩
  | clrSt d => exact ⟨0x001, d, rfl⟩
  | srcWr0 d => exact ⟨0x004, d, rfl⟩
  | srcWr1 d => exact ⟨0x005, d, rfl⟩
  | srcWr2 d => exact ⟨0x006, d, rfl⟩
  | _ => cases hc

/-- Only the data bit of a host write can be wrong (R55). -/
theorem wellFormed_of_context_ne {i : Instr} (h : contextOf i ≠ .hostWrite) : WellFormed i = true := by
  cases i with
  | start | ctrlWr => exact absurd rfl h
  | _ => rfl

/-! ### Runs -/

/-- A run token is written by its count of 1-bits and its value (R46, R47). -/
theorem encode_runToken {n v : Nat} {i : Instr} (hv : v < 2 ^ (n + 1)) (h : runToken n v = some i) :
    encode i = runBits n v := by
  unfold runToken at h
  split at h <;> cases h <;> simp only [encode, BitVec.toNat_ofNat] <;> rw [Nat.mod_eq_of_lt hv]

theorem exists_runToken {n : Nat} (hn : n ≤ 14) (v : Nat) : ∃ i, runToken n v = some i :=
  Option.ne_none_iff_exists'.mp (mt (Machine.runToken_none_iff n v).mp (Nat.not_lt.mpr hn))

/-- A token of the context of runs is the overlong run or the run token of one of the 15 lengths (R51, R52). -/
theorem overlong_or_runToken {i : Instr} (h : contextOf i = .run) :
    i = .runOverlong ∨ ∃ n v, n ≤ 14 ∧ v < 2 ^ (n + 1) ∧ runToken n v = some i := by
  cases i with
  | runOverlong => exact .inl rfl
  | runN0 v | runN1 v | runN2 v | runN3 v | runN4 v | runN5 v | runN6 v | runN7 v | runN8 v | runN9 v | runN10 v | runN11 v
  | runN12 v | runN13 v | runN14 v => exact .inr ⟨_, v.toNat, by decide, v.isLt, by simp [runToken]⟩
  | _ => cases h

/-- After `n` 1-bits and a 0-bit the value is read (R66, R67). -/
theorem runFrom_unary {n : Nat} (h : n ≤ 14) (bs : List Bool) :
    runFrom listBit (Config.rleMaxPrefix + 1) 0 (List.replicate n true ++ false :: bs) = runValueFrom listBit n bs := by
  obtain ⟨m, hm⟩ := Nat.exists_eq_add_of_le h
  have hfuel : Config.rleMaxPrefix + 1 = m + 1 + n := by rw [Config.rleMaxPrefix, hm]; omega
  rw [hfuel, runFrom_ones n (m + 1) 0 _ (by rw [Config.rleMaxPrefix]; omega), Nat.zero_add]
  rfl

/-- A run whose value can be read is decoded to its token (R51). -/
theorem decode_run_of_value {n v : Nat} {i : Instr} {bs r : List Bool} (hn : n ≤ 14) (hi : runToken n v = some i)
    (hread : readBitsFrom listBit (n + 1) 0 bs = .ok (v, r)) :
    decode .run (List.replicate n true ++ false :: bs) = .ok (i, r) := by
  simp only [decode, runFromList, runFrom_unary hn, runValueFrom, hread, hi]

/-- A run whose value cannot be read is cut short (R51). -/
theorem decode_run_of_cut {n : Nat} {e : DecodeError} {bs : List Bool} (hn : n ≤ 14)
    (hread : readBitsFrom listBit (n + 1) 0 bs = .error e) :
    decode .run (List.replicate n true ++ false :: bs) = .error e := by
  simp only [decode, runFromList, runFrom_unary hn, runValueFrom, hread]

/-- The value part of a run, behind its unary part, completes the encoding (R46, R47). -/
theorem runValueFrom_list_ok {n : Nat} {bs r : List Bool} {i : Instr} (h : runValueFrom listBit n bs = .ok (some i, r)) :
    contextOf i = .run ∧ List.replicate n true ++ false :: bs = encode i ++ r := by
  unfold runValueFrom at h
  split at h
  · cases h
  · rename_i hread
    obtain ⟨hv, rfl⟩ := readBits_list_iff.mp hread
    obtain ⟨hi, rfl⟩ := Prod.mk.inj (Except.ok.inj h)
    exact ⟨Machine.runToken_context hi, by rw [encode_runToken hv hi, runBits, List.append_assoc, List.cons_append]⟩

/-- A 1-bit below the bound is counted (R66). -/
theorem runFrom_true (fuel : Nat) {n : Nat} (hn : n ≠ Config.rleMaxPrefix) (bs : List Bool) :
    runFrom listBit (fuel + 1) n (true :: bs) = runFrom listBit fuel (n + 1) bs := by
  simp [runFrom, listBit, runBit, hn]

/-- The bits of a run read after its first `n` 1-bits, with those in front of them, are its encoding (R46, R52). -/
theorem runFrom_ok {fuel n : Nat} {bs r : List Bool} {i : Instr} (hn : n + fuel = 15)
    (h : runFrom listBit fuel n bs = .ok (some i, r)) :
    contextOf i = .run ∧ List.replicate n true ++ bs = encode i ++ r := by
  induction fuel generalizing n bs with
  | zero => cases h
  | succ fuel ih =>
    rcases bs with _ | ⟨_ | _, bs⟩
    · cases h
    · exact runValueFrom_list_ok h
    · by_cases hmax : n = Config.rleMaxPrefix
      · subst hmax
        cases h
        exact ⟨rfl, rfl⟩
      · rw [runFrom_true fuel hmax] at h
        have hcounted := ih (by omega) h
        rwa [List.replicate_succ', List.append_assoc, List.singleton_append] at hcounted

theorem decode_run_ok {bs r : List Bool} {i : Instr} (h : decode .run bs = .ok (i, r)) :
    contextOf i = .run ∧ bs = encode i ++ r := by
  simp only [decode, runFromList] at h
  split at h
  · cases h
  · rename_i hrun
    obtain ⟨rfl, rfl⟩ := Prod.mk.inj (Except.ok.inj h)
    exact runFrom_ok rfl hrun
  · cases h

theorem decode_encode_run {i : Instr} (h : contextOf i = .run) (r : List Bool) :
    decode .run (encode i ++ r) = .ok (i, r) := by
  obtain rfl | ⟨n, v, hn, hv, hi⟩ := overlong_or_runToken h
  · rfl
  · rw [encode_runToken hv hi, runBits, List.append_assoc, List.cons_append]
    exact decode_run_of_value hn hi (readBits_list_iff.mpr ⟨hv, rfl⟩)

/-! ### The round trip -/

/-- Settles O1: the fields of a header, a run or a host access are read back as the numbers written, the other tokens are one
or two fixed bits or none. -/
theorem decodeOfEncodeIsTheInstruction : Obligations.DecodeOfEncodeIsTheInstruction := by
  intro i rest hw
  cases hc : contextOf i with
  | header =>
    obtain ⟨w, h, rfl⟩ : ∃ w h, i = .hdr w h := by cases i <;> cases hc; exact ⟨_, _, rfl⟩
    exact decode_header_iff.mpr ⟨w ++ h, (hdrOfByte_append w h).symm, rfl⟩
  | run => exact decode_encode_run hc rest
  | hostWrite =>
    obtain ⟨a, d, hi⟩ := hostWriteInstr_of_wellFormed hc hw
    obtain ⟨-, -, hbits⟩ := hostWriteInstr_some hi
    exact decode_hostWrite_iff.mpr ⟨a, d, hi, by rw [hbits]⟩
  | hostRead =>
    obtain ⟨a, rfl⟩ : ∃ a, i = .rd a := by cases i <;> cases hc; exact ⟨_, rfl⟩
    exact decode_hostRead_iff.mpr ⟨a, rfl, rfl⟩
  | orient | mode | kind | data | passSetup | rleWrite | unpack | interleave => cases i <;> cases hc <;> rfl

theorem decode_orient_ok {bs r : List Bool} {i : Instr} (h : decode .orient bs = .ok (i, r)) :
    contextOf i = .orient ∧ bs = encode i ++ r := by
  rcases bs with _ | ⟨b, bs⟩ <;> cases h
  exact ⟨rfl, rfl⟩

theorem decode_mode_ok {bs r : List Bool} {i : Instr} (h : decode .mode bs = .ok (i, r)) :
    contextOf i = .mode ∧ bs = encode i ++ r := by
  rcases bs with _ | ⟨_ | _, _ | ⟨_ | _, bs⟩⟩ <;> cases h
  all_goals exact ⟨rfl, rfl⟩

theorem decode_kind_ok {bs r : List Bool} {i : Instr} (h : decode .kind bs = .ok (i, r)) :
    contextOf i = .kind ∧ bs = encode i ++ r := by
  rcases bs with _ | ⟨_ | _, bs⟩ <;> cases h
  all_goals exact ⟨rfl, rfl⟩

theorem decode_data_ok {bs r : List Bool} {i : Instr} (h : decode .data bs = .ok (i, r)) :
    contextOf i = .data ∧ bs = encode i ++ r := by
  rcases bs with _ | ⟨_ | _, _ | ⟨_ | _, bs⟩⟩ <;> cases h
  all_goals exact ⟨rfl, rfl⟩

/-- Settles O2, context by context: what is decoded belongs to the context and was written by its encoding; only a host write
can be ill formed, and the decoder reads the bit that decides. -/
theorem decodedBitsAreTheEncoding : Obligations.DecodedBitsAreTheEncoding := by
  intro c bits rest i h
  by_cases hc : c = .hostWrite
  · subst c
    obtain ⟨a, d, hi, rfl⟩ := decode_hostWrite_iff.mp h
    obtain ⟨hctx, hw, hbits⟩ := hostWriteInstr_some hi
    exact ⟨hctx, hw, by rw [hbits]⟩
  · have hread : contextOf i = c ∧ bits = encode i ++ rest := by
      cases c with
      | header => obtain ⟨b, rfl, hbits⟩ := decode_header_iff.mp h; exact ⟨rfl, hbits⟩
      | orient => exact decode_orient_ok h
      | mode => exact decode_mode_ok h
      | kind => exact decode_kind_ok h
      | data => exact decode_data_ok h
      | run => exact decode_run_ok h
      | hostWrite => exact absurd rfl hc
      | hostRead => obtain ⟨a, rfl, hbits⟩ := decode_hostRead_iff.mp h; exact ⟨rfl, hbits⟩
      | passSetup | rleWrite | unpack | interleave => cases h; exact ⟨rfl, rfl⟩
    obtain ⟨rfl, hbits⟩ := hread
    exact ⟨rfl, wellFormed_of_context_ne hc, hbits⟩

end Sys2Proof
end

section
/-! SUPPORT. The table of run lengths (R48): the count of leading 1-bits and the value of a length from the place of its top bit. -/

namespace Sys2Proof.Machine

/-- The run lengths of `n` go from 2^(n+1) - 1 to 2^(n+2) - 2 (R48). -/
theorem runCount_range {n v : Nat} (hv : v < 2 ^ (n + 1)) :
    2 ^ (n + 1) - 1 ≤ runCount n v ∧ runCount n v ≤ 2 ^ (n + 2) - 2 := by
  have hpow : 2 ^ (n + 2) = 2 * 2 ^ (n + 1) := Nat.pow_succ'
  unfold runCount
  omega

/-- A value that fits gives the length `len` exactly when n+1 is the place of the top bit of `len` + 1 and the value is the
bits below it. -/
theorem runCount_eq_iff {n v len : Nat} (hv : v < 2 ^ (n + 1)) :
    runCount n v = len ↔ Nat.log 2 (len + 1) = n + 1 ∧ v = len + 1 - 2 ^ (n + 1) := by
  have hpos : 0 < 2 ^ (n + 1) := Nat.two_pow_pos _
  unfold runCount
  rw [Nat.log_eq_iff (.inl n.succ_ne_zero)]
  omega

/-- Every run token has the width its count of 1-bits gives (R46, R48). -/
theorem runToken_length {n v : Nat} (hn : n ≤ 14) (hv : v < 2 ^ (n + 1)) :
    ∃ i, runToken n v = some i ∧ (encode i).length = 2 * n + 2 := by
  obtain ⟨i, hi⟩ := exists_runToken hn v
  refine ⟨i, hi, ?_⟩
  simp only [encode_runToken hv hi, runBits, List.length_append, List.length_replicate, List.length_cons, bitsOfNat_length]
  omega

/-- Every length from 1 to 65534 has a code (R48). -/
theorem exists_runCount_eq {len : Nat} (h1 : 1 ≤ len) (h2 : len ≤ 65534) :
    ∃ n v, n ≤ 14 ∧ v < 2 ^ (n + 1) ∧ runCount n v = len := by
  obtain ⟨n, hn⟩ : ∃ n, Nat.log 2 (len + 1) = n + 1 :=
    Nat.exists_eq_succ_of_ne_zero (Nat.log_pos (by decide) (by omega)).ne'
  obtain ⟨hlow, hhigh⟩ := (Nat.log_eq_iff (.inl n.succ_ne_zero)).mp hn
  have hle : n ≤ 14 := by
    have : 2 ^ (n + 1) < 2 ^ 16 := by omega
    have := (Nat.pow_lt_pow_iff_right (by decide)).mp this
    omega
  have hv : len + 1 - 2 ^ (n + 1) < 2 ^ (n + 1) := by omega
  exact ⟨n, _, hle, hv, (runCount_eq_iff hv).mpr ⟨hn, rfl⟩⟩

/-- Settles O3: the place of the top bit of a length plus 1 gives the one count of 1-bits, the bits below it the one value. -/
theorem everyRunLengthHasOneCode : Obligations.EveryRunLengthHasOneCode := by
  refine ⟨fun n hn => ⟨rfl, ?_, fun v hv => ?_⟩, fun len h1 h2 => ?_, fun n v => ?_, fun n v w h hn hw hh => ?_⟩
  · have hpow : 2 ^ (n + 2) = 2 * 2 ^ (n + 1) := Nat.pow_succ'
    unfold runCount
    omega
  · obtain ⟨i, hi, hlength⟩ := runToken_length hn hv
    exact ⟨i, hi, hlength, runCount_range hv⟩
  · obtain ⟨n, v, hn, hv, hlen⟩ := exists_runCount_eq h1 h2
    refine ⟨n, v, hn, hv, hlen, fun n' v' _ hv' hlen' => ?_⟩
    obtain ⟨hlog, rfl⟩ := (runCount_eq_iff hv).mp hlen
    obtain ⟨hlog', rfl⟩ := (runCount_eq_iff hv').mp hlen'
    obtain rfl : n' = n := by omega
    exact ⟨rfl, rfl⟩
  · have : 2 ≤ 2 ^ (n + 1) := Nat.le_self_pow n.succ_ne_zero 2
    unfold runCount
    omega
  · have hcells : w * h ≤ 7 * 7 := Nat.mul_le_mul hw hh
    have hpow : 2 ^ 11 ≤ 2 ^ (n + 1) := Nat.pow_le_pow_right (by decide) (by omega)
    unfold runCount
    rw [Nat.mul_assoc]
    omega

end Sys2Proof.Machine
end

section
/-! SUPPORT. Fixed words written out from the encodings (R46, R47, R54, R55). -/

namespace Sys2Proof

/-- Settles O4, word by word: the decoder runs on each. -/
theorem specWordsDecodeToTheirInstructions : Obligations.SpecWordsDecodeToTheirInstructions := by
  refine ⟨?_, ?_, ?_, ?_, ?_, ?_, ?_, ?_, ?_, ?_, ?_⟩ <;> decide

end Sys2Proof
end

section
/-! SUPPORT. The engine's read and the decoder (R50 to R52, R58 to R67): the token readers over the ROM's bit cursor answer what they
answer over the list of the unread bits. -/

namespace Sys2Proof.Machine

/-! ### Readers over the ROM and over the unread bits -/

theorem cursorReady_of_inv {s : State} (hm : MemoryInv s) (hp : PassInv s) (hs : s.romStale = []) : CursorReady s :=
  ⟨hp.cnt_le, hm.size_range.2, hs⟩

/-- A read over the ROM and the same read over a list agree: the value is the same and the rest are the bits then unread, or the
ROM ends where the list is cut short. -/
def ReadsAlike {α : Type} (r : Except State (α × State)) (l : Except DecodeError (α × List Bool)) : Prop :=
  (∃ a t, r = .ok (a, t) ∧ l = .ok (a, unreadBits t) ∧ CursorReady t) ∨
    ∃ e, r = .error e ∧ l = .error .truncated ∧ e.cfg.romSize ≤ e.inPtr.toNat

theorem readBit_alike {s : State} (h : CursorReady s) : ReadsAlike (readBit s) (listBit (unreadBits s)) := by
  obtain ⟨hnil, hread⟩ | ⟨b, t, hread, hbits, ht⟩ := readBit_cases h
  · exact .inr ⟨s, hread, by rw [hnil]; rfl, (readBit_error hread).2.2⟩
  · exact .inl ⟨b, t, hread, by rw [hbits]; rfl, ht⟩

theorem readBits_alike (k v : Nat) {s : State} (h : CursorReady s) :
    ReadsAlike (readBitsFrom readBit k v s) (readBitsFrom listBit k v (unreadBits s)) := by
  induction k generalizing v s with
  | zero => exact .inl ⟨v, s, rfl, rfl, h⟩
  | succ k ih =>
    obtain ⟨b, t, hr, hl, ht⟩ | ⟨e, hr, hl, he⟩ := readBit_alike h
    · simpa only [readBitsFrom, hr, hl] using ih (2 * v + b.toNat) ht
    · exact .inr ⟨e, by simp only [readBitsFrom, hr], by simp only [readBitsFrom, hl], he⟩

theorem orientFrom_alike {s : State} (h : CursorReady s) :
    ReadsAlike (orientFrom readBit s) (orientFrom listBit (unreadBits s)) := by
  unfold orientFrom
  obtain ⟨b, t, hr, hl, ht⟩ | ⟨e, hr, hl, he⟩ := readBit_alike h <;> rw [hr, hl]
  · exact .inl ⟨_, t, rfl, rfl, ht⟩
  · exact .inr ⟨e, rfl, rfl, he⟩

theorem kindFrom_alike {s : State} (h : CursorReady s) :
    ReadsAlike (kindFrom readBit s) (kindFrom listBit (unreadBits s)) := by
  unfold kindFrom
  obtain ⟨b, t, hr, hl, ht⟩ | ⟨e, hr, hl, he⟩ := readBit_alike h <;> rw [hr, hl]
  · exact .inl ⟨_, t, rfl, rfl, ht⟩
  · exact .inr ⟨e, rfl, rfl, he⟩

theorem pairFrom_alike {s : State} (h : CursorReady s) :
    ReadsAlike (pairFrom readBit s) (pairFrom listBit (unreadBits s)) := by
  unfold pairFrom
  obtain ⟨c, t, hr, hl, ht⟩ | ⟨e, hr, hl, he⟩ := readBits_alike 2 0 h <;> rw [hr, hl]
  · exact .inl ⟨_, t, rfl, rfl, ht⟩
  · exact .inr ⟨e, rfl, rfl, he⟩

theorem modeFrom_alike {s : State} (h : CursorReady s) :
    ReadsAlike (modeFrom readBit s) (modeFrom listBit (unreadBits s)) := by
  unfold modeFrom
  obtain ⟨b, t, hr, hl, ht⟩ | ⟨e, hr, hl, he⟩ := readBit_alike h <;> rw [hr, hl]
  · cases b with
    | false => exact .inl ⟨_, t, rfl, rfl, ht⟩
    | true =>
      obtain ⟨m, u, hr2, hl2, hu⟩ | ⟨e, hr2, hl2, he⟩ := readBit_alike ht <;> simp only [hr2, hl2]
      · exact .inl ⟨_, u, rfl, rfl, hu⟩
      · exact .inr ⟨e, rfl, rfl, he⟩
  · exact .inr ⟨e, rfl, rfl, he⟩

/-! ### The engine's read -/

/-- A step's read and what the decoder answers agree: the same token and rest, or the ROM ends where the bits are cut short. -/
def FetchesAs (f : Fetched) (l : Except DecodeError (Instr × List Bool)) : Prop :=
  (∃ i t, f = .token i t ∧ l = .ok (i, unreadBits t)) ∨
    ∃ t, f = .romOutOfRange t ∧ l = .error .truncated ∧ t.cfg.romSize ≤ t.inPtr.toNat

theorem ReadsAlike.fetchesAs {r : Except State (Instr × State)} {l : Except DecodeError (Instr × List Bool)}
    (h : ReadsAlike r l) : FetchesAs (ofToken r) l := by
  obtain ⟨i, t, rfl, rfl, -⟩ | ⟨e, rfl, rfl, he⟩ := h
  · exact .inl ⟨i, t, rfl, rfl⟩
  · exact .inr ⟨e, rfl, rfl, he⟩

/-- With no bit left in `IN_BYTE`, a byte that is fetched was the first eight unread bits (R38, R56). -/
theorem unreadBits_fetched {s : State} (h : CursorReady s) (h0 : s.inCnt = 0) (hp : s.inPtr.toNat < s.cfg.romSize) :
    unreadBits s = bitsOfNat 8 (s.rom.read s.inPtr.toNat).toNat ++ unreadBits { s with inPtr := s.inPtr + 1 } := by
  rw [unreadBits_refill h h0 hp]
  simp [unreadBits, h0, List.take_of_length_le]

/-- HEADER reads the whole byte that the decoder reads bit by bit (R58). -/
theorem fetchHeader_fetchesAs {s : State} (h : CursorReady s) (h0 : s.inCnt = 0) :
    FetchesAs (fetchHeader s) (decode .header (unreadBits s)) := by
  by_cases hp : s.cfg.romSize ≤ s.inPtr.toNat
  · exact .inr ⟨s, by simp only [fetchHeader, romFetch, if_pos hp], by rw [unreadBits_at_end h0 hp]; rfl, hp⟩
  · have hfetch : romFetch s = .ok (s.rom.read s.inPtr.toNat, { s with inPtr := s.inPtr + 1 }) := by
      simp only [romFetch, if_neg hp, romByte_unchanged s _ (by simp [h.unchanged])]
    refine .inl ⟨_, _, by rw [fetchHeader, hfetch], decode_header_iff.mpr ⟨_, rfl, ?_⟩⟩
    rw [encode_hdrOfByte, unreadBits_fetched h h0 (Nat.not_le.mp hp)]

/-- RLE_VALUE reads the value the decoder reads behind the unary part (R67). -/
theorem fetchRunValue_fetchesAs {s : State} (h : CursorReady s) (hn : s.rlen.toNat ≤ 14) :
    FetchesAs (fetchRunValue s) (decode .run (List.replicate s.rlen.toNat true ++ false :: unreadBits s)) := by
  obtain ⟨v, t, hr, hl, -⟩ | ⟨e, hr, hl, he⟩ := readBits_alike (s.rlen.toNat + 1) 0 h
  · obtain ⟨i, hi⟩ := exists_runToken hn v
    exact .inl ⟨i, t, by simp only [fetchRunValue, runValueFrom, hr, hi], decode_run_of_value hn hi hl⟩
  · exact .inr ⟨e, by simp only [fetchRunValue, runValueFrom, hr], decode_run_of_cut hn hl, he⟩

/-- What a step reads, phase by phase, is what the decoder reads from the unread bits (R50); a run's unary part is read one bit a
step instead. -/
theorem fetch_fetchesAs_decode {s : State} {c : Context} (h : CursorReady s) (hp : PassInv s) (hc : phaseContext s.phase = some c)
    (hr : s.phase ≠ .rlePrefix) : FetchesAs (fetch s) (decode c (tokenBits s)) := by
  unfold fetch tokenBits
  cases hphase : s.phase <;> rw [hphase] at hc <;> cases hc
  case header => exact fetchHeader_fetchesAs h (hp.header_aligned hphase)
  case orient => exact (orientFrom_alike h).fetchesAs
  case mode => exact (modeFrom_alike h).fetchesAs
  case kind => exact (kindFrom_alike h).fetchesAs
  case data => exact (pairFrom_alike h).fetchesAs
  case rlePrefix => exact absurd hphase hr
  case rleValue => exact fetchRunValue_fetchesAs h hp.rlen_le
  case passSetup | rleWrite | unpack | interleave => exact .inl ⟨_, s, rfl, rfl⟩

/-! ### The unary part of a run -/

theorem readBit_of_unread {s : State} {b : Bool} {rest : List Bool} (h : CursorReady s) (hb : unreadBits s = b :: rest) :
    ∃ t, readBit s = .ok (b, t) ∧ unreadBits t = rest := by
  obtain ⟨hnil, -⟩ | ⟨b', t, hread, hbits, -⟩ := readBit_cases h
  · cases hnil.symm.trans hb
  · obtain ⟨rfl, rfl⟩ := List.cons.inj (hbits.symm.trans hb)
    exact ⟨t, hread, rfl⟩

/-- The 0-bit that ends the unary part leads to the value (R66). -/
theorem fetchRunBit_of_false {s t : State} (h : readBit s = .ok (false, t)) :
    fetchRunBit s = .more (t.setPhase .rleValue) := by
  simp only [fetchRunBit, h]
  rfl

/-- A 1-bit below the bound is counted (R66). -/
theorem fetchRunBit_of_true {s t : State} (h : readBit s = .ok (true, t)) (hn : s.rlen.toNat ≠ Config.rleMaxPrefix) :
    fetchRunBit s = .more { t with rlen := t.rlen + 1 } := by
  simp only [fetchRunBit, h, runBit, if_true, if_neg hn]

/-- A bit of the unary part that does not complete a token moves from the unread bits to those already read (R66). -/
theorem fetchRunBit_more {s : State} {b : Bool} {rest : List Bool} (h : CursorReady s) (hp : s.phase = .rlePrefix)
    (hn : s.rlen.toNat ≤ 14) (hb : unreadBits s = b :: rest) (hlast : ¬(b = true ∧ s.rlen = 14)) :
    ∃ t, fetchRunBit s = .more t ∧ tokenBits t = tokenBits s ∧ unreadBits t = rest := by
  obtain ⟨t, hread, hrest⟩ := readBit_of_unread h hb
  have hframe : t.phase = .rlePrefix ∧ t.rlen = s.rlen := by
    obtain ⟨_, _, _, _, rfl⟩ := readBit_moved hread
    exact ⟨hp, rfl⟩
  obtain ⟨htp, htr⟩ := hframe
  have hs : tokenBits s = List.replicate s.rlen.toNat true ++ b :: rest := by rw [tokenBits, hp, hb]
  cases b with
  | false =>
    refine ⟨_, fetchRunBit_of_false hread, ?_, hrest⟩
    rw [hs, ← htr, ← hrest]
    rfl
  | true =>
    have hlt : s.rlen.toNat ≠ Config.rleMaxPrefix := fun he => hlast ⟨rfl, BitVec.eq_of_toNat_eq he⟩
    have hcount : (t.rlen + 1).toNat = s.rlen.toNat + 1 := by
      rw [htr]
      unfold Config.rleMaxPrefix at hlt
      bv_omega
    have ht : tokenBits { t with rlen := t.rlen + 1 } = List.replicate (t.rlen + 1).toNat true ++ unreadBits t := by
      rw [tokenBits, htp]
      rfl
    refine ⟨_, fetchRunBit_of_true hread hlt, ?_, hrest⟩
    rw [ht, hs, hcount, hrest, List.replicate_succ', List.append_assoc, List.singleton_append]

/-- Settles O8, phase by phase: the readers agree over both sources; a run's unary part moves one bit of its token a step. -/
theorem engineReadsTheDecodedToken : Obligations.EngineReadsTheDecodedToken := by
  intro s c hm hp hs hc
  have h := cursorReady_of_inv hm hp hs
  refine ⟨fun hr => ?_, fun hr => ?_⟩
  · obtain ⟨i, t, hf, hd⟩ | ⟨t, hf, hd, ht⟩ := fetch_fetchesAs_decode h hp hc hr <;> rw [hf, hd]
    · refine ⟨fun i' rest he => ?_, nofun⟩
      obtain ⟨rfl, rfl⟩ := Prod.mk.inj (Except.ok.inj he)
      exact ⟨t, rfl, rfl⟩
    · obtain ⟨⟨_, _, _, _, rfl⟩, -⟩ := fetch_romOutOfRange hf
      exact ⟨nofun, fun _ => ⟨_, rfl, ht⟩⟩
  · have hfetch : fetch s = fetchRunBit s := by rw [fetch, hr]
    rw [hfetch]
    refine ⟨fun hnil => ?_, fun rest hb hlen => ?_, fun b rest hb hlast => fetchRunBit_more h hr hp.rlen_le hb hlast⟩
    · obtain ⟨-, hread⟩ | ⟨b, t, -, hbits, -⟩ := readBit_cases h
      · simp only [fetchRunBit, hread]
      · cases hnil.symm.trans hbits
    · obtain ⟨t, hread, hrest⟩ := readBit_of_unread h hb
      exact ⟨t, by simp only [fetchRunBit, hread, hlen]; rfl, hrest⟩

end Sys2Proof.Machine
end

section
/-! SUPPORT. The bit cursor over one engine step (R15, R56, R57): what one fetch and one bit read keep, the whole read keeps. -/

namespace Sys2Proof.Machine

/-! ### What a read leaves -/

/-- The state a read leaves behind, whether it answers or fails. -/
def leftBy {α : Type} : Except State (α × State) → State
  | .error e => e
  | .ok r => r.2

theorem CursorMoved.phase_eq {s t : State} (h : CursorMoved s t) : t.phase = s.phase := by
  obtain ⟨p, y, c, n, rfl⟩ := h
  rfl

theorem romFetch_leaves (s : State) : CursorMoved s (leftBy (romFetch s)) := by
  cases hr : romFetch s with
  | error e => exact (romFetch_error hr).1 ▸ CursorMoved.refl s
  | ok r => exact romFetch_moved hr

theorem readBit_leaves (s : State) : CursorMoved s (leftBy (readBit s)) := by
  cases hr : readBit s with
  | error e => exact readBit_error_moved hr
  | ok r => exact readBit_moved hr

/-- A fetch leaves the count of unread bits as it is (R56). -/
theorem romFetch_inCnt (s : State) : (leftBy (romFetch s)).inCnt = s.inCnt := by
  unfold romFetch
  split
  · rfl
  · unfold romByte
    split <;> rfl

/-- A bit read keeps the count of unread bits in its range (R15, R57). -/
theorem readBit_cnt_le {s : State} (h : s.inCnt.toNat ≤ 8) : (leftBy (readBit s)).inCnt.toNat ≤ 8 := by
  unfold readBit
  split
  · have hf := romFetch_inCnt s
    cases hr : romFetch s <;> rw [hr] at hf
    · exact hf ▸ h
    · show (8#4 - 1).toNat ≤ 8
      decide
  · show (s.inCnt - 1).toNat ≤ 8
    bv_omega

/-- The engine's read leaves `u` behind, with a complete token or at the end of the ROM. -/
def Fetched.EndsAt (f : Fetched) (u : State) : Prop := f = .romOutOfRange u ∨ ∃ i, f = .token i u

theorem ofToken_endsAt {r : Except State (Instr × State)} {u : State} (h : (ofToken r).EndsAt u) : u = leftBy r := by
  rcases h with h | ⟨i, h⟩
  · rw [ofToken_romOutOfRange h]; rfl
  · rw [ofToken_token h]; rfl

theorem fetchHeader_endsAt {s u : State} (h : (fetchHeader s).EndsAt u) : u = leftBy (romFetch s) := by
  unfold fetchHeader at h
  cases hr : romFetch s <;> rw [hr] at h <;> rcases h with h | ⟨i, h⟩ <;> cases h <;> rfl

theorem fetchRunBit_endsAt {s u : State} (h : (fetchRunBit s).EndsAt u) : u = leftBy (readBit s) := by
  unfold fetchRunBit at h
  cases hr : readBit s with
  | error e => rw [hr] at h; rcases h with h | ⟨i, h⟩ <;> cases h; rfl
  | ok r =>
    simp only [hr] at h
    split at h <;> rcases h with h | ⟨i, h⟩ <;> cases h
    rfl

theorem fetchRunValue_endsAt {s u : State} (h : (fetchRunValue s).EndsAt u) :
    u = leftBy (runValueFrom readBit s.rlen.toNat s) := by
  unfold fetchRunValue at h
  split at h <;> rename_i hr <;> rcases h with h | ⟨i, h⟩ <;> cases h <;> rw [hr] <;> rfl

/-! ### What one bit read keeps, the token readers keep -/

section
variable {P : State → Prop} (hbit : ∀ t, P t → P (leftBy (readBit t)))
include hbit

theorem readBits_keeps (k v : Nat) {s : State} (hs : P s) : P (leftBy (readBitsFrom readBit k v s)) := by
  induction k generalizing v s with
  | zero => exact hs
  | succ k ih =>
    have h := hbit s hs
    unfold readBitsFrom
    cases hr : readBit s with
    | error e => rwa [hr] at h
    | ok r => rw [hr] at h; exact ih _ h

theorem orientFrom_keeps {s : State} (hs : P s) : P (leftBy (orientFrom readBit s)) := by
  have h := hbit s hs
  unfold orientFrom
  cases hr : readBit s <;> rwa [hr] at h

theorem kindFrom_keeps {s : State} (hs : P s) : P (leftBy (kindFrom readBit s)) := by
  have h := hbit s hs
  unfold kindFrom
  cases hr : readBit s <;> rwa [hr] at h

theorem pairFrom_keeps {s : State} (hs : P s) : P (leftBy (pairFrom readBit s)) := by
  have h := readBits_keeps hbit 2 0 hs
  unfold pairFrom
  cases hr : readBitsFrom readBit 2 0 s <;> rwa [hr] at h

theorem runValueFrom_keeps (n : Nat) {s : State} (hs : P s) : P (leftBy (runValueFrom readBit n s)) := by
  have h := readBits_keeps hbit (n + 1) 0 hs
  unfold runValueFrom
  cases hr : readBitsFrom readBit (n + 1) 0 s <;> rwa [hr] at h

theorem modeFrom_keeps {s : State} (hs : P s) : P (leftBy (modeFrom readBit s)) := by
  have h := hbit s hs
  unfold modeFrom
  rcases hr : readBit s with e | ⟨b, t⟩ <;> rw [hr] at h
  · exact h
  · cases b with
    | false => exact h
    | true =>
      have h2 := hbit t h
      dsimp only
      cases hr2 : readBit t <;> rwa [hr2] at h2

end

/-- What the fetch of the header byte keeps in HEADER, and one bit read in every other phase, the engine's read keeps. -/
theorem fetch_keeps {P : State → Prop} {s : State} (hbyte : s.phase = .header → P s → P (leftBy (romFetch s)))
    (hbit : s.phase ≠ .header → ∀ t, P t → P (leftBy (readBit t))) (hs : P s) {u : State} (hu : (fetch s).EndsAt u) : P u := by
  have here {i : Instr} (h : (Fetched.token i s).EndsAt u) : P u := by
    rcases h with h | ⟨j, h⟩ <;> cases h
    exact hs
  unfold fetch at hu
  by_cases hp : s.phase = .header
  · rw [hp] at hu
    exact fetchHeader_endsAt hu ▸ hbyte hp hs
  · have hbit := hbit hp
    cases hq : s.phase <;> rw [hq] at hu
    case header => exact absurd hq hp
    case idle | done | error => rcases hu with h | ⟨i, h⟩ <;> cases h
    case orient => exact ofToken_endsAt hu ▸ orientFrom_keeps hbit hs
    case mode => exact ofToken_endsAt hu ▸ modeFrom_keeps hbit hs
    case kind => exact ofToken_endsAt hu ▸ kindFrom_keeps hbit hs
    case data => exact ofToken_endsAt hu ▸ pairFrom_keeps hbit hs
    case rlePrefix => exact fetchRunBit_endsAt hu ▸ hbit s hs
    case rleValue => exact fetchRunValue_endsAt hu ▸ runValueFrom_keeps hbit _ hs
    case passSetup | rleWrite | unpack | interleave => exact here hu

/-- How an engine step ends, from a state that meets what its read keeps (R50, R56, R66, R105). -/
theorem engineStep_cases {P : State → Prop} {s t : State} (hbyte : s.phase = .header → P s → P (leftBy (romFetch s)))
    (hbit : s.phase ≠ .header → ∀ t, P t → P (leftBy (readBit t))) (hs : P s) (h : engineStep s = .next t) :
    (∃ i u, P u ∧ ReadsIn u.phase (contextOf i) ∧ exec i u = .next t) ∨
    (∃ u, P u ∧ u.phase = .rlePrefix ∧ u.rlen.toNat ≠ Config.rleMaxPrefix ∧ t = { u with rlen := u.rlen + 1 }) ∨
    (∃ u, P u ∧ u.phase = .rlePrefix ∧ t = u.setPhase .rleValue) ∨
    (∃ u, P u ∧ t = raise .romOob u.inPtr u) ∨ t = s := by
  rcases engineStep_next h with ⟨i, u, hf, ⟨p, y, c, n, rfl⟩, hc, he⟩ | hmore | ⟨u, hf, rfl⟩ | ⟨-, rfl⟩
  · exact .inl ⟨i, _, fetch_keeps hbyte hbit hs (.inr ⟨i, hf⟩), readsIn_of_phaseContext hc, he⟩
  · obtain ⟨hp, b, u, hread, ⟨p, y, c, n, rfl⟩, hb⟩ := fetch_more hmore
    have hu := hbit (by rw [hp]; exact nofun) s hs
    rw [hread] at hu
    rcases hb with ⟨-, hn, rfl⟩ | ⟨-, rfl⟩
    · exact .inr (.inl ⟨_, hu, hp, hn, rfl⟩)
    · exact .inr (.inr (.inl ⟨_, hu, hp, rfl⟩))
  · exact .inr (.inr (.inr (.inl ⟨u, fetch_keeps hbyte hbit hs (.inl hf), rfl⟩)))
  · exact .inr (.inr (.inr (.inr rfl)))

/-! ### `IN_PTR` in its range -/

/-- `IN_PTR` in its range of R14, in a ROM whose offsets do not wrap (R5). -/
structure PointerInRange (s : State) : Prop where
  size_le : s.cfg.romSize ≤ Config.romSizeMax
  ptr_le : s.inPtr.toNat ≤ s.cfg.romSize

/-- A fetch moves `IN_PTR` only from below ROM_SIZE (R56). -/
theorem PointerInRange.romFetch {s : State} (h : PointerInRange s) : PointerInRange (leftBy (romFetch s)) := by
  rcases hr : Machine.romFetch s with e | ⟨b, t⟩
  · rw [(romFetch_error hr).1]
    exact h
  · obtain ⟨hlt, -, ht⟩ := romFetch_ok hr
    have hmax : s.cfg.romSize ≤ 0x800000 := h.size_le
    have hnext : (s.inPtr + 1).toNat ≤ s.cfg.romSize := by bv_omega
    obtain ⟨p, y, c, n, hm⟩ := romByte_moved s s.inPtr.toNat
    rw [hm] at ht
    rw [ht]
    exact ⟨h.size_le, hnext⟩

theorem PointerInRange.readBit {s : State} (h : PointerInRange s) : PointerInRange (leftBy (readBit s)) := by
  unfold Machine.readBit
  split
  · have hf := h.romFetch
    cases hr : Machine.romFetch s <;> rw [hr] at hf
    · exact hf
    · exact { hf with }
  · exact { h with }

/-- Past the read no move of the engine touches the bit cursor (R50). -/
theorem EngineMove.inPtr_eq {s t : State} (hm : EngineMove s t) : t.inPtr = s.inPtr := by
  cases hm with
  | cell x w k p _ _ hw hc =>
    obtain ⟨-, _, _, _, _, _, _, _, _, _, -, ht⟩ := cell_frame hw hc k
    rw [ht]
  | unpack _ _ => rw [(unpackBy_rebuilt s).frame]; rfl
  | rest | error | header | orient | passSetup | token | interleave => rfl

theorem PointerInRange.move {s t : State} (h : PointerInRange s) (hm : EngineMove s t) : PointerInRange t := by
  have hside := hm.hostSide_eq
  simp only [State.hostSide, Prod.mk.injEq] at hside
  obtain ⟨-, -, -, -, hcfg, -⟩ := hside
  exact ⟨hcfg ▸ h.size_le, by rw [hm.inPtr_eq, hcfg]; exact h.ptr_le⟩

theorem PointerInRange.engineStep {s t : State} (h : PointerInRange s) (ht : engineStep s = .next t) : PointerInRange t := by
  rcases engineStep_cases (fun _ => PointerInRange.romFetch) (fun _ _ => PointerInRange.readBit) h ht with
    ⟨i, u, hu, hr, he⟩ | ⟨u, hu, -, -, rfl⟩ | ⟨u, hu, -, rfl⟩ | ⟨u, hu, rfl⟩ | rfl
  · exact hu.move (exec_move hr he)
  · exact { hu with }
  · exact { hu with }
  · exact { hu with }
  · exact h

end Sys2Proof.Machine
end

section
/-! SUPPORT. The pass invariant (R14, R18 to R22, R25): what each token of the engine and each input makes of the ranges and of the
geometry of a pass. -/

namespace Sys2Proof.Machine

/-! ### What the invariant does not look at -/

theorem PassInv.writeWm {s : State} (h : PassInv s) (a : Nat) (v : Byte) : PassInv (s.writeWm a v) :=
  { h with geometry := fun hp => { h.geometry hp with } }

theorem PassInv.setInputs {s : State} (h : PassInv s) (l : List Input) : PassInv { s with inputs := l } :=
  { h with geometry := fun hp => { h.geometry hp with } }

/-- The bit cursor may move within its range, but with an aligned header (R15, R58). -/
theorem PassInv.moved {s t : State} (h : PassInv s) (hm : CursorMoved s t) (hc : t.inCnt.toNat ≤ 8)
    (ha : s.phase = .header → t.inCnt = 0) : PassInv t := by
  obtain ⟨p, y, c, n, rfl⟩ := hm
  exact { h with cnt_le := hc, header_aligned := ha, geometry := fun hp => { h.geometry hp with } }

theorem PassInv.romFetch {s : State} (h : PassInv s) : PassInv (leftBy (romFetch s)) :=
  h.moved (romFetch_leaves s) (romFetch_inCnt s ▸ h.cnt_le) (romFetch_inCnt s ▸ h.header_aligned)

theorem PassInv.readBit {s : State} (h : PassInv s) (hp : s.phase ≠ .header) : PassInv (leftBy (readBit s)) :=
  h.moved (readBit_leaves s) (readBit_cnt_le h.cnt_le) fun hh => absurd hh hp

/-! ### The geometry under the advance -/

/-- The geometry of a legal header keeps the counters and the focus pointers in their ranges (R14, R25). -/
theorem PassGeometry.ranges {s : State} (g : PassGeometry s) (hw : legalDim s.tilesWide = true)
    (hh : legalDim s.tilesHigh = true) :
    s.pptr.toNat < Config.outSize ∧ s.sptr.toNat < Config.outSize ∧ s.row.toNat ≤ 55 ∧ ∃ c, c ≤ 6 ∧ s.col.toNat = 8 * c := by
  have hsize := Machine.spriteBytes_le hw hh
  obtain ⟨j, hj, hpptr⟩ := g.pptr_inside
  obtain ⟨c, hc, hcol, hsptr⟩ := g.column
  have hrow := g.row_lt
  obtain ⟨-, hw7⟩ := (legalDim_iff _).mp hw
  obtain ⟨-, hh7⟩ := (legalDim_iff _).mp hh
  have hcs : c * (8 * s.tilesHigh) + 0 < s.spriteBytes := column_byte_lt hc (by omega)
  refine ⟨?_, ?_, by omega, c, by omega, hcol⟩
  · rw [hpptr]; exact plane_byte_lt (by omega)
  · rw [hsptr]; exact plane_byte_lt (by omega)

/-- While the pass goes on, the advance moves to the next row, to the first row of the next bit pair, or to the first row of the
next column (R25, R69). -/
theorem PassGeometry.advance {s : State} (g : PassGeometry s) (hw : legalDim s.tilesWide = true)
    (hh : legalDim s.tilesHigh = true) (hnext : (advance s).1 = .notYetReady) : PassGeometry (advance s).2 := by
  obtain ⟨hpptr, -, hrow55, -⟩ := g.ranges hw hh
  unfold Config.outSize at hpptr
  have hrow := g.row_lt
  have hpos := ((legalDim_iff _).mp hh).1
  have hw7 := ((legalDim_iff _).mp hw).2
  rcases advance_cases s with ⟨hr, ha⟩ | ⟨-, -, ha⟩ | ⟨hr, -, hlast, ha⟩ | ⟨-, -, -, -, ha⟩ | ⟨-, -, -, -, ha⟩
  · have hrow1 : (s.row + 1).toNat = s.row.toNat + 1 := by bv_omega
    have hpptr1 : (s.pptr + 1).toNat = s.pptr.toNat + 1 := by bv_omega
    rw [ha]
    refine ⟨?_, g.column, ?_⟩
    · show (s.row + 1).toNat < 8 * s.tilesHigh
      omega
    · show (s.pptr + 1).toNat = s.sptr.toNat + (s.row + 1).toNat
      rw [hpptr1, hrow1, g.pptr_eq, Nat.add_assoc]
  · rw [ha]
    refine ⟨?_, g.column, rfl⟩
    show 0 < 8 * s.tilesHigh
    omega
  · obtain ⟨c, hc, hcol, hsptr⟩ := g.column
    have hcol1 : (s.col + 8).toNat = 8 * (c + 1) := by bv_omega
    have hpptr1 : (s.pptr + 1).toNat = s.pptr.toNat + 1 := by bv_omega
    rw [ha]
    refine ⟨?_, ⟨c + 1, ?_, hcol1, ?_⟩, rfl⟩
    · show 0 < 8 * s.tilesHigh
      omega
    · show c + 1 < s.tilesWide
      omega
    · show (s.pptr + 1).toNat = (planeBase s.orient).toNat + (c + 1) * (8 * s.tilesHigh)
      rw [hpptr1, g.pptr_eq, hsptr, Nat.add_one_mul c]
      omega
  · rw [ha] at hnext; cases hnext
  · rw [ha] at hnext; cases hnext

/-! ### The tokens of a pass -/

theorem phase_of_inPass {p : Phase} (h : inPass p = true) : passesDone p = false ∧ p ≠ .header ∧ p ≠ .orient := by
  cases p <;> simp_all [inPass, passesDone]

/-- Inside a pass the mode, the unary count and the run count may take any value of their ranges, the mode in the second pass only
(R61, R62, R65 to R67). -/
theorem PassInv.token {s : State} (h : PassInv s) {m : BitVec 2} {n : BitVec 4} {k : BitVec 16} {p : Phase}
    (hp : inPass s.phase = true) (hq : inPass p = true) (hu : passUnbegun p = true → passUnbegun s.phase = true)
    (hpm : p = .mode → s.fpd = true) (hm : m.toNat ≤ 2) (hmu : s.fpd = false → m = 0) (hn : n.toNat ≤ 14) (hk : k.toNat ≤ 65534)
    (hpos : p = .rleWrite → 1 ≤ k.toNat) :
    PassInv { s with mode := m, rlen := n, rlecnt := k, phase := p } := by
  obtain ⟨hdone, hph, hpo⟩ := phase_of_inPass hq
  exact { h with
    mode_le := hm
    mode_unread := hmu
    rlen_le := hn
    count_le := hk
    count_pos := hpos
    dims := fun _ => h.dims (headerPassed_of_inPass hp)
    geometry := fun _ => { h.geometry hp with }
    at_start := fun hs => h.at_start (.inl (hs.elim hu fun hd => absurd hd (by simp [hdone])))
    first_pass := fun hf => (hf.elim hph hpo).elim
    second_pass := fun hf => hf.elim hpm fun hd => absurd hd (by simp [hdone])
    header_aligned := fun hf => absurd hf hph }

/-- A complete run token counts at least one cell and at most 65534 (R47, R48, R67). -/
theorem PassInv.startRun {s : State} (h : PassInv s) (hp : inPass s.phase = true) {n v : Nat} (hn : n ≤ 14)
    (hv : v < 2 ^ (n + 1)) : PassInv (startRun n v s) := by
  obtain ⟨hlow, hhigh⟩ := runCount_range hv
  have h1 : 2 ^ 1 ≤ 2 ^ (n + 1) := Nat.pow_le_pow_right (by decide) (by omega)
  have h2 : 2 ^ (n + 2) ≤ 2 ^ 16 := Nat.pow_le_pow_right (by decide) (by omega)
  have hk : (BitVec.ofNat 16 (runCount n v)).toNat = runCount n v := by
    rw [BitVec.toNat_ofNat]; exact Nat.mod_eq_of_lt (by omega)
  refine h.token hp rfl nofun nofun h.mode_le h.mode_unread ?_ (by omega) fun _ => by omega
  rw [BitVec.toNat_ofNat]
  omega

/-- An error leaves the ranges and asks nothing of the geometry (R96). -/
theorem PassInv.raise {s : State} (h : PassInv s) (b : Byte) {n : BitVec 4} (hn : n.toNat ≤ 14) (c : ErrCode) (a : RomAddr) :
    PassInv (raise c a { s with hdr := b, rlen := n }) :=
  { h with
    rlen_le := hn
    count_pos := nofun, dims := nofun, geometry := nofun, at_start := nofun, first_pass := nofun, second_pass := nofun
    header_aligned := nofun }

/-- The header goes on to ORIENT with legal dimensions only (R58). -/
theorem PassInv.execHdr {s t : State} (h : PassInv s) (hp : s.phase = .header) {w b : BitVec 4}
    (ht : execHdr w b s = .next t) : PassInv t := by
  unfold Machine.execHdr at ht
  split at ht <;> cases ht
  · rename_i hlegal
    obtain ⟨hw, hb⟩ := Bool.and_eq_true_iff.mp hlegal
    have hwide : ({ s with hdr := w ++ b } : State).tilesWide = w.toNat := by
      simp only [State.tilesWide, BitVec.extractLsb'_append_eq_left]
    have hhigh : ({ s with hdr := w ++ b } : State).tilesHigh = b.toNat := by
      simp only [State.tilesHigh, BitVec.extractLsb'_append_eq_right]
    exact { h with
      count_pos := nofun
      dims := fun _ => ⟨hwide ▸ hw, hhigh ▸ hb⟩
      geometry := nofun
      at_start := fun _ => h.at_start (.inl (by rw [hp]; rfl))
      first_pass := fun _ => h.first_pass (.inl hp)
      second_pass := nofun
      header_aligned := nofun }
  · exact h.raise _ h.rlen_le _ _

/-- The orientation bit is both the plane of the first pass and the record of it (R59). -/
theorem PassInv.orient {s : State} (h : PassInv s) (hp : s.phase = .orient) (o : Bool) :
    PassInv { s with orient := o, orient0 := o, phase := .passSetup } :=
  { h with
    count_pos := nofun
    dims := fun _ => h.dims (by rw [hp]; rfl)
    geometry := nofun
    at_start := fun _ => h.at_start (.inl (by rw [hp]; rfl))
    first_pass := nofun
    second_pass := nofun
    orient_eq := by simp [(h.first_pass (.inr hp)).1]
    header_aligned := nofun }

/-- PASS_SETUP puts both focus pointers on the first byte of the plane, where the first cell is (R25, R60). -/
theorem PassInv.passSetup {s : State} (h : PassInv s) (hp : s.phase = .passSetup) :
    PassInv { s with
      pptr := planeBase s.orient, sptr := planeBase s.orient, phase := if s.fpd then .mode else .kind } := by
  have hdims := h.dims (by rw [hp]; rfl)
  obtain ⟨hrow, hcol, hrot⟩ := h.at_start (.inl (by rw [hp]; rfl))
  have hrow0 : s.row.toNat = 0 := by rw [hrow]; rfl
  have hcol0 : s.col.toNat = 0 := by rw [hcol]; rfl
  have hhigh := ((legalDim_iff _).mp hdims.2).1
  have hbase : (planeBase s.orient).toNat < Config.outSize := plane_byte_lt (j := 0) (by decide)
  have g : PassGeometry { s with pptr := planeBase s.orient, sptr := planeBase s.orient, phase := .kind } := by
    refine ⟨?_, ⟨0, ((legalDim_iff _).mp hdims.1).1, hcol0, by simp⟩, ?_⟩
    · show s.row.toNat < 8 * s.tilesHigh
      omega
    · show _ = _ + s.row.toNat
      rw [hrow0]; rfl
  have hkind : PassInv { s with pptr := planeBase s.orient, sptr := planeBase s.orient, phase := .kind } :=
    { h with
      pptr_lt := hbase, sptr_lt := hbase
      count_pos := nofun
      dims := fun _ => hdims
      geometry := fun _ => g
      at_start := fun _ => ⟨hrow, hcol, hrot⟩
      first_pass := nofun, second_pass := nofun, header_aligned := nofun }
  split
  · exact hkind.token rfl rfl id (fun _ => ‹_›) h.mode_le h.mode_unread h.rlen_le h.count_le nofun
  · exact hkind

/-! ### Cells -/

theorem advance_rlecnt (s : State) : (advance s).2.rlecnt = s.rlecnt := by
  obtain ⟨_, _, _, _, _, _, _, ha⟩ := advance_frame s
  rw [ha]

/-- The end of a pass leaves the counters at their start and the second pass begun or over (R69, R70). -/
theorem PassInv.endPass {s : State} (h : PassInv s) (hp : inPass s.phase = true) {o f : Bool} {k : BitVec 16} {q : Phase}
    (hf : f = true) (ho : o = (s.orient0 ^^ f)) (hk : k.toNat ≤ 65534) (hq : q = .passSetup ∨ q = .unpack) :
    PassInv { s with row := 0, rot := 3, col := 0, orient := o, fpd := f, rlecnt := k, phase := q } := by
  have hdims := h.dims (headerPassed_of_inPass hp)
  rcases hq with rfl | rfl <;>
  exact { h with
    row_le := Nat.zero_le _, col_le := ⟨0, Nat.zero_le _, rfl⟩
    count_le := hk, count_pos := nofun
    dims := fun _ => hdims
    geometry := nofun
    at_start := fun _ => ⟨rfl, rfl, rfl⟩
    first_pass := nofun
    second_pass := fun _ => hf
    orient_eq := ho
    mode_unread := fun hn => absurd (hf.symm.trans hn) nofun
    header_aligned := nofun }

/-- After a cell the pass goes on at the next one, the second pass begins, or both planes are written (R69, R70). -/
theorem PassInv.advance {s : State} (h : PassInv s) (hp : inPass s.phase = true) {p : Phase}
    (hc : p = .data ∨ p = .rleWrite) {k : BitVec 16} (hk : k.toNat ≤ 65534) (hpos : p = .rleWrite → 1 ≤ k.toNat) :
    PassInv (dispatch (advance s).1 p { (advance s).2 with rlecnt := k }) := by
  obtain ⟨hwide, hhigh⟩ := h.dims (headerPassed_of_inPass hp)
  have hnext := (h.geometry hp).advance hwide hhigh
  obtain ⟨row, col, rot, pptr, sptr, ha⟩ | ⟨hf, ha⟩ | ⟨hf, ha⟩ := advance_outcome s
  · rw [ha] at hnext ⊢
    have g := hnext rfl
    obtain ⟨hpptr, hsptr, hrow, hcol⟩ := g.ranges hwide hhigh
    have hdata : PassInv { s with row := row, col := col, rot := rot, pptr := pptr, sptr := sptr, phase := .data } :=
      { h with
        pptr_lt := hpptr, sptr_lt := hsptr, row_le := hrow, col_le := hcol
        count_pos := nofun
        dims := fun _ => ⟨hwide, hhigh⟩
        geometry := fun _ => { g with }
        at_start := nofun, first_pass := nofun, second_pass := nofun, header_aligned := nofun }
    refine hdata.token rfl ?_ ?_ ?_ h.mode_le h.mode_unread h.rlen_le hk hpos
    all_goals rcases hc with rfl | rfl <;> simp [inPass, passUnbegun]
  · rw [ha]
    exact h.endPass hp rfl (by simp [h.orient_eq, hf]) hk (.inl rfl)
  · rw [ha]
    exact h.endPass hp hf h.orient_eq hk (.inr rfl)

theorem PassInv.writePair {s t : State} (h : PassInv s) (hp : s.phase = .data) {c : Byte}
    (ht : writePair c s = .next t) : PassInv t := by
  unfold Machine.writePair at ht
  split at ht <;> cases ht
  rename_i w hw
  obtain ⟨-, rfl⟩ := cellWrite_some hw
  have hcount := advance_rlecnt (s.writeWm s.pptr.toNat (s.wm.read s.pptr.toNat ||| cellTransform c s.rot))
  exact (h.writeWm _ _).advance (by rw [State.writeWm_phase, hp]; rfl) (.inl rfl) (hcount ▸ h.count_le) nofun

/-- A run counts down from at least 1, and goes on only while cells are left to write (R68). -/
theorem PassInv.execRleWrite {s t : State} (h : PassInv s) (hp : s.phase = .rleWrite)
    (ht : execRleWrite s = .next t) : PassInv t := by
  unfold Machine.execRleWrite at ht
  split at ht <;> cases ht
  rename_i w hw
  obtain ⟨-, rfl⟩ := cellWrite_some hw
  have hle := h.count_le
  have hge := h.count_pos hp
  rw [finishRunCell_eq, advance_rlecnt, State.writeWm_rlecnt]
  refine (h.writeWm _ _).advance (by rw [State.writeWm_phase, hp]; rfl) ?_ (by bv_omega) ?_
  · split
    · exact .inl rfl
    · exact .inr rfl
  · split
    · exact nofun
    · intro _; bv_omega

/-! ### UNPACK and INTERLEAVE -/

/-- UNPACK leaves the focus pointers where they were or on the first bytes of the planes (R77, R80). -/
theorem unpackBy_pointers (s : State) :
    (unpackBy s).pptr = s.pptr ∧ (unpackBy s).sptr = s.sptr ∨
      ∃ o, (unpackBy s).pptr = planeBase (!o) ∧ (unpackBy s).sptr = planeBase o := by
  have hmerge (u : State) : (xorMerge u).pptr = planeBase (!u.orient) ∧ (xorMerge u).sptr = planeBase u.orient := by
    simp only [xorMerge, resetPtrs_eq, decodePlane, and_self]
  unfold unpackBy
  split
  · exact .inl ⟨rfl, rfl⟩
  split
  · exact .inr ⟨_, hmerge s⟩
  split
  · exact .inr ⟨_, hmerge _⟩
  · exact .inl ⟨rfl, rfl⟩

theorem PassInv.unpack {s : State} (h : PassInv s) (hp : s.phase = .unpack) :
    PassInv ((unpackBy s).setPhase .interleave) := by
  have hbase (o : Bool) : (planeBase o).toNat < Config.outSize := plane_byte_lt (j := 0) (by decide)
  have hptrs : (unpackBy s).pptr.toNat < Config.outSize ∧ (unpackBy s).sptr.toNat < Config.outSize := by
    rcases unpackBy_pointers s with ⟨hp, hs⟩ | ⟨o, hp, hs⟩ <;> rw [hp, hs]
    · exact ⟨h.pptr_lt, h.sptr_lt⟩
    · exact ⟨hbase _, hbase _⟩
  have hdone : passesDone s.phase = true := by rw [hp]; rfl
  rw [(unpackBy_rebuilt s).frame]
  exact { h with
    pptr_lt := hptrs.1, sptr_lt := hptrs.2
    count_pos := nofun
    dims := fun _ => h.dims (by rw [hp]; rfl)
    geometry := nofun
    at_start := fun _ => h.at_start (.inr hdone)
    first_pass := nofun
    second_pass := fun _ => h.second_pass (.inr hdone)
    header_aligned := nofun }

theorem PassInv.interleave {s : State} (h : PassInv s) (hp : s.phase = .interleave) :
    PassInv { s with out := interleavePlanes s.wm, busy := false, done := true, phase := .done } :=
  have hdone : passesDone s.phase = true := by rw [hp]; rfl
  { h with
    count_pos := nofun
    dims := fun _ => h.dims (by rw [hp]; rfl)
    geometry := nofun
    at_start := fun _ => h.at_start (.inr hdone)
    first_pass := nofun
    second_pass := fun _ => h.second_pass (.inr hdone)
    header_aligned := nofun }

/-! ### A step -/

/-- Every token of the engine keeps the invariant. -/
theorem PassInv.exec {i : Instr} {s t : State} (h : PassInv s) (hr : ReadsIn s.phase (contextOf i))
    (ht : exec i s = .next t) : PassInv t := by
  cases i with
  | hdr w b => exact h.execHdr hr ht
  | orient o => cases ht; exact h.orient hr o
  | mode0 | mode1 | mode2 =>
    cases ht
    have hf : s.fpd = true := h.second_pass (.inl hr)
    exact h.token (by rw [hr]; rfl) rfl (fun _ => by rw [hr]; rfl) nofun (by decide) (by simp [hf]) h.rlen_le h.count_le nofun
  | kindRle | endData =>
    cases ht
    exact h.token (by rw [hr]; rfl) rfl nofun nofun h.mode_le h.mode_unread (by decide) h.count_le nofun
  | kindData =>
    cases ht
    exact h.token (by rw [hr]; rfl) rfl nofun nofun h.mode_le h.mode_unread h.rlen_le h.count_le nofun
  | pair1 | pair2 | pair3 => exact h.writePair hr ht
  | runN0 v | runN1 v | runN2 v | runN3 v | runN4 v | runN5 v | runN6 v | runN7 v | runN8 v | runN9 v | runN10 v
  | runN11 v | runN12 v | runN13 v | runN14 v =>
    cases ht
    exact h.startRun (by rcases hr with hr | hr <;> rw [hr] <;> rfl) (by decide) v.isLt
  | runOverlong => cases ht; exact h.raise s.hdr (by decide) _ _
  | passSetup => cases ht; exact h.passSetup hr
  | rleWrite => exact h.execRleWrite hr ht
  | unpack =>
    simp only [Machine.exec, execUnpack] at ht
    split at ht <;> cases ht
    exact h.unpack hr
  | interleave => cases ht; exact h.interleave hr
  | start d | ctrlWr d | clrSt d | srcWr0 d | srcWr1 d | srcWr2 d | rd a => exact hr.elim

theorem PassInv.engineStep {s t : State} (h : PassInv s) (ht : engineStep s = .next t) : PassInv t := by
  have hbyte (_ : s.phase = .header) (_ : PassInv s ∧ s.phase = s.phase) :=
    And.intro h.romFetch (romFetch_leaves s).phase_eq
  have hbit (hp : s.phase ≠ .header) (u : State) (hu : PassInv u ∧ u.phase = s.phase) :=
    And.intro (hu.1.readBit (hu.2 ▸ hp)) ((readBit_leaves u).phase_eq.trans hu.2)
  rcases engineStep_cases (P := fun u => PassInv u ∧ u.phase = s.phase) hbyte hbit ⟨h, rfl⟩ ht with
    ⟨i, u, ⟨hu, -⟩, hr, he⟩ | ⟨u, ⟨hu, -⟩, hp, hn, rfl⟩ | ⟨u, ⟨hu, -⟩, hp, rfl⟩ | ⟨u, ⟨hu, -⟩, rfl⟩ | rfl
  · exact hu.exec hr he
  · have hin : inPass u.phase = true := by rw [hp]; rfl
    have hle := hu.rlen_le
    unfold Config.rleMaxPrefix at hn
    exact hu.token hin hin id (by rw [hp]; exact nofun) hu.mode_le hu.mode_unread (by bv_omega) hu.count_le hu.count_pos
  · exact hu.token (by rw [hp]; rfl) rfl nofun nofun hu.mode_le hu.mode_unread hu.rlen_le hu.count_le nofun
  · exact hu.raise u.hdr hu.rlen_le _ _
  · exact h

theorem passInv_reset : PassInv State.reset where
  cnt_le := by decide
  mode_le := by decide
  rlen_le := by decide
  count_le := by decide
  pptr_lt := by decide
  sptr_lt := by decide
  row_le := by decide
  col_le := ⟨0, by decide, rfl⟩
  count_pos := nofun
  dims := nofun
  geometry := nofun
  at_start _ := ⟨rfl, rfl, rfl⟩
  first_pass _ := ⟨rfl, rfl⟩
  second_pass := by decide
  orient_eq := rfl
  mode_unread _ := rfl
  header_aligned _ := rfl

/-- START begins with the reset values of R89, RST with those of R106; no other input touches the invariant. -/
theorem PassInv.host {e : Event} {s t : State} (hm : HostMove e s t) (h : PassInv s) : PassInv t := by
  cases hm with
  | port | clear | romWrite => exact { h with geometry := fun hp => { h.geometry hp with } }
  | start d _ =>
    exact { passInv_reset with
      count_pos := nofun, dims := nofun, geometry := nofun, second_pass := nofun
      at_start := fun _ => ⟨rfl, rfl, rfl⟩
      first_pass := fun _ => ⟨rfl, rfl⟩
      header_aligned := fun _ => rfl }
  | reset level _ => exact { passInv_reset with geometry := nofun }

/-- Settles O55: each token and each input keeps the invariant, and a fetch moves `IN_PTR` only from below ROM_SIZE. -/
theorem stepKeepsThePassGeometry : Obligations.StepKeepsThePassGeometry := by
  refine ⟨fun s t hs h => ?_, fun s t hsize hptr h => (PointerInRange.engineStep ⟨hsize, hptr⟩ h).ptr_le⟩
  rcases step_next h with ⟨e, u, hd, hi⟩ | ⟨-, he⟩
  · obtain ⟨-, rest, -, -, -, rfl⟩ := dueInput_some hd
    exact (hs.setInputs rest).host (inputStep_move hi)
  · exact (hs.setInputs _).engineStep he

end Sys2Proof.Machine
end

section
/-! SUPPORT. One fetch and one bit read as exact next states (R56, R57, R109), and the tokens that set a register or write one
pair (R58 to R62, R64, R65). -/

namespace Sys2Proof.Machine

/-! ### One byte -/

theorem romFetch_at_end {s : State} (h : s.cfg.romSize ≤ s.inPtr.toNat) : romFetch s = .error s := if_pos h

theorem romFetch_below {s : State} (h : s.inPtr.toNat < s.cfg.romSize) :
    ∃ b t, romFetch s = .ok (b, t) := ⟨_, _, if_neg (Nat.not_le.mpr h)⟩

/-- Settles O5: below ROM_SIZE a byte with no change on record is the ROM's, and only `IN_PTR` moves. -/
theorem romFetchReadsOneByteOrFails : Obligations.RomFetchReadsOneByteOrFails := by
  refine fun s => ⟨romFetch_at_end, fun hlt hs => ?_⟩
  rw [romFetch, if_neg (Nat.not_le.mpr hlt), romByte_unchanged s _ hs]

/-- A pick from a list is one of its elements, or the default beyond its end. -/
theorem getD_eq_or_mem {α : Type} (n : Nat) (l : List α) (d : α) : l.getD n d = d ∨ l.getD n d ∈ l := by
  rw [List.getD_eq_getElem?_getD]
  cases hv : l[n]? with
  | none => exact .inl rfl
  | some v => exact .inr (List.mem_of_getElem? hv)

/-- A fetch answers the ROM's byte or one on record for its offset, and draws at most one free value (R109; log 5). -/
theorem romByte_old_or_new (s : State) (a : Nat) :
    ((romByte s a).1 = s.rom.read a ∨ (a, (romByte s a).1) ∈ s.romStale) ∧
      (romByte s a).2 = { s with freeCtr := (romByte s a).2.freeCtr } := by
  unfold romByte
  split
  · exact ⟨.inl rfl, rfl⟩
  · rename_i c cs hrecord
    refine ⟨?_, rfl⟩
    rcases getD_eq_or_mem (Config.freeRomPick s.freeCtr % (s.rom.read a :: (c :: cs).map Prod.snd).length)
      (s.rom.read a :: (c :: cs).map Prod.snd) (s.rom.read a) with hb | hb
    · exact .inl hb
    rcases List.mem_cons.mp hb with hb | hb
    · exact .inl hb
    · obtain ⟨⟨a', b⟩, hmem, hb⟩ := List.mem_map.mp hb
      rw [← hrecord, List.mem_filter] at hmem
      obtain ⟨hstale, ha⟩ := hmem
      obtain rfl : a' = a := by simpa using ha
      subst hb
      exact .inr hstale

/-- Settles O49: the byte a fetch answers is in the ROM or on the record, and a change writes one byte and records the old one. -/
theorem changedRomByteReadsOldOrNew : Obligations.ChangedRomByteReadsOldOrNew := by
  refine ⟨fun s hlt => ?_, fun s a d ha => ⟨_, if_pos ha, Memory.read_write_same _ _ _,
    fun x hx => Memory.read_write_other _ _ _ _ hx.symm, rfl, rfl⟩⟩
  obtain ⟨b, t, hf⟩ := romFetch_below hlt
  obtain ⟨-, rfl, ht⟩ := romFetch_ok hf
  obtain ⟨hbyte, hframe⟩ := romByte_old_or_new s s.inPtr.toNat
  refine ⟨_, t, hf, hbyte, ?_⟩
  rw [hframe] at ht
  rw [ht]

/-! ### One bit -/

/-- Settles O6: the next bit comes from `IN_BYTE`, or from the byte at `IN_PTR` when `IN_CNT` is 0. -/
theorem readBitTakesTheFirstUnreadBit : Obligations.ReadBitTakesTheFirstUnreadBit := by
  intro s hcnt hsize hstale
  have h : CursorReady s := ⟨hcnt, hsize, hstale⟩
  refine ⟨fun hnil => ?_, fun b rest hbits => ?_⟩
  · obtain ⟨-, hread⟩ | ⟨b, t, -, hbits, -⟩ := readBit_cases h
    · exact hread
    · cases hnil.symm.trans hbits
  · by_cases h0 : s.inCnt = 0
    · have hlt : s.inPtr.toNat < s.cfg.romSize := by
        by_contra hp
        cases (unreadBits_at_end h0 (Nat.not_lt.mp hp)).symm.trans hbits
      rw [unreadBits_refill h h0 hlt, unreadBits_of_left s _ _ 8 (by decide) (by decide)] at hbits
      obtain ⟨rfl, rfl⟩ := List.cons.inj hbits
      exact ⟨_, readBit_of_refill s h0 hlt (by simp [hstale]), rfl, rfl, (if_pos h0).symm, (if_pos h0).symm⟩
    · obtain ⟨rfl, rfl⟩ := List.cons.inj ((unreadBits_of_left s _ _ _ h0 hcnt).symm.trans hbits)
      exact ⟨_, readBit_of_left s h0, rfl, rfl, (if_neg h0).symm, (if_neg h0).symm⟩

/-! ### Header, orientation, mode and kind -/

/-- Settles O11: the check of R58 is the range 1..7 of both nibbles. -/
theorem headerIsLatchedThenChecked : Obligations.HeaderIsLatchedThenChecked := by
  intro w h s
  have hlegal : (legalDim w.toNat && legalDim h.toNat) = true ↔
      (1 ≤ w.toNat ∧ w.toNat ≤ 7) ∧ (1 ≤ h.toNat ∧ h.toNat ≤ 7) := by
    rw [Bool.and_eq_true, legalDim_iff, legalDim_iff]
  exact ⟨fun hd => if_pos (hlegal.mpr hd), fun hd => if_neg (mt hlegal.mp hd)⟩

/-- Settles O12: each of these tokens is one update of the state. -/
theorem controlTokensSetTheirRegister : Obligations.ControlTokensSetTheirRegister :=
  fun _ _ => ⟨rfl, rfl, rfl, rfl, rfl, rfl, rfl⟩

/-! ### Pairs -/

/-- The advance does not look at WM (R69). -/
theorem advance_writeWm (s : State) (a : Nat) (v : Byte) :
    advance (s.writeWm a v) = ((advance s).1, (advance s).2.writeWm a v) := by
  rcases advance_cases s with
    ⟨hrow, ha⟩ | ⟨hrow, hrot, ha⟩ | ⟨hrow, hrot, hcol, ha⟩ | ⟨hrow, hrot, hcol, hf, ha⟩ | ⟨hrow, hrot, hcol, hf, ha⟩ <;> rw [ha]
  · exact if_pos hrow
  · exact (if_neg (not_not.mpr hrow)).trans (if_pos hrot)
  · exact (if_neg (not_not.mpr hrow)).trans ((if_neg (not_not.mpr hrot)).trans (if_pos hcol))
  · exact (if_neg (not_not.mpr hrow)).trans
      ((if_neg (not_not.mpr hrot)).trans ((if_neg (not_not.mpr hcol)).trans (if_pos hf)))
  · exact (if_neg (not_not.mpr hrow)).trans
      ((if_neg (not_not.mpr hrot)).trans ((if_neg (not_not.mpr hcol)).trans (if_neg (by simp [hf]))))

/-- A pair inside WM ORs its code in at the bit pair of `ROT` and goes on where the advance says (R64, R65, R70). -/
theorem writePair_next {s : State} {c : Byte} (hc : c.toNat < 4) (hp : s.pptr.toNat < Config.outSize) :
    writePair c s = .next (dispatch (advance s).1 .data
      ((advance s).2.writeWm s.pptr.toNat (s.wm.read s.pptr.toNat ||| c <<< (2 * s.rot.toNat)))) := by
  rw [writePair, cellWrite_of_lt c s hp, cellTransform_eq c s.rot hc]
  simp only [advance_writeWm]

/-- Settles O15: a pair is one byte written and the advance. -/
theorem pairWritesItsCodeAndAdvances : Obligations.PairWritesItsCodeAndAdvances := by
  intro s i c hi hp
  have hexec : exec i s = writePair c s ∧ c.toNat < 4 := by
    simp only [List.mem_cons, List.not_mem_nil, or_false, Prod.mk.injEq] at hi
    rcases hi with ⟨rfl, rfl⟩ | ⟨rfl, rfl⟩ | ⟨rfl, rfl⟩ <;> exact ⟨rfl, by decide⟩
  have hwm : (advance s).2.wm = s.wm := by
    obtain ⟨_, _, _, _, _, _, _, ha⟩ := advance_frame s
    rw [ha]
  refine ⟨_, hexec.1.trans (writePair_next hexec.2 hp), ?_, fun a ha => ?_, ?_⟩ <;> rw [dispatch_eq]
  · simp [State.writeWm]
  · rw [State.setPhase_wm, State.writeWm, hwm]
    exact Memory.read_write_other _ _ _ _ ha.symm
  · rw [State.writeWm, hwm]
    rfl

end Sys2Proof.Machine
end

section
/-! SUPPORT. Pass setup and packets (41_packets.md): the cell transforms and what a pair makes of its cell (R63, R64), a run token
over the steps that read it (R66, R67), a cell of a run (R68), and the ROM's end inside a token (R96, R97). -/

namespace Sys2Proof.Machine

/-! ### Pass setup and the cell of a pair -/

/-- Settles O13: PASS_SETUP is one update of the state, and base(o) is the first byte of the plane. -/
theorem passSetupPointsAtThePlane : Obligations.PassSetupPointsAtThePlane := fun _ => rfl

/-- Settles O14: the transforms are those of the table row by row, and a two-bit value wraps round in none of them. -/
theorem cellTransformPlacesTheCode : Obligations.CellTransformPlacesTheCode :=
  fun x hx => ⟨⟨rfl, rfl, rfl, rfl⟩, fun rot => cellTransform_eq x rot hx⟩

/-- The cells before the current one are fewer than those of the pass (R71). -/
theorem PassGeometry.cellIndex_lt {s : State} (g : PassGeometry s) : s.cellIndex < s.passCells := by
  obtain ⟨c, hc, hcol, hr, -⟩ := g.place
  have hturns : (3 - s.rot.toNat) * (8 * s.tilesHigh) ≤ 3 * (8 * s.tilesHigh) := Nat.mul_le_mul_right _ (by omega)
  have hcolumns : (c + 1) * (32 * s.tilesHigh) ≤ s.tilesWide * (32 * s.tilesHigh) := Nat.mul_le_mul_right _ hc
  have hcells : s.passCells = s.tilesWide * (32 * s.tilesHigh) := by unfold State.passCells; ring
  rw [Nat.add_one_mul] at hcolumns
  rw [hcells, State.cellIndex, hcol, Nat.mul_div_cancel_left c (by decide)]
  omega

/-- Two bits OR-ed in at a pair of a byte that was zero are read back at that pair. -/
theorem pair_or_same (b x : Byte) (hx : x.toNat < 4) {p : Nat} (hp : p < 4) (hb : (b >>> (2 * p)) &&& 3 = 0) :
    ((b ||| x <<< (2 * p)) >>> (2 * p)) &&& 3 = x := by
  have hback : (x <<< (2 * p)) >>> (2 * p) = x := by
    apply BitVec.eq_of_toNat_eq
    have hpow : 2 ^ (2 * p) ≤ 2 ^ 6 := Nat.pow_le_pow_right (by decide) (by omega)
    have hfit : x.toNat * 2 ^ (2 * p) < 2 ^ 8 :=
      Nat.lt_of_le_of_lt (Nat.mul_le_mul (Nat.le_of_lt_succ hx) hpow) (by decide)
    rw [BitVec.toNat_ushiftRight, BitVec.toNat_shiftLeft, Nat.shiftLeft_eq, Nat.mod_eq_of_lt hfit, Nat.shiftRight_eq_div_pow,
      Nat.mul_div_cancel _ (Nat.two_pow_pos _)]
  have hlow : x &&& 3 = x := by
    apply BitVec.eq_of_toNat_eq
    rw [BitVec.toNat_and]
    exact (Nat.and_two_pow_sub_one_eq_mod x.toNat 2).trans (Nat.mod_eq_of_lt hx)
  rw [BitVec.ushiftRight_or_distrib, hback, BitVec.and_or_distrib_right, hb, hlow]
  exact BitVec.zero_or

/-- A write to a cell that was zero sets it to exactly the value (R64). -/
theorem cellValue_write_same (m : Memory) (o : Bool) {h k : Nat} {x : Byte} (hx : x.toNat < 4) (hz : cellValue m o h k = 0) :
    cellValue (m.write (cellByte o h k) (m.read (cellByte o h k) ||| x <<< (2 * cellRot h k))) o h k = x := by
  have hrot : cellRot h k < 4 := Nat.lt_succ_of_le (Nat.sub_le _ _)
  rw [cellValue, Memory.read_write_same]
  exact pair_or_same _ _ hx hrot hz

theorem code_lt_four {i : Instr} {c : Byte} (h : (i, c) ∈ [(Instr.pair1, 1#8), (Instr.pair2, 2#8), (Instr.pair3, 3#8)]) :
    c.toNat < 4 := by
  simp only [List.mem_cons, List.not_mem_nil, or_false, Prod.mk.injEq] at h
  rcases h with ⟨-, rfl⟩ | ⟨-, rfl⟩ | ⟨-, rfl⟩ <;> decide

/-- Settles O16: the byte and the bit pair written are those of the current cell, which was zero, and of no other cell. -/
theorem pairSetsItsCellExactly : Obligations.PairSetsItsCellExactly := by
  intro s t i c hi hpass hplane hphase ht
  have hin : inPass s.phase = true := by rw [hphase]; rfl
  have g := hpass.geometry hin
  have hx := code_lt_four hi
  have hpos := ((legalDim_iff _).mp (hpass.dims (headerPassed_of_inPass hin)).2).1
  obtain ⟨hbyte, hrot⟩ := g.current
  obtain ⟨u, hu, -, -, hframe⟩ := pairWritesItsCodeAndAdvances s i c hi hpass.pptr_lt
  cases ht.symm.trans hu
  have hwm : t.wm = s.wm.write s.pptr.toNat (s.wm.read s.pptr.toNat ||| c <<< (2 * s.rot.toNat)) := by rw [hframe]
  refine ⟨g.cellIndex_lt, fun k hk => ?_⟩
  rw [hwm, ← hbyte, ← hrot]
  split
  · subst k
    exact cellValue_write_same _ _ hx (hplane.ahead_zero hin _ (Nat.le_refl _) hk)
  · exact cellValue_write_other _ _ hpos (Ne.symm ‹_›) hx

/-! ### What a run token does -/

/-- Every run token sets `RLEN` and the run length and goes on to the writes (R67). -/
theorem exec_runToken {n v : Nat} {i : Instr} (hv : v < 2 ^ (n + 1)) (hi : runToken n v = some i) (s : State) :
    exec i s = .next (startRun n v s) := by
  unfold runToken at hi
  split at hi <;> cases hi <;> refine congrArg (fun m => Host.Outcome.next (startRun _ m s)) ?_ <;>
    rw [BitVec.toNat_ofNat, Nat.mod_eq_of_lt hv]

/-- Settles O17: the 15 run tokens by their count of 1-bits, and the longest run fits 16 bits. -/
theorem runTokensSetTheRunLength : Obligations.RunTokensSetTheRunLength := by
  intro i hc hne
  obtain rfl | ⟨n, v, hn, hv, hi⟩ := overlong_or_runToken hc
  · exact absurd rfl hne
  · obtain ⟨-, hcount⟩ := runCount_range hv
    have hpow : 2 ^ (n + 2) ≤ 2 ^ 16 := Nat.pow_le_pow_right (by decide) (by omega)
    have hfit : 2 ^ (n + 1) - 1 + v < 2 ^ 16 := by unfold runCount at hcount; omega
    exact ⟨n, v, hn, hv, encode_runToken hv hi, Nat.mod_eq_of_lt hfit, exec_runToken hv hi⟩

/-- Settles O18: the overlong run sets `RLEN` to 14 and raises RLE_LEN. -/
theorem overlongRunEntersTheErrorState : Obligations.OverlongRunEntersTheErrorState := fun _ => rfl

/-! ### A run token over its steps -/

theorem runSteps_succ (k : Nat) {s t : State} (h : step s = .next t) : runSteps (k + 1) s = runSteps k t := by
  have hstep : Sys2Proof.core.step s = .next t := h
  show Sys2Proof.core.run (k + 1) s = Sys2Proof.core.run k t
  simp only [Host.Core.run, hstep]

/-- A bit read takes the first unread bit and changes nothing but the bit cursor, which stays ready (R57). -/
theorem readBit_next {s : State} {b : Bool} {rest : List Bool} (h : CursorReady s) (hb : unreadBits s = b :: rest) :
    ∃ p y c, readBit s = .ok (b, s.setCursor p y c) ∧ unreadBits (s.setCursor p y c) = rest ∧
      CursorReady (s.setCursor p y c) := by
  obtain ⟨t, hread, hrest, hframe, -, -⟩ := (readBitTakesTheFirstUnreadBit s h.cnt_le h.size_le h.unchanged).2 b rest hb
  obtain ⟨hnil, -⟩ | ⟨b', t', hread', -, ht⟩ := readBit_cases h
  · cases hnil.symm.trans hb
  · cases hread.symm.trans hread'
    have hcursor : t = s.setCursor t.inPtr t.inByte t.inCnt := hframe
    exact ⟨_, _, _, hcursor ▸ hread, hcursor ▸ hrest, hcursor ▸ ht⟩

/-- `ReadBits(k)` with enough bits left changes nothing but the bit cursor (R9). -/
theorem readBits_next {k v w : Nat} {s : State} {rest : List Bool} (h : CursorReady s)
    (hb : readBitsFrom listBit k v (unreadBits s) = .ok (w, rest)) :
    ∃ p y c, readBitsFrom readBit k v s = .ok (w, s.setCursor p y c) ∧ unreadBits (s.setCursor p y c) = rest := by
  induction k generalizing v s with
  | zero =>
    cases hb
    exact ⟨_, _, _, rfl, rfl⟩
  | succ k ih =>
    cases hs : unreadBits s with
    | nil => rw [hs] at hb; cases hb
    | cons b bs =>
      obtain ⟨p, y, c, hread, hrest, hready⟩ := readBit_next h hs
      rw [hs, ← hrest] at hb
      obtain ⟨p', y', c', hreads, hleft⟩ := ih hready hb
      exact ⟨p', y', c', by rw [readBitsFrom, hread]; exact hreads, hleft⟩

/-- `s` in phase `p` with `n` leading 1-bits of a run counted. -/
def State.inRun (s : State) (n : Nat) (p : Phase) : State := { s with rlen := BitVec.ofNat 4 n, phase := p }

theorem State.eq_inRun_zero {s : State} (hp : s.phase = .rlePrefix) (hn : s.rlen = 0) : s = s.inRun 0 .rlePrefix := by
  obtain ⟨⟩ := s
  cases hp
  cases hn
  rfl

theorem CursorReady.inRun {s : State} (h : CursorReady s) (n : Nat) (p : Phase) : CursorReady (s.inRun n p) := { h with }

/-- A 1-bit of the unary part is counted in one step (R66). -/
theorem step_inRun_true {s t : State} {n : Nat} (hi : s.inputs = []) (hn : n < 14)
    (hr : readBit (s.inRun n .rlePrefix) = .ok (true, t.inRun n .rlePrefix)) :
    step (s.inRun n .rlePrefix) = .next (t.inRun (n + 1) .rlePrefix) := by
  have hlt : (s.inRun n .rlePrefix).rlen.toNat ≠ Config.rleMaxPrefix := by
    show n % 2 ^ 4 ≠ 14
    omega
  have hcount : BitVec.ofNat 4 n + 1 = BitVec.ofNat 4 (n + 1) := (BitVec.ofNat_add n 1).symm
  refine (step_of_no_input (s.inRun n .rlePrefix) hi).trans
    ((engineStep_of_more (s := s.inRun n .rlePrefix) (fetchRunBit_of_true hr hlt)).trans ?_)
  exact congrArg (fun r => Host.Outcome.next { t with rlen := r, phase := .rlePrefix }) hcount

/-- The 0-bit ends the unary part in one step (R66). -/
theorem step_inRun_false {s t : State} {n : Nat} (hi : s.inputs = [])
    (hr : readBit (s.inRun n .rlePrefix) = .ok (false, t.inRun n .rlePrefix)) :
    step (s.inRun n .rlePrefix) = .next (t.inRun n .rleValue) :=
  (step_of_no_input (s.inRun n _) hi).trans (engineStep_of_more (fetchRunBit_of_false hr))

/-- The unary part of a run takes a step for each 1-bit, which counts it, and one for the 0-bit (R66). -/
theorem runSteps_unary {j n : Nat} {s : State} {rest : List Bool} (h : CursorReady s) (hi : s.inputs = []) (hn : n + j ≤ 14)
    (hb : unreadBits s = List.replicate j true ++ false :: rest) (k : Nat) :
    ∃ p y c, unreadBits (s.setCursor p y c) = rest ∧ CursorReady (s.setCursor p y c) ∧
      runSteps (j + 1 + k) (s.inRun n .rlePrefix) = runSteps k ((s.setCursor p y c).inRun (n + j) .rleValue) := by
  induction j generalizing s n with
  | zero =>
    obtain ⟨p, y, c, hread, hrest, hready⟩ := readBit_next (h.inRun n .rlePrefix) hb
    refine ⟨p, y, c, hrest, { hready with }, ?_⟩
    rw [Nat.zero_add, Nat.add_comm 1 k]
    exact runSteps_succ k (step_inRun_false hi hread)
  | succ j ih =>
    obtain ⟨p, y, c, hread, hrest, hready⟩ := readBit_next (h.inRun n .rlePrefix) hb
    obtain ⟨p', y', c', hrest', hready', hrun⟩ :=
      ih (s := s.setCursor p y c) (n := n + 1) { hready with } hi (by omega) hrest
    refine ⟨p', y', c', hrest', { hready' with }, ?_⟩
    rw [Nat.add_right_comm (j + 1) 1 k, ← Nat.succ_add_eq_add_succ n j]
    exact (runSteps_succ _ (step_inRun_true hi (by omega) hread)).trans hrun

/-- The value of a run is read in one step, which runs the token (R67). -/
theorem step_inRun_value {s t : State} {n v : Nat} {i : Instr} (hs : s.inputs = []) (hn : n ≤ 14)
    (hi : runToken n v = some i) (hr : readBitsFrom readBit (n + 1) 0 (s.inRun n .rleValue) = .ok (v, t)) :
    step (s.inRun n .rleValue) = exec i t := by
  have hlen : (s.inRun n .rleValue).rlen.toNat = n := Nat.mod_eq_of_lt (by omega)
  have hfetch : fetch (s.inRun n .rleValue) = .token i t := by
    show fetchRunValue _ = _
    simp only [fetchRunValue, runValueFrom, hlen, hr, hi]
  exact (step_of_no_input (s.inRun n _) hs).trans (engineStep_of_token hfetch)

/-- Settles O10: the unary part bit by bit, then the value, whose step runs the token. -/
theorem runTokenTakesOneStepPerBitOfItsUnaryPart : Obligations.RunTokenTakesOneStepPerBitOfItsUnaryPart := by
  intro s n v i rest hm hpass hstale hinputs hphase hlen hv hi hbits
  have hn : n ≤ 14 := Nat.not_lt.mp fun h => by rw [(runToken_none_iff n v).mpr h] at hi; cases hi
  rw [encode_runToken hv hi, runBits, List.append_assoc, List.cons_append] at hbits
  obtain ⟨p, y, c, hrest, hready, hrun⟩ :=
    runSteps_unary (n := 0) (cursorReady_of_inv hm hpass hstale) hinputs (by omega) hbits 1
  rw [← State.eq_inRun_zero hphase hlen, Nat.zero_add] at hrun
  obtain ⟨p', y', c', hread, hleft⟩ := readBits_next (hready.inRun n .rleValue) (readBits_list_iff.mpr ⟨hv, hrest⟩)
  have hexec := exec_runToken hv hi (((s.setCursor p y c).inRun n .rleValue).setCursor p' y' c')
  have hlast := (step_inRun_value (s := s.setCursor p y c) hinputs hn hi hread).trans hexec
  exact ⟨_, _, hrun.trans (runSteps_succ 0 hlast), hexec, hleft, rfl⟩

/-! ### A cell of a run -/

/-- A cell of a run inside WM writes the byte that is there and goes on where the advance and the count say (R64, R68). -/
theorem execRleWrite_next {s : State} (hp : s.pptr.toNat < Config.outSize) :
    execRleWrite s = .next (dispatch (advance s).1 (if s.rlecnt - 1 = 0 then .data else .rleWrite)
      { (advance s).2.writeWm s.pptr.toNat (s.wm.read s.pptr.toNat) with rlecnt := s.rlecnt - 1 }) := by
  have hzero : s.wm.read s.pptr.toNat ||| cellTransform 0 s.rot = s.wm.read s.pptr.toNat := by
    rw [cellTransform_eq 0 s.rot (by decide)]
    simp
  rw [execRleWrite, cellWrite_of_lt 0 s hp, hzero]
  simp only [finishRunCell_eq, advance_writeWm, State.writeWm_rlecnt, advance_rlecnt]

theorem advance_wm (s : State) : (advance s).2.wm = s.wm := by
  obtain ⟨_, _, _, _, _, _, _, ha⟩ := advance_frame s
  rw [ha]

/-- Settles O19: the byte written is the byte read, and the phase follows the advance and the count. -/
theorem runStepWritesNothingAndCountsDown : Obligations.RunStepWritesNothingAndCountsDown := by
  intro s hp
  refine ⟨_, execRleWrite_next hp, fun a => ?_, ?_⟩ <;> rw [dispatch_eq]
  · rw [← advance_wm s]
    exact writeWm_read_same _ _ a
  · rfl

/-! ### The ROM's end inside a token -/

theorem readBit_at_end {s : State} (h0 : s.inCnt = 0) (hp : s.cfg.romSize ≤ s.inPtr.toNat) : readBit s = .error s := by
  rw [readBit, if_pos h0, romFetch_at_end hp]

/-- A refill takes one byte at `IN_PTR`, the ROM's or an earlier one, and perhaps draws a free value (R57, R109). -/
theorem readBit_refill {s : State} (h0 : s.inCnt = 0) (hp : s.inPtr.toNat < s.cfg.romSize) :
    ∃ (y : Byte) (m : Nat),
      readBit s = .ok (y.getLsbD 7, { s with freeCtr := m }.setCursor (s.inPtr + 1) (y <<< 1) 7) := by
  obtain ⟨y, t, hf, -, ht⟩ := changedRomByteReadsOldOrNew.1 s hp
  obtain ⟨m, rfl⟩ : ∃ m, t = { s with inPtr := s.inPtr + 1, freeCtr := m } := ⟨_, ht⟩
  exact ⟨y, m, by simp [readBit, h0, hf, shiftBit, State.setCursor]⟩

/-- How many bits are unread (R15, R38). -/
theorem unreadBits_length {s : State} (h : s.inCnt.toNat ≤ 8) :
    (unreadBits s).length = s.inCnt.toNat + 8 * (s.cfg.romSize - s.inPtr.toNat) := by
  have hbytes (m : Memory) (n a : Nat) : (romBytes m a n).length = n := by
    induction n generalizing a with
    | zero => rfl
    | succ n ih => rw [romBytes, List.length_cons, ih]
  rw [unreadBits, List.length_append, List.length_take, bitsOfNat_length, Nat.min_eq_left h, bitsOfBytes_length, hbytes]

/-- `s` with every unread bit read: the cursor at the end of the ROM, or where it stood beyond it, with `n` free values drawn. -/
def drained (s : State) (n : Nat) : State :=
  { s with
    inPtr := if s.inPtr.toNat < s.cfg.romSize then BitVec.ofNat 24 s.cfg.romSize else s.inPtr
    inByte := if s.inPtr.toNat < s.cfg.romSize then 0 else s.inByte <<< s.inCnt.toNat
    inCnt := 0
    freeCtr := n }

theorem drained_of_end {s : State} (h0 : s.inCnt = 0) (hp : s.cfg.romSize ≤ s.inPtr.toNat) : drained s s.freeCtr = s := by
  have hlt := Nat.not_lt.mpr hp
  have hbyte : s.inByte <<< s.inCnt.toNat = s.inByte := by
    rw [h0]
    exact BitVec.shiftLeft_zero s.inByte
  simp only [drained, if_neg hlt, hbyte]
  rw [← h0]

/-- Draining goes on from the state that a bit out of `IN_BYTE` leaves. -/
theorem drained_shift (s : State) (n : Nat) (h0 : s.inCnt ≠ 0) :
    drained (s.setCursor s.inPtr (s.inByte <<< 1) (s.inCnt - 1)) n = drained s n := by
  have hcnt : 1 + (s.inCnt - 1).toNat = s.inCnt.toNat := by bv_omega
  simp only [drained, State.setCursor, ← BitVec.shiftLeft_add, hcnt]
  rfl

/-- Draining goes on from the state that a refill leaves. -/
theorem drained_refill (s : State) (y : Byte) (m n : Nat) (hsize : s.cfg.romSize ≤ Config.romSizeMax)
    (hp : s.inPtr.toNat < s.cfg.romSize) :
    drained ({ s with freeCtr := m }.setCursor (s.inPtr + 1) (y <<< 1) 7) n = drained s n := by
  have hmax : s.cfg.romSize ≤ 0x800000 := hsize
  have hnext : (s.inPtr + 1).toNat = s.inPtr.toNat + 1 := by bv_omega
  have hbyte : (y <<< 1) <<< (7 : BitVec 4).toNat = 0 := by
    rw [← BitVec.shiftLeft_add]
    exact BitVec.shiftLeft_eq_zero (by decide)
  unfold drained State.setCursor
  by_cases hlast : s.inPtr.toNat + 1 < s.cfg.romSize
  · simp only [hnext, if_pos hlast, if_pos hp]
  · have hptr : s.inPtr + 1 = BitVec.ofNat 24 s.cfg.romSize := by bv_omega
    simp only [hnext, if_neg hlast, if_pos hp, hbyte]
    rw [hptr]

/-- With fewer than `k` bits left, `ReadBits(k)` reads them all and fails, and only the bit cursor has moved (R96). -/
theorem readBits_drains {k v : Nat} {s : State} (hcnt : s.inCnt.toNat ≤ 8) (hsize : s.cfg.romSize ≤ Config.romSizeMax)
    (hk : s.inCnt.toNat + 8 * (s.cfg.romSize - s.inPtr.toNat) < k) :
    ∃ n, readBitsFrom readBit k v s = .error (drained s n) := by
  induction k generalizing v s with
  | zero => omega
  | succ k ih =>
    by_cases h0 : s.inCnt = 0
    · by_cases hp : s.inPtr.toNat < s.cfg.romSize
      · obtain ⟨y, m, hread⟩ := readBit_refill h0 hp
        have hmax : s.cfg.romSize ≤ 0x800000 := hsize
        have hnext : (s.inPtr + 1).toNat = s.inPtr.toNat + 1 := by bv_omega
        have hless : 7 + 8 * (s.cfg.romSize - (s.inPtr + 1).toNat) < k := by rw [hnext]; omega
        obtain ⟨n, hrest⟩ := ih (v := 2 * v + (y.getLsbD 7).toNat)
          (s := State.setCursor { s with freeCtr := m } (s.inPtr + 1) (y <<< 1) 7) (Nat.le_succ 7) hsize hless
        exact ⟨n, by rw [readBitsFrom, hread, ← drained_refill s y m n hsize hp]; exact hrest⟩
      · have hend := Nat.not_lt.mp hp
        exact ⟨s.freeCtr, by rw [readBitsFrom, readBit_at_end h0 hend, drained_of_end h0 hend]⟩
    · have hone : (s.inCnt - 1).toNat + 1 = s.inCnt.toNat := by bv_omega
      have hless : (s.inCnt - 1).toNat + 8 * (s.cfg.romSize - s.inPtr.toNat) < k := by omega
      obtain ⟨n, hrest⟩ := ih (v := 2 * v + (s.inByte.getLsbD 7).toNat)
        (s := s.setCursor s.inPtr (s.inByte <<< 1) (s.inCnt - 1)) (by rw [State.setCursor_inCnt]; omega) hsize hless
      exact ⟨n, by rw [readBitsFrom, readBit_of_left s h0, ← drained_shift s n h0]; exact hrest⟩

theorem unreadBits_drained (s : State) (n : Nat) (hsize : s.cfg.romSize ≤ Config.romSizeMax) :
    unreadBits (drained s n) = [] := by
  have hmax : s.cfg.romSize ≤ 0x800000 := hsize
  refine unreadBits_at_end rfl ?_
  unfold drained
  dsimp only
  split
  · exact Nat.le_of_eq (Nat.mod_eq_of_lt (by omega)).symm
  · exact Nat.not_lt.mp ‹_›

/-- Settles O40: the one bit left of a pair or a mode token is read before the read that fails; the bits left of a run value all
are. -/
theorem secondBitPastTheRomKeepsTheFirst : Obligations.SecondBitPastTheRomKeepsTheFirst := by
  refine ⟨fun s hcnt hend hphase => ?_, fun s hcnt hsize hphase hshort => ?_⟩
  · have hfirst : readBit s = .ok (s.inByte.getLsbD 7, s.setCursor s.inPtr (s.inByte <<< 1) 0) := by
      rw [readBit_of_left s (by rw [hcnt]; decide), hcnt]
      rfl
    have hsecond := readBit_at_end (s := s.setCursor s.inPtr (s.inByte <<< 1) 0) rfl hend
    refine engineStep_of_romOutOfRange (t := s.setCursor s.inPtr (s.inByte <<< 1) 0) ?_
    rcases hphase with hphase | ⟨hphase, hbit⟩
    · simp only [fetch, hphase, pairFrom, readBitsFrom, hfirst, hsecond, ofToken]
    · simp only [fetch, hphase, modeFrom, hfirst, hbit, hsecond, ofToken]
  · obtain ⟨n, hread⟩ := readBits_drains (v := 0) hcnt hsize (unreadBits_length hcnt ▸ hshort)
    have hfetch : fetch s = .romOutOfRange (drained s n) := by
      simp only [fetch, hphase, fetchRunValue, runValueFrom, hread]
    exact ⟨_, engineStep_of_romOutOfRange hfetch, unreadBits_drained s n hsize, rfl, rfl⟩

end Sys2Proof.Machine
end

section
/-! SUPPORT. The advance over the cells of a pass (R69 to R71) and the run that writes them (R68, R73). -/

namespace Sys2Proof.Machine

/-! ### The advance by the number of the cell -/

/-- Settles O21: each result of the advance fixes the phase alone. -/
theorem dispatchFollowsTheAdvance : Obligations.DispatchFollowsTheAdvance := fun _ _ => ⟨rfl, rfl, rfl⟩

/-- At the last row of the last bit pair of the last column stands the last cell of the pass (R71). -/
theorem PassGeometry.last_cell {s : State} (g : PassGeometry s) (hrow : s.row.toNat + 1 = 8 * s.tilesHigh) (hrot : s.rot = 0)
    (hcol : s.col.toNat + 8 = 8 * s.tilesWide) : s.cellIndex + 1 = s.passCells := by
  obtain ⟨c, -, hc, -, -⟩ := g.place
  have hwide : s.tilesWide = c + 1 := by omega
  have hzero : s.rot.toNat = 0 := by rw [hrot]; rfl
  have hcells : s.passCells = c * (32 * s.tilesHigh) + 32 * s.tilesHigh := by
    unfold State.passCells; rw [hwide]; ring
  rw [hcells, State.cellIndex, hc, hzero, Nat.mul_div_cancel_left c (by decide)]
  omega

/-- The advance keeps to the pass exactly while a cell of it is left, because the next cell has a number of the pass too (R71). -/
theorem advance_notYetReady_iff {s : State} (g : PassGeometry s) (hw : legalDim s.tilesWide = true)
    (hh : legalDim s.tilesHigh = true) : (advance s).1 = .notYetReady ↔ s.cellIndex + 1 < s.passCells := by
  constructor
  · intro hnext
    have hlt := (g.advance hw hh hnext).cellIndex_lt
    rw [advance_cellIndex g hw hh hnext] at hlt
    obtain ⟨_, _, _, _, _, _, _, hframe⟩ := advance_frame s
    rwa [hframe] at hlt
  · intro hlt
    rcases advance_cases s with
      ⟨-, ha⟩ | ⟨-, -, ha⟩ | ⟨-, -, -, ha⟩ | ⟨hrow, hrot, hcol, -, -⟩ | ⟨hrow, hrot, hcol, -, -⟩
    · rw [ha]
    · rw [ha]
    · rw [ha]
    · exact absurd (g.last_cell hrow hrot hcol) (Nat.ne_of_lt hlt)
    · exact absurd (g.last_cell hrow hrot hcol) (Nat.ne_of_lt hlt)

/-- While the advance keeps to the pass it moves the place of the current cell only (R69). -/
theorem advance_moves_place {s : State} (hnext : (advance s).1 = .notYetReady) :
    ∃ row col rot pptr sptr,
      advance s = (.notYetReady, { s with row := row, col := col, rot := rot, pptr := pptr, sptr := sptr }) := by
  obtain ha | ⟨-, ha⟩ | ⟨-, ha⟩ := advance_outcome s
  · exact ha
  · rw [ha] at hnext; cases hnext
  · rw [ha] at hnext; cases hnext

/-- Settles O22: `PPTR` and `ROT` are the place of the current cell, and the advance stays in the pass while a cell is left. -/
theorem advanceVisitsTheCellsInOrder : Obligations.AdvanceVisitsTheCellsInOrder := by
  intro s hw1 hw7 hh1 hh7 g
  have hw := (legalDim_iff _).mpr ⟨hw1, hw7⟩
  have hh := (legalDim_iff _).mpr ⟨hh1, hh7⟩
  have hready := advance_notYetReady_iff g hw hh
  obtain ⟨hbyte, hrot⟩ := g.current
  refine ⟨g.cellIndex_lt, hbyte.symm, hrot.symm, fun hlt => ?_, fun hlast => ?_⟩
  · have hnext := hready.mpr hlt
    refine ⟨(advance s).2, Prod.ext hnext rfl, g.advance hw hh hnext, advance_cellIndex g hw hh hnext, ?_⟩
    obtain ⟨row, col, rot, pptr, sptr, ha⟩ := advance_moves_place hnext
    rw [ha]
  · obtain ⟨row, col, rot, pptr, sptr, ha⟩ | ⟨hf, ha⟩ | ⟨hf, ha⟩ := advance_outcome s
    · exact absurd hlast (Nat.ne_of_lt (hready.mp (by rw [ha])))
    · simp [ha, hf]
    · simp [ha, hf]

/-! ### A cell of a run -/

/-- With no input pending a step in RLE_WRITE is one cell of the run: no byte of WM reads otherwise, and the advance and the count
say where it goes on (R68). -/
theorem PassInv.step_run {s : State} (h : PassInv s) (hp : s.phase = .rleWrite) (hi : s.inputs = []) :
    ∃ t, step s = .next t ∧ PassInv t ∧ (∀ a, t.wm.read a = s.wm.read a) ∧
      t = { (Machine.advance s).2 with
        wm := t.wm
        rlecnt := s.rlecnt - 1
        phase := match (Machine.advance s).1 with
          | .notYetReady => if s.rlecnt - 1 = 0 then .data else .rleWrite
          | .restart => .passSetup
          | .done => .unpack } := by
  obtain ⟨t, ht, hwm, hframe⟩ := runStepWritesNothingAndCountsDown s h.pptr_lt
  have hfetch : fetch s = .token .rleWrite s := by rw [fetch, hp]
  exact ⟨t, (step_of_no_input s hi).trans ((engineStep_of_token hfetch).trans ht), h.execRleWrite hp ht, hwm, hframe⟩

/-- `t` is `s` after `n` more cells of a run in the same pass: the place and the count have moved, no byte of WM reads otherwise. -/
structure RunAhead (n : Nat) (s t : State) : Prop where
  frame : t = { s with
    row := t.row, col := t.col, rot := t.rot, pptr := t.pptr, sptr := t.sptr, rlecnt := t.rlecnt, wm := t.wm, phase := t.phase }
  wm : ∀ a, t.wm.read a = s.wm.read a
  index : t.cellIndex = s.cellIndex + n
  count : t.rlecnt.toNat + n = s.rlecnt.toNat

theorem RunAhead.refl (s : State) : RunAhead 0 s s := ⟨rfl, fun _ => rfl, rfl, rfl⟩

theorem RunAhead.trans {m n : Nat} {s t u : State} (h : RunAhead m s t) (k : RunAhead n t u) : RunAhead (m + n) s u where
  frame := by rw [k.frame, h.frame]
  wm a := (k.wm a).trans (h.wm a)
  index := by rw [k.index, h.index, Nat.add_assoc]
  count := by have := h.count; have := k.count; omega

theorem RunAhead.passCells_eq {n : Nat} {s t : State} (h : RunAhead n s t) : t.passCells = s.passCells := by
  rw [h.frame]; rfl

/-- Before the last cell of the pass a step of the run goes one cell ahead, and hands over to DATA when the count is used up (R68). -/
theorem PassInv.step_run_ahead {s : State} (h : PassInv s) (hp : s.phase = .rleWrite) (hi : s.inputs = [])
    (hcell : s.cellIndex + 1 < s.passCells) :
    ∃ t, step s = .next t ∧ PassInv t ∧ RunAhead 1 s t ∧ t.phase = if s.rlecnt.toNat = 1 then .data else .rleWrite := by
  obtain ⟨t, hstep, ht, hwm, hframe⟩ := h.step_run hp hi
  have hin : inPass s.phase = true := by rw [hp]; rfl
  obtain ⟨hw, hh⟩ := h.dims (headerPassed_of_inPass hin)
  have hnext := (advance_notYetReady_iff (h.geometry hin) hw hh).mpr hcell
  have hindex := advance_cellIndex (h.geometry hin) hw hh hnext
  have hpos := h.count_pos hp
  obtain ⟨row, col, rot, pptr, sptr, ha⟩ := advance_moves_place hnext
  rw [ha] at hindex hframe
  refine ⟨t, hstep, ht, ⟨by rw [hframe], hwm, by rw [hframe]; exact hindex, ?_⟩, ?_⟩
  · rw [hframe]
    show (s.rlecnt - 1).toNat + 1 = _
    bv_omega
  · have hone : s.rlecnt - 1 = 0 ↔ s.rlecnt.toNat = 1 := by constructor <;> intro <;> bv_omega
    rw [hframe]
    simp only [hone]

/-- While both the count and the cells last, a run takes one step a cell (R68). -/
theorem PassInv.runSteps_run {n : Nat} {s : State} (h : PassInv s) (hp : s.phase = .rleWrite) (hi : s.inputs = [])
    (hcount : n < s.rlecnt.toNat) (hcell : s.cellIndex + n < s.passCells) :
    ∃ t, (∀ k, runSteps (n + k) s = runSteps k t) ∧ PassInv t ∧ t.phase = .rleWrite ∧ RunAhead n s t := by
  induction n generalizing s with
  | zero => exact ⟨s, fun k => by rw [Nat.zero_add], h, hp, .refl s⟩
  | succ n ih =>
    obtain ⟨u, hstep, hu, hahead, hphase⟩ := h.step_run_ahead hp hi (by omega)
    have hcount1 := hahead.count
    rw [if_neg (by omega)] at hphase
    obtain ⟨t, hrun, ht, htp, hmore⟩ := ih hu hphase (by rw [hahead.frame]; exact hi) (by omega)
      (by rw [hahead.index, hahead.passCells_eq]; omega)
    refine ⟨t, fun k => ?_, ht, htp, Nat.add_comm 1 n ▸ hahead.trans hmore⟩
    rw [Nat.add_right_comm, runSteps_succ _ hstep, hrun]

/-- At the last cell of the pass a step of the run ends the pass, whatever is left of the count (R73). -/
theorem PassInv.step_run_last {s : State} (h : PassInv s) (hp : s.phase = .rleWrite) (hi : s.inputs = [])
    (hcell : s.cellIndex + 1 = s.passCells) :
    ∃ t, step s = .next t ∧ (∀ a, t.wm.read a = s.wm.read a) ∧
      t = { s with
        row := 0, rot := 3, col := 0, orient := if s.fpd then s.orient else !s.orient, fpd := true
        wm := t.wm, rlecnt := s.rlecnt - 1, phase := if s.fpd then .unpack else .passSetup } := by
  obtain ⟨t, hstep, -, hwm, hframe⟩ := h.step_run hp hi
  have hin : inPass s.phase = true := by rw [hp]; rfl
  obtain ⟨hw, hh⟩ := h.dims (headerPassed_of_inPass hin)
  obtain ⟨hw1, hw7⟩ := (legalDim_iff _).mp hw
  obtain ⟨hh1, hh7⟩ := (legalDim_iff _).mp hh
  obtain ⟨-, -, -, -, hlast⟩ := advanceVisitsTheCellsInOrder s hw1 hw7 hh1 hh7 (h.geometry hin)
  refine ⟨t, hstep, hwm, hframe.trans ?_⟩
  rw [hlast hcell]
  cases s.fpd <;> rfl

/-- Settles O20: one step a cell up to the last, whose step ends the run or the pass. -/
theorem runWritesAtMostTheCellsLeft : Obligations.RunWritesAtMostTheCellsLeft := by
  intro s h hp hi
  have hpos := h.count_pos hp
  have hlt := (h.geometry (by rw [hp]; rfl)).cellIndex_lt
  refine ⟨fun hshort => ?_, fun hlong => ?_⟩
  · obtain ⟨u, hrun, hu, hup, hahead⟩ := h.runSteps_run (n := s.rlecnt.toNat - 1) hp hi (by omega) (by omega)
    have hindex := hahead.index
    have hcount := hahead.count
    have hcells := hahead.passCells_eq
    obtain ⟨t, hstep, -, hone, hphase⟩ := hu.step_run_ahead hup (by rw [hahead.frame]; exact hi) (by omega)
    rw [if_pos (by omega)] at hphase
    have hall := hahead.trans hone
    rw [Nat.sub_add_cancel hpos] at hall
    have hused := hall.count
    have hsteps : runSteps s.rlecnt.toNat s = .next t := by
      rw [← Nat.sub_add_cancel hpos, hrun, runSteps_succ 0 hstep]; rfl
    refine ⟨t, hsteps, hphase, by bv_omega, hall.index, ?_, ?_, ?_, ?_, ?_, ?_, hall.wm⟩
    all_goals rw [hall.frame]
  · obtain ⟨u, hrun, hu, hup, hahead⟩ := h.runSteps_run (n := s.passCells - s.cellIndex - 1) hp hi (by omega) (by omega)
    have hindex := hahead.index
    have hcount := hahead.count
    have hcells := hahead.passCells_eq
    obtain ⟨t, hstep, hwm, hframe⟩ := hu.step_run_last hup (by rw [hahead.frame]; exact hi) (by omega)
    have hsteps : runSteps (s.passCells - s.cellIndex) s = .next t := by
      rw [← Nat.sub_add_cancel (Nat.sub_pos_of_lt hlt), hrun, runSteps_succ 0 hstep]; rfl
    have hleft : (u.rlecnt - 1).toNat = s.rlecnt.toNat - (s.passCells - s.cellIndex) := by bv_omega
    refine ⟨t, hsteps, ?_, ?_, ?_, ?_, ?_, ?_, ?_, ?_, fun a => (hwm a).trans (hahead.wm a)⟩
    case refine_2 => rw [hframe]; exact hleft
    all_goals rw [hframe, hahead.frame]

end Sys2Proof.Machine
end

section
/-! SUPPORT. The work of a decode (R74, R114): every engine step of a running phase uses some of it up, so every decode ends. -/

namespace Sys2Proof.Machine

/-! ### The size of the work -/

theorem CursorMoved.workLeft_eq {s t : State} (h : CursorMoved s t) : workLeft t = workLeft s := by
  obtain ⟨p, y, c, n, rfl⟩ := h
  rfl

/-- A pass has at most 1568 cells (R58). -/
theorem passWork_le {s : State} (hw : legalDim s.tilesWide = true) (hh : legalDim s.tilesHigh = true) :
    passWork s ≤ 18 * 1568 :=
  Nat.mul_le_mul_left 18
    (Nat.mul_le_mul (Nat.mul_le_mul_left 32 ((legalDim_iff _).mp hw).2) ((legalDim_iff _).mp hh).2)

theorem cellsLeft_le (s : State) : 18 * cellsLeft s ≤ passWork s := Nat.mul_le_mul_left 18 (Nat.sub_le _ _)

theorem PassGeometry.cellsLeft_pos {s : State} (g : PassGeometry s) : 1 ≤ cellsLeft s := Nat.sub_pos_of_lt g.cellIndex_lt

theorem workAfterPass_ge (s : State) : 2 ≤ workAfterPass s := by
  unfold workAfterPass
  split <;> omega

/-- In a pass there is work for one step of the current cell, for every later cell, and for what comes after the pass. -/
theorem PassGeometry.workLeft_ge {s : State} (g : PassGeometry s) (hp : inPass s.phase = true) :
    1 + 18 * (cellsLeft s - 1) + workAfterPass s ≤ workLeft s := by
  have hpos := g.cellsLeft_pos
  have hle := cellsLeft_le s
  cases hq : s.phase <;> rw [hq] at hp
  case mode | kind | data | rlePrefix | rleValue | rleWrite => simp only [workLeft, hq]; omega
  all_goals cases hp

/-- A running phase has a step before it. -/
theorem workLeft_pos {s : State} (hp : phaseBusy s.phase = true) : 0 < workLeft s := by
  have := workAfterPass_ge s
  cases hq : s.phase <;> rw [hq] at hp
  case idle | done | error => cases hp
  all_goals simp only [workLeft, hq]; omega

/-- The work of a running state is bounded by that of the largest sprite, 7×7 tiles (R58, R114). -/
theorem PassInv.workLeft_le {s : State} (h : PassInv s) (hp : phaseBusy s.phase = true) : workLeft s ≤ 56458 := by
  cases hq : s.phase
  case idle | done | error => rw [hq] at hp; cases hp
  case header => simp only [workLeft, hq]; decide
  all_goals
    have hdims := h.dims (by rw [hq]; rfl)
    have hpass := passWork_le hdims.1 hdims.2
    have hcells := cellsLeft_le s
    have hafter : workAfterPass s ≤ 5 + passWork s := by unfold workAfterPass; split <;> omega
  case mode =>
    have hsecond : workAfterPass s = 2 := if_pos (h.second_pass (.inl hq))
    simp only [workLeft, hq]; omega
  case passSetup =>
    simp only [workLeft, workAfterPass, hq]
    split <;> omega
  all_goals simp only [workLeft, hq]; omega

/-! ### The tokens use up work -/

/-- Whatever the cell and wherever the pass goes on, a cell written uses up work: the next cell's share, or the setup of the second
pass, or UNPACK (R69, R70). -/
theorem PassInv.workLeft_advance_lt {s : State} (h : PassInv s) (hp : inPass s.phase = true) {p : Phase}
    (hc : p = .data ∨ p = .rleWrite) (m : Memory) (k : BitVec 16) :
    workLeft (dispatch (Machine.advance s).1 p { (Machine.advance s).2 with wm := m, rlecnt := k }) < workLeft s := by
  have g := h.geometry hp
  obtain ⟨hw, hh⟩ := h.dims (headerPassed_of_inPass hp)
  have hge := g.workLeft_ge hp
  refine Nat.lt_of_lt_of_le ?_ hge
  have hready := advance_notYetReady_iff g hw hh
  have hindex := advance_cellIndex g hw hh
  obtain ⟨row, col, rot, pptr, sptr, ha⟩ | ⟨hf, ha⟩ | ⟨-, ha⟩ := advance_outcome s
  · rw [ha] at hready hindex ⊢
    generalize hu : ({ s with row := row, col := col, rot := rot, pptr := pptr, sptr := sptr } : State) = u at hindex ⊢
    have hlt := hready.mp rfl
    have hcells : u.passCells = s.passCells := by rw [← hu]; rfl
    have hafter : workAfterPass u = workAfterPass s := by rw [← hu]; rfl
    have hleft : cellsLeft u = cellsLeft s - 1 := by rw [cellsLeft, hindex rfl, hcells, cellsLeft, Nat.sub_add_eq]
    have hpos : 1 < cellsLeft s := by unfold cellsLeft; omega
    rcases hc with rfl | rfl
    · show 18 * cellsLeft u + workAfterPass u < _
      omega
    · show 1 + 18 * (cellsLeft u - 1) + workAfterPass u < _
      omega
  · have hafter : workAfterPass s = 5 + passWork s := if_neg (by simp [hf])
    rw [ha]
    show 3 + passWork s + 2 < _
    omega
  · have hafter := workAfterPass_ge s
    rw [ha]
    show 2 < _
    omega

/-- The header goes on to ORIENT with dimensions that bound the work of both passes, or ends in an error (R58). -/
theorem PassInv.workLeft_execHdr_lt {s t : State} (h : PassInv s) (hp : s.phase = .header) {w b : BitVec 4}
    (ht : Machine.execHdr w b s = .next t) : workLeft t < workLeft s := by
  have hinv := h.execHdr hp ht
  have hwork : workLeft s = 56457 := by simp only [workLeft, hp]
  unfold Machine.execHdr at ht
  split at ht <;> cases ht
  · obtain ⟨hw, hh⟩ := hinv.dims rfl
    have hpass := passWork_le hw hh
    rw [hwork]
    show 8 + 2 * passWork _ < _
    omega
  · rw [hwork]
    exact Nat.succ_pos _

/-- The unary part of a run and its value fit the 18 steps of the run's first cell (R66, R67). -/
theorem PassInv.workLeft_enterRun_lt {s : State} (h : PassInv s) (hp : s.phase = .kind ∨ s.phase = .data) :
    workLeft (enterRun s) < workLeft s := by
  have hpos := (h.geometry (by rcases hp with hp | hp <;> rw [hp] <;> rfl)).cellsLeft_pos
  have hle := cellsLeft_le s
  show 15 - 0 + 2 + 18 * (cellsLeft s - 1) + workAfterPass s < _
  rcases hp with hp | hp <;> simp only [workLeft, hp] <;> omega

theorem workLeft_startRun_lt {s : State} (hp : s.phase = .rlePrefix ∨ s.phase = .rleValue) (n v : Nat) :
    workLeft (startRun n v s) < workLeft s := by
  show 1 + 18 * (cellsLeft s - 1) + workAfterPass s < _
  rcases hp with hp | hp <;> simp only [workLeft, hp] <;> omega

theorem workLeft_setMode_lt {s : State} (hp : s.phase = .mode) (m : BitVec 2) : workLeft (setMode m s) < workLeft s := by
  show 1 + passWork s + workAfterPass s < _
  simp only [workLeft, hp]
  omega

theorem PassInv.workLeft_writePair_lt {s t : State} (h : PassInv s) (hp : s.phase = .data) {c : Byte} (hc : c.toNat < 4)
    (ht : Machine.writePair c s = .next t) : workLeft t < workLeft s := by
  rw [writePair_next hc h.pptr_lt] at ht
  cases ht
  exact h.workLeft_advance_lt (by rw [hp]; rfl) (.inl rfl) _ _

theorem PassInv.workLeft_execRleWrite_lt {s t : State} (h : PassInv s) (hp : s.phase = .rleWrite)
    (ht : Machine.execRleWrite s = .next t) : workLeft t < workLeft s := by
  rw [execRleWrite_next h.pptr_lt] at ht
  cases ht
  refine h.workLeft_advance_lt (by rw [hp]; rfl) ?_ _ _
  split
  · exact .inl rfl
  · exact .inr rfl

/-- Every token of the engine uses up work. -/
theorem PassInv.workLeft_exec_lt {i : Instr} {s t : State} (h : PassInv s) (hr : ReadsIn s.phase (contextOf i))
    (ht : Machine.exec i s = .next t) : workLeft t < workLeft s := by
  cases i with
  | hdr w b => exact h.workLeft_execHdr_lt hr ht
  | orient o =>
    cases ht
    have hp : s.phase = .orient := hr
    have hf : ¬s.fpd = true := by simp [(h.first_pass (.inr hp)).1]
    show (if s.fpd then 3 else 2) + passWork s + (if s.fpd then 2 else 5 + passWork s) < _
    rw [if_neg hf, if_neg hf]
    simp only [workLeft, hp]
    omega
  | mode0 | mode1 | mode2 => cases ht; exact workLeft_setMode_lt hr _
  | kindRle => cases ht; exact h.workLeft_enterRun_lt (.inl hr)
  | endData => cases ht; exact h.workLeft_enterRun_lt (.inr hr)
  | kindData =>
    cases ht
    have hp : s.phase = .kind := hr
    have hle := cellsLeft_le s
    show 18 * cellsLeft s + workAfterPass s < _
    simp only [workLeft, hp]
    omega
  | pair1 | pair2 | pair3 => exact h.workLeft_writePair_lt hr (by decide) ht
  | runN0 v | runN1 v | runN2 v | runN3 v | runN4 v | runN5 v | runN6 v | runN7 v | runN8 v | runN9 v | runN10 v
  | runN11 v | runN12 v | runN13 v | runN14 v => cases ht; exact workLeft_startRun_lt hr _ _
  | runOverlong => cases ht; exact workLeft_pos (by rcases hr with hr | hr <;> rw [hr] <;> rfl)
  | passSetup =>
    cases ht
    have hp : s.phase = .passSetup := hr
    by_cases hf : s.fpd = true
    · rw [if_pos hf]
      show 2 + passWork s + workAfterPass s < _
      simp only [workLeft, hp, if_pos hf]
      omega
    · rw [if_neg hf]
      show 1 + passWork s + workAfterPass s < _
      simp only [workLeft, hp, if_neg hf]
      omega
  | rleWrite => exact h.workLeft_execRleWrite_lt hr ht
  | unpack =>
    have hp : s.phase = .unpack := hr
    simp only [Machine.exec, execUnpack] at ht
    split at ht <;> cases ht
    show 1 < _
    simp only [workLeft, hp]
    omega
  | interleave => cases ht; exact workLeft_pos (by rw [show s.phase = .interleave from hr]; rfl)
  | start d | ctrlWr d | clrSt d | srcWr0 d | srcWr1 d | srcWr2 d | rd a => exact hr.elim

/-! ### An engine step uses up work -/

/-- The engine's read leaves the invariant as it is (R50). -/
theorem PassInv.fetched {s u : State} (h : PassInv s) (hu : (fetch s).EndsAt u) : PassInv u := by
  refine (fetch_keeps (P := fun v => PassInv v ∧ v.phase = s.phase) (fun _ _ => ?_) (fun hp v hv => ?_) ⟨h, rfl⟩ hu).1
  · exact ⟨h.romFetch, (romFetch_leaves s).phase_eq⟩
  · exact ⟨hv.1.readBit (hv.2 ▸ hp), (readBit_leaves v).phase_eq.trans hv.2⟩

/-- A bit of a run's unary part uses up one of the 15 steps it may take (R66). -/
theorem PassInv.workLeft_more_lt {s t : State} (h : PassInv s) (ht : fetch s = .more t) : workLeft t < workLeft s := by
  obtain ⟨hp, b, u, -, hm, hb⟩ := fetch_more ht
  have hle := h.rlen_le
  obtain ⟨p, y, c, n, rfl⟩ := hm
  rcases hb with ⟨-, hn, rfl⟩ | ⟨-, rfl⟩
  · unfold Config.rleMaxPrefix at hn
    have hone : (s.rlen + 1).toNat = s.rlen.toNat + 1 := by bv_omega
    simp only [workLeft, hp, hone]
    show 15 - (s.rlen.toNat + 1) + 2 + 18 * (cellsLeft s - 1) + workAfterPass s < _
    omega
  · show 2 + 18 * (cellsLeft s - 1) + workAfterPass s < _
    simp only [workLeft, hp]
    omega

theorem PassInv.workLeft_engineStep_lt {s t : State} (h : PassInv s) (hp : phaseBusy s.phase = true)
    (ht : Machine.engineStep s = .next t) : workLeft t < workLeft s := by
  rcases engineStep_next ht with ⟨i, u, hf, hm, hc, he⟩ | hmore | ⟨u, -, rfl⟩ | ⟨hq, -⟩
  · have hread : ReadsIn u.phase (contextOf i) := hm.phase_eq ▸ readsIn_of_phaseContext hc
    exact hm.workLeft_eq ▸ (h.fetched (.inr ⟨i, hf⟩)).workLeft_exec_lt hread he
  · exact h.workLeft_more_lt hmore
  · exact workLeft_pos hp
  · rw [(fetch_quiescent_iff s).mp hq] at hp
    cases hp

/-- Settles O58: the largest sprite bounds the work, and every token and every bit of a run uses some of it up. -/
theorem engineStepUsesUpWork : Obligations.EngineStepUsesUpWork :=
  fun _ _ h hp ht => ⟨h.workLeft_le hp, h.workLeft_engineStep_lt hp ht⟩

/-! ### Every decode ends -/

/-- A running engine does not go back to IDLE (R24). -/
theorem EngineMove.phase_ne_idle {s t : State} (hm : EngineMove s t) (hp : phaseBusy s.phase = true) : t.phase ≠ .idle := by
  cases hm with
  | rest => exact (phase_of_busy hp).1
  | passSetup _ => dsimp only; split <;> exact nofun
  | token m n k p _ hq _ => exact (phase_of_busy (phaseBusy_of_inPass hq)).1
  | cell x w k p _ _ hw hc =>
    obtain ⟨-, _, _, _, _, _, _, _, _, q, hq, ht⟩ := cell_frame hw hc k
    rw [ht]
    exact (phase_of_busy hq).1
  | error | header | orient | unpack | interleave => exact nofun

theorem phaseBusy_eq_false_iff (p : Phase) : phaseBusy p = false ↔ p = .idle ∨ p = .done ∨ p = .error := by
  cases p <;> simp [phaseBusy]

/-- Where the engine takes no steps and no input is pending, nothing happens (R105). -/
theorem runSteps_of_quiescent {s : State} (hp : phaseBusy s.phase = false) (hi : s.inputs = []) (k : Nat) :
    runSteps k s = .next s := by
  have hstep : step s = .next s := by
    rw [step_of_no_input s hi, engineStep, (fetch_quiescent_iff s).mpr hp]
  induction k with
  | zero => rfl
  | succ k ih => rw [runSteps_succ k hstep, ih]

/-- As many steps as there is work left end the decode. -/
theorem PassInv.runSteps_ends {n : Nat} {s : State} (h : PassInv s) (hp : phaseBusy s.phase = true) (hi : s.inputs = [])
    (hn : workLeft s ≤ n) : ∃ t, runSteps n s = .next t ∧ (t.phase = .done ∨ t.phase = .error) := by
  induction n generalizing s with
  | zero => exact absurd (workLeft_pos hp) (Nat.not_lt.mpr hn)
  | succ n ih =>
    obtain ⟨t, ht⟩ := engineNeverStops s h
    have hless := h.workLeft_engineStep_lt hp ht
    obtain ⟨-, -, -, -, -, -, hinputs, -⟩ := engineLeavesHostStateAlone s t ht
    rw [hi] at hinputs
    rw [runSteps_succ n ((step_of_no_input s hi).trans ht)]
    cases hq : phaseBusy t.phase
    · refine ⟨t, runSteps_of_quiescent hq hinputs n, ?_⟩
      obtain ⟨u, hm, hmove⟩ := engineStep_move ht
      have hidle := hmove.phase_ne_idle (hm.phase_eq ▸ hp)
      exact ((phaseBusy_eq_false_iff _).mp hq).resolve_left hidle
    · exact ih (h.engineStep ht) hq hinputs (by omega)

/-- Settles O59: the bound on the work is a bound on the steps. -/
theorem everyDecodeEnds : Obligations.EveryDecodeEnds :=
  fun _ h hp hi => h.runSteps_ends hp hi (h.workLeft_le hp)

end Sys2Proof.Machine
end

section
/-! SUPPORT. The helper procedures of the reconstruction: the nibble reversal (R75), the focus pointers (R77), the delta decode as
the running XOR of a pixel row (R78). -/

namespace Sys2Proof.Machine

/-! ### The nibble reversal -/

theorem nibrev_swapNibbles : ∀ x : Byte, nibrev (swapNibbles x) = swapNibbles (nibrev x) := by decide +kernel

/-- Settles O24, by the mirrored bit of each nibble and the involution. -/
theorem nibrevReversesEachNibble : Obligations.NibrevReversesEachNibble := by
  refine ⟨fun x i hi => ⟨?low, ?high⟩, fun x => ⟨nibrev_nibrev x, nibrev_swapNibbles x⟩, by decide⟩
  case low => exact (nibrev_getLsbD x ⟨i, by omega⟩).trans (by rw [if_pos (Nat.lt_succ_of_le hi)])
  case high =>
    refine (nibrev_getLsbD x ⟨4 + i, by omega⟩).trans ?_
    rw [if_neg (by simp), show 11 - (4 + i) = 7 - i by omega]

/-! ### The focus pointers -/

/-- The second pass runs in the orientation the first pass's Restart flipped (R72, R77). -/
theorem PassInv.orient_of_unpack {s : State} (h : PassInv s) (hp : s.phase = .unpack) : s.orient = !s.orient0 := by
  have hfpd : s.fpd = true := h.second_pass (.inr (by rw [hp]; rfl))
  rw [h.orient_eq, hfpd, Bool.xor_true]

/-- Settles O25, by the rule's pointers and the flag of the first pass. -/
theorem resetPtrsNamesTheTwoPlanes : Obligations.ResetPtrsNamesTheTwoPlanes := by
  refine fun s => ⟨?_, fun h hp => h.orient_of_unpack hp, fun ho => ?_⟩
  · cases h : s.orient <;> simp [resetPtrs, h]
  · simp only [resetPtrs_eq, ho, Bool.not_not, and_self]

/-! ### One byte of the delta decode -/

theorem bitAt_getLsbD (v : Bool) {k i : Nat} (hk : k < 8) : (bitAt v k).getLsbD i = (decide (i = k) && v) := by
  cases v
  · simp [bitAt]
  · exact (BitVec.getLsbD_twoPow k i).trans (by simp [hk, eq_comm])

theorem pixelAt_column (m : Memory) (b h r c : Nat) {k : Nat} (hk : k < 8) :
    pixelAt m b h r (8 * c + 7 - k) = (m.read (b + c * (8 * h) + r)).getLsbD k := by
  rw [pixelAt, show (8 * c + 7 - k) / 8 = c by omega, show 7 - (8 * c + 7 - k) % 8 = k by omega]

/-- The running XOR over the pixel that bit `k` of column `c` holds. -/
theorem xorOfPixels_column (m : Memory) (b h r c : Nat) {k : Nat} (hk : k < 8) :
    xorOfPixels m b h r (8 * c + 8 - k) =
      (xorOfPixels m b h r (8 * c + 8 - (k + 1)) ^^ (m.read (b + c * (8 * h) + r)).getLsbD k) := by
  rw [← pixelAt_column m b h r c hk, show 8 * c + 8 - k = 8 * c + 7 - k + 1 by omega, xorOfPixels,
    show 8 * c + 8 - (k + 1) = 8 * c + 7 - k by omega]

/-- From bit `k - 1` of column `c` on, the bits of the decode are the running XOR of the row up to their pixels. -/
theorem deltaBits_pixels (m : Memory) (b h r c : Nat) {k : Nat} (hk : k ≤ 8) (y : Byte) :
    (deltaBits k (m.read (b + c * (8 * h) + r)) (xorOfPixels m b h r (8 * c + 8 - k)) y).2 =
        xorOfPixels m b h r (8 * (c + 1)) ∧
      ∀ i, (deltaBits k (m.read (b + c * (8 * h) + r)) (xorOfPixels m b h r (8 * c + 8 - k)) y).1.getLsbD i =
        (y.getLsbD i || (decide (i < k) && xorOfPixels m b h r (8 * c + 8 - i))) := by
  induction k generalizing y with
  | zero => simp [deltaBits, Nat.mul_add]
  | succ k ih =>
    simp only [deltaBits, ← xorOfPixels_column m b h r c hk]
    obtain ⟨hrun, hbits⟩ := ih (Nat.le_of_succ_le hk) (y ||| bitAt (xorOfPixels m b h r (8 * c + 8 - k)) k)
    refine ⟨hrun, fun i => ?_⟩
    rw [hbits, BitVec.getLsbD_or, bitAt_getLsbD _ hk]
    by_cases hi : i = k
    · simp [hi]
    · simp [hi, show i < k + 1 ↔ i < k by omega]

/-- The byte the decode leaves for column `c` of row `r` of the plane at `b`, before any flip. -/
def decodedByte (m : Memory) (b h r c : Nat) : Byte :=
  (deltaByte (m.read (b + c * (8 * h) + r)) (xorOfPixels m b h r (8 * c))).1

theorem deltaByte_run (m : Memory) (b h r c : Nat) :
    (deltaByte (m.read (b + c * (8 * h) + r)) (xorOfPixels m b h r (8 * c))).2 = xorOfPixels m b h r (8 * (c + 1)) :=
  (deltaBits_pixels m b h r c (Nat.le_refl 8) 0).1

theorem decodedByte_getLsbD (m : Memory) (b h r c : Nat) {i : Nat} (hi : i < 8) :
    (decodedByte m b h r c).getLsbD i = xorOfPixels m b h r (8 * c + 8 - i) := by
  refine ((deltaBits_pixels m b h r c (Nat.le_refl 8) 0).2 i).trans ?_
  simp [hi]

/-! ### The rows and the plane -/

/-- Column and row of a byte of the plane are unique (R71). -/
theorem column_byte_inj {b h c d r r' : Nat} (hr : r < 8 * h) (hr' : r' < 8 * h)
    (he : b + c * (8 * h) + r = b + d * (8 * h) + r') : c = d ∧ r = r' := by
  have hsum : r + 8 * h * c = r' + 8 * h * d := by rw [Nat.mul_comm _ c, Nat.mul_comm _ d]; omega
  have hmod := congrArg (· % (8 * h)) hsum
  have hdiv := congrArg (· / (8 * h)) hsum
  simp only [Nat.add_mul_mod_self_left, Nat.mod_eq_of_lt hr, Nat.mod_eq_of_lt hr'] at hmod
  simp only [Nat.add_mul_div_left _ _ (Nat.zero_lt_of_lt hr), Nat.div_eq_of_lt hr, Nat.div_eq_of_lt hr', Nat.zero_add] at hdiv
  exact ⟨hdiv, hmod⟩

/-- A row's decode leaves what is in no column of the row. -/
theorem deltaCols_read_other (b n r : Nat) (f : Bool) (cs : List Nat) (run : Bool) (m : Memory) {a : Nat}
    (ha : ∀ c ∈ cs, b + c * n + r ≠ a) : (deltaCols b n r f cs run m).read a = m.read a :=
  deltaCols_keeps (fun u => u.read a = m.read a) b n r f cs run m
    (fun u v c hc hu => (u.read_write_other _ a v (ha c hc)).trans hu) rfl

/-- The decode of columns `c` to `c + n - 1` of a row, where the memory still holds the bytes of `m`. -/
theorem deltaCols_read {m u : Memory} {b h r : Nat} (f : Bool) (n c : Nat) (hr : r < 8 * h)
    (hu : ∀ d, c ≤ d → d < c + n → u.read (b + d * (8 * h) + r) = m.read (b + d * (8 * h) + r)) {d : Nat} (hc : c ≤ d)
    (hd : d < c + n) :
    (deltaCols b (8 * h) r f (List.range' c n) (xorOfPixels m b h r (8 * c)) u).read (b + d * (8 * h) + r) =
      flipIf f (decodedByte m b h r d) := by
  have hne {e e' : Nat} (he : e ≠ e') : b + e * (8 * h) + r ≠ b + e' * (8 * h) + r :=
    fun heq => he (column_byte_inj hr hr heq).1
  induction n generalizing c u with
  | zero => omega
  | succ n ih =>
    rw [List.range'_succ, deltaCols, hu c (Nat.le_refl c) (by omega), deltaByte_run]
    rcases Nat.eq_or_lt_of_le hc with rfl | hlt
    · rw [deltaCols_read_other _ _ _ _ _ _ _ (fun e he => hne (by have := (List.mem_range'_1.mp he).1; omega))]
      exact Memory.read_write_same _ _ _
    · refine ih (c + 1) (fun e he he' => ?_) hlt (by omega)
      rw [Memory.read_write_other _ _ _ _ (hne (by omega)), hu e (by omega) (by omega)]

/-- After the first `n` rows of the decode those are decoded and the others as they were (R78: the rows do not interact). -/
theorem deltaRows_read (m : Memory) (b : Nat) {w h : Nat} (f : Bool) {n : Nat} (hn : n ≤ 8 * h) {c r : Nat} (hc : c < w)
    (hr : r < 8 * h) :
    ((List.range n).foldl (fun u k => deltaCols b (8 * h) k f (List.range w) false u) m).read (b + c * (8 * h) + r) =
      if r < n then flipIf f (decodedByte m b h r c) else m.read (b + c * (8 * h) + r) := by
  induction n generalizing c r with
  | zero => rfl
  | succ n ih =>
    rw [List.range_succ, List.foldl_append, List.foldl_cons, List.foldl_nil]
    by_cases hrow : r = n
    · subst r
      rw [if_pos (Nat.lt_succ_self n), List.range_eq_range']
      refine deltaCols_read f w 0 hr (fun d _ hd => ?_) (Nat.zero_le c) (by omega)
      rw [← List.range_eq_range', ih (by omega) (by omega) hr, if_neg (Nat.lt_irrefl n)]
    · rw [deltaCols_read_other _ _ _ _ _ _ _ fun d _ heq => hrow (column_byte_inj hn hr heq).2.symm,
        ih (by omega) hc hr]
      simp only [show r < n + 1 ↔ r < n by omega]

/-- Each byte of the sprite ends as its decoded byte, flipped where the flip is on (R78). -/
theorem deltaDecode_column (m : Memory) (b : Nat) {w h : Nat} (f : Bool) {c r : Nat} (hc : c < w) (hr : r < 8 * h) :
    (deltaDecode b w h f m).read (b + c * (8 * h) + r) = flipIf f (decodedByte m b h r c) :=
  (deltaRows_read m b f (Nat.le_refl _) hc hr).trans (if_pos hr)

/-- A byte of the sprite lies in a column and a row. -/
theorem exists_column {w h j : Nat} (hj : j < 8 * w * h) : ∃ c r, c < w ∧ r < 8 * h ∧ j = c * (8 * h) + r := by
  have hw : j < w * (8 * h) := by rwa [show w * (8 * h) = 8 * w * h by ring]
  have hh : 0 < 8 * h := Nat.pos_of_ne_zero fun h0 => by rw [h0] at hw; omega
  exact ⟨j / (8 * h), j % (8 * h), Nat.div_lt_of_lt_mul (by rwa [Nat.mul_comm]), Nat.mod_lt _ hh, (Nat.div_add_mod' j _).symm⟩

/-- The flip acts on the decoded bytes and on nothing the decode reads (R78). -/
theorem deltaDecode_flip (m : Memory) (b : Nat) {w h j : Nat} (f : Bool) (hj : j < 8 * w * h) :
    (deltaDecode b w h f m).read (b + j) = flipIf f ((deltaDecode b w h false m).read (b + j)) := by
  obtain ⟨c, r, hc, hr, rfl⟩ := exists_column hj
  rw [← Nat.add_assoc, deltaDecode_column m b f hc hr, deltaDecode_column m b false hc hr]
  rfl

theorem deltaDecode_pixel (m : Memory) (b : Nat) {w h r x : Nat} (hr : r < 8 * h) (hx : x < 8 * w) :
    pixelAt (deltaDecode b w h false m) b h r x = xorOfPixels m b h r (x + 1) := by
  have hc : x / 8 < w := Nat.div_lt_of_lt_mul hx
  rw [pixelAt, deltaDecode_column m b false hc hr]
  refine (decodedByte_getLsbD m b h r (x / 8) (by omega)).trans ?_
  rw [show 8 * (x / 8) + 8 - (7 - x % 8) = x + 1 by omega]

/-- Settles O26, by the bits of each decoded byte. -/
theorem deltaDecodeIsTheRunningXor : Obligations.DeltaDecodeIsTheRunningXor :=
  fun b w h m => ⟨fun _ _ hr hx => deltaDecode_pixel m b hr hx, fun _ hj => deltaDecode_flip m b true hj,
    fun f a ha => (deltaDecode_outside b w h f m).2 a ha, fun _ _ => rfl⟩

end Sys2Proof.Machine
end

section
/-! SUPPORT. The three modes of UNPACK (R79 to R84): what the decodes and the merge make of the memory, then of the state. -/

namespace Sys2Proof.Machine

/-! ### Two planes in one memory -/

/-- The running XOR of a row looks at the sprite's bytes only. -/
theorem xorOfPixels_congr {m u : Memory} {b w h r n : Nat} (hu : ∀ j, j < 8 * w * h → u.read (b + j) = m.read (b + j))
    (hr : r < 8 * h) (hn : n ≤ 8 * w) : xorOfPixels u b h r n = xorOfPixels m b h r n := by
  induction n with
  | zero => rfl
  | succ n ih =>
    have hbyte : n / 8 * (8 * h) + r < 8 * w * h := column_byte_lt (Nat.div_lt_of_lt_mul hn) hr
    rw [xorOfPixels, xorOfPixels, ih (Nat.le_of_succ_le hn), pixelAt, pixelAt, Nat.add_assoc, hu _ hbyte]

/-- The decode of a plane looks at the sprite's bytes of that plane only. -/
theorem deltaDecode_congr {m u : Memory} {b w h j : Nat} (f : Bool)
    (hu : ∀ j, j < 8 * w * h → u.read (b + j) = m.read (b + j)) (hj : j < 8 * w * h) :
    (deltaDecode b w h f u).read (b + j) = (deltaDecode b w h f m).read (b + j) := by
  obtain ⟨c, r, hc, hr, rfl⟩ := exists_column hj
  rw [← Nat.add_assoc, deltaDecode_column u b f hc hr, deltaDecode_column m b f hc hr, decodedByte, decodedByte,
    Nat.add_assoc, hu _ hj, xorOfPixels_congr hu hr (by omega)]

/-- The sprite's bytes at `p` and those at `q` are different bytes. -/
def Apart (p q n : Nat) : Prop := p + n ≤ q ∨ q + n ≤ p

theorem Apart.symm {p q n : Nat} (h : Apart p q n) : Apart q p n := Or.symm h

theorem Apart.outside {p q n j : Nat} (h : Apart p q n) (hj : j < n) : q + j < p ∨ p + n ≤ q + j := by
  unfold Apart at h; omega

/-- What stays outside one plane stays in the other. -/
theorem SameOutside.read_apart {p q n j : Nat} {m u : Memory} (h : SameOutside p n m u) (hpq : Apart p q n) (hj : j < n) :
    u.read (q + j) = m.read (q + j) := h.2 _ (hpq.outside hj)

/-- Where the sprite fits a plane its two planes are apart (R10). -/
theorem planes_apart {n : Nat} (hn : n ≤ 0x188) (o : Bool) : Apart (planeBase o).toNat (planeBase (!o)).toNat n := by
  cases o
  · exact .inl (by simpa [Config.planeSize] using hn)
  · exact .inr (by simpa [Config.planeSize] using hn)

/-- The merge loop over the first `n` bytes: each byte of the plane at `q` is reordered where the flip is on, then XOR-ed with the
byte of the plane at `p`, which the loop does not change (R79). -/
theorem mergeBytes_read (m : Memory) {p q N : Nat} (f : Bool) (hpq : Apart p q N) {n : Nat} (hn : n ≤ N) (a : Nat) :
    ((List.range n).foldl (mergeByte p q f) m).read a =
      if q ≤ a ∧ a < q + n then flipIf f (m.read a) ^^^ m.read (p + (a - q)) else m.read a := by
  induction n generalizing a with
  | zero => rw [if_neg (by omega)]; rfl
  | succ n ih =>
    have hp : p + n < q ∨ q + N ≤ p + n := hpq.symm.outside hn
    rw [List.range_succ, List.foldl_append, List.foldl_cons, List.foldl_nil, mergeByte_read _ _ _ _ _ _ (by omega)]
    by_cases ha : a = q + n
    · subst a
      rw [if_pos rfl, ih (by omega), if_neg (by omega), ih (by omega), if_neg (by omega), if_pos (by omega),
        Nat.add_sub_cancel_left]
    · rw [if_neg ha, ih (by omega)]
      simp only [show q ≤ a ∧ a < q + (n + 1) ↔ q ≤ a ∧ a < q + n by omega]

theorem mergePlanes_read (m : Memory) {p q w h : Nat} (f : Bool) (hpq : Apart p q (8 * w * h)) {j : Nat} (hj : j < 8 * w * h) :
    (mergePlanes p q w h f m).read (q + j) = flipIf f (m.read (q + j)) ^^^ m.read (p + j) := by
  refine (mergeBytes_read m f hpq (Nat.le_refl _) _).trans ?_
  rw [if_pos (by omega), Nat.add_sub_cancel_left]

/-- Mode 0 on the memory: either plane ends as its own decode (R81). -/
theorem decodeBoth_read (m : Memory) {p q w h : Nat} (f : Bool) (hpq : Apart p q (8 * w * h)) {j : Nat} (hj : j < 8 * w * h) :
    (deltaDecode q w h f (deltaDecode p w h f m)).read (p + j) = flipIf f ((deltaDecode p w h false m).read (p + j)) ∧
    (deltaDecode q w h f (deltaDecode p w h f m)).read (q + j) = flipIf f ((deltaDecode q w h false m).read (q + j)) := by
  constructor
  · rw [(deltaDecode_outside q w h f _).read_apart hpq.symm hj, deltaDecode_flip m p f hj]
  · rw [deltaDecode_congr f (fun i hi => (deltaDecode_outside p w h f m).read_apart hpq hi) hj, deltaDecode_flip m q f hj]

/-- Mode 1 on the memory: the first plane is decoded and merged into the second (R79, R82). -/
theorem mergeDecoded_read (m : Memory) {p q w h : Nat} (f : Bool) (hpq : Apart p q (8 * w * h)) {j : Nat} (hj : j < 8 * w * h) :
    (mergePlanes p q w h f (deltaDecode p w h f m)).read (p + j) = flipIf f ((deltaDecode p w h false m).read (p + j)) ∧
    (mergePlanes p q w h f (deltaDecode p w h f m)).read (q + j) =
      flipIf f (m.read (q + j)) ^^^ flipIf f ((deltaDecode p w h false m).read (p + j)) := by
  constructor
  · rw [(mergePlanes_outside p q w h f _).read_apart hpq.symm hj, deltaDecode_flip m p f hj]
  · rw [mergePlanes_read _ f hpq hj, (deltaDecode_outside p w h f m).read_apart hpq hj, deltaDecode_flip m p f hj]

/-- Mode 2 on the memory: the second plane is decoded without the flip before mode 1 (R83). -/
theorem decodeThenMerge_read (m : Memory) {p q w h : Nat} (f : Bool) (hpq : Apart p q (8 * w * h)) {j : Nat}
    (hj : j < 8 * w * h) :
    (mergePlanes p q w h f (deltaDecode p w h f (deltaDecode q w h false m))).read (p + j) =
      flipIf f ((deltaDecode p w h false m).read (p + j)) ∧
    (mergePlanes p q w h f (deltaDecode p w h f (deltaDecode q w h false m))).read (q + j) =
      flipIf f ((deltaDecode q w h false m).read (q + j)) ^^^ flipIf f ((deltaDecode p w h false m).read (p + j)) := by
  have hfirst : (deltaDecode p w h false (deltaDecode q w h false m)).read (p + j) = (deltaDecode p w h false m).read (p + j) :=
    deltaDecode_congr false (fun i hi => (deltaDecode_outside q w h false m).read_apart hpq.symm hi) hj
  rw [← hfirst]
  exact mergeDecoded_read _ f hpq hj

/-! ### UNPACK -/

theorem unpackBy_mode0 {s : State} (hm : s.mode = 0) : unpackBy s = unpackMode0 s := if_pos hm

theorem unpackBy_mode1 {s : State} (hm : s.mode = 1) : unpackBy s = xorMerge s := by
  simp [unpackBy, unpackMode1, hm]

theorem unpackBy_mode2 {s : State} (hm : s.mode = 2) : unpackBy s = unpackMode2 s := by
  simp [unpackBy, hm]

/-- `XorMerge` where `ORIENT` is the flipped `ORIENT0`: the pointers in their roles and the merge on the memory (R77, R79). -/
theorem xorMerge_eq {s : State} (ho : s.orient = !s.orient0) :
    xorMerge s = { s with
      wm := mergePlanes (planeBase s.orient0).toNat (planeBase (!s.orient0)).toNat s.tilesWide s.tilesHigh s.flipL
        (deltaDecode (planeBase s.orient0).toNat s.tilesWide s.tilesHigh s.flipL s.wm)
      pptr := planeBase s.orient0, sptr := planeBase (!s.orient0) } := by
  simp only [xorMerge, resetPtrs_eq, decodePlane, ho, Bool.not_not]
  rfl

theorem unpackMode2_eq {s : State} (ho : s.orient = !s.orient0) :
    unpackMode2 s = xorMerge { s with
      wm := deltaDecode (planeBase (!s.orient0)).toNat s.tilesWide s.tilesHigh false s.wm
      pptr := planeBase s.orient0, sptr := planeBase (!s.orient0) } := by
  simp only [unpackMode2, resetPtrs_eq, decodePlane, ho, Bool.not_not]
  rfl

/-- Mode 0 decodes the plane of either orientation, flipped only where `MODE0_FLIP` allows it (R76, R81). -/
theorem unpackMode0_read {s : State} (hfit : 8 * s.tilesWide * s.tilesHigh ≤ 0x188) (o : Bool) {j : Nat}
    (hj : j < 8 * s.tilesWide * s.tilesHigh) :
    (unpackMode0 s).wm.read ((planeBase o).toNat + j) = flipIf (s.cfg.mode0Flip && s.flipL)
      ((deltaDecode (planeBase o).toNat s.tilesWide s.tilesHigh false s.wm).read ((planeBase o).toNat + j)) := by
  have hflip : (if s.cfg.mode0Flip then s.flipL else false) = (s.cfg.mode0Flip && s.flipL) := by
    cases s.cfg.mode0Flip <;> rfl
  have hboth := decodeBoth_read s.wm (if s.cfg.mode0Flip then s.flipL else false) (planes_apart hfit false) hj
  rw [← hflip]
  cases o
  · exact hboth.1
  · exact hboth.2

/-- UNPACK leaves a byte alone that is in the sprite's bytes of neither plane (R80). -/
theorem unpackBy_read_other (s : State) {a : Nat} (ha : ∀ o j, j < s.spriteBytes → (planeBase o).toNat + j ≠ a) :
    (unpackBy s).wm.read a = s.wm.read a :=
  (unpackBy_rebuilt s).keeps (fun u => u.read a = s.wm.read a)
    (fun u v o j hj hu => (u.read_write_other _ a v (ha o j hj)).trans hu) rfl

/-- In modes 1 and 2 UNPACK ends with the pointers in their roles (R77). -/
theorem unpackBy_frame_of_merge {s : State} (hm : s.mode = 1 ∨ s.mode = 2) (ho : s.orient = !s.orient0) :
    unpackBy s = { s with wm := (unpackBy s).wm, pptr := planeBase s.orient0, sptr := planeBase (!s.orient0) } := by
  rcases hm with hm | hm
  · rw [unpackBy_mode1 hm, xorMerge_eq ho]
  · rw [unpackBy_mode2 hm, unpackMode2_eq ho, xorMerge_eq]
    exact ho

theorem eq_one_or_two_of_le_two {m : BitVec 2} (h : m.toNat ≤ 2) (h0 : m ≠ 0) : m = 1 ∨ m = 2 := by bv_omega

/-- Settles O27, mode by mode from what the decodes and the merge make of the memory. -/
theorem unpackComputesTheThreeModes : Obligations.UnpackComputesTheThreeModes := by
  refine ⟨nibrev_xor, fun s hfit hmode ho => ?_⟩
  have hpq := planes_apart hfit s.orient0
  refine ⟨(unpackBy s).setPhase .interleave, if_pos (decide_eq_true hfit), fun hm => ⟨fun j hj => ?mode0, ?frame0⟩,
    fun hm j hj => ?mode1, fun hm j hj => ?mode2, fun hm => ?frame, fun a hp hq => ?outside⟩
  case mode0 =>
    rw [State.setPhase_wm, unpackBy_mode0 hm]
    exact ⟨unpackMode0_read hfit _ hj, unpackMode0_read hfit _ hj⟩
  case frame0 =>
    rw [unpackBy_mode0 hm]
    rfl
  case mode1 =>
    rw [State.setPhase_wm, unpackBy_mode1 hm, xorMerge_eq ho]
    exact mergeDecoded_read _ _ hpq hj
  case mode2 =>
    rw [State.setPhase_wm, unpackBy_mode2 hm, unpackMode2_eq ho, xorMerge_eq]
    · exact decodeThenMerge_read _ _ hpq hj
    · exact ho
  case frame =>
    rw [unpackBy_frame_of_merge (eq_one_or_two_of_le_two hmode hm) ho]
    rfl
  case outside =>
    refine unpackBy_read_other s fun o j hj heq => ?_
    unfold State.spriteBytes at hj
    rcases Bool.eq_or_eq_not o s.orient0 with rfl | rfl <;> omega

end Sys2Proof.Machine
end

section
/-! SUPPORT. OUT after INTERLEAVE (R85) and its tiles (R86). -/

namespace Sys2Proof.Machine

/-! ### The bytes of OUT -/

/-- OUT after INTERLEAVE: BUF1 in the even bytes, BUF2 in the odd ones (R85). -/
theorem interleavePlanes_read (wm : Memory) {i : Nat} (hi : i < 0x188) :
    (interleavePlanes wm).read (2 * i) = wm.read i ∧ (interleavePlanes wm).read (2 * i + 1) = wm.read (0x188 + i) := by
  constructor
  · rw [interleavePlanes, interleaveFrom_read, if_pos (by unfold Config.planeSize; omega), if_pos (by omega),
      show 2 * i / 2 = i by omega]
  · rw [interleavePlanes, interleaveFrom_read, if_pos (by unfold Config.planeSize; omega), if_neg (by omega),
      show (2 * i + 1) / 2 = i by omega]

/-- Beyond the sprite OUT is zero, since the planes are (R11, R85). -/
theorem PlaneInv.interleave_beyond {s : State} (h : PlaneInv s) (hp : s.phase = .interleave) {i : Nat}
    (hs : s.spriteBytes ≤ i) (hi : i < 0x188) :
    (interleavePlanes s.wm).read (2 * i) = 0 ∧ (interleavePlanes s.wm).read (2 * i + 1) = 0 := by
  obtain ⟨heven, hodd⟩ := interleavePlanes_read s.wm hi
  rw [heven, hodd]
  exact h.beyond_zero (by rw [hp]; rfl) i hs hi

/-- Settles O28, by the bytes of the interleave and the zero bytes of the planes. -/
theorem interleaveFillsOutAndCompletes : Obligations.InterleaveFillsOutAndCompletes := by
  intro s
  refine ⟨{ s with out := interleavePlanes s.wm, busy := false, done := true, phase := .done }, rfl,
    ?bytes, ?frame, ?irq, ?beyond⟩
  case bytes =>
    dsimp only
    exact fun i hi => interleavePlanes_read s.wm hi
  case frame => dsimp only
  case irq => rw [irq, Bool.true_or, Bool.and_true]
  case beyond =>
    dsimp only
    exact fun h hp i hs hi => h.interleave_beyond hp hs hi

/-! ### Tiles -/

/-- The pair of a tile's row is the pair of OUT that the byte `8k + y` of the planes gives (R86). -/
theorem outTileRow_eq (out : Memory) (k y : Nat) :
    outTileRow out k y = (out.read (2 * (8 * k + y)), out.read (2 * (8 * k + y) + 1)) := by
  rw [outTileRow, show 16 * k + 2 * y = 2 * (8 * k + y) by ring]

/-- Tile `k` lies in tile-column `k div H` at tile-row `k mod H` (R86). -/
theorem tile_byte_eq (k y h : Nat) : k / h * (8 * h) + (8 * (k % h) + y) = 8 * k + y := by
  have hcolumn : k / h * (8 * h) = 8 * (k / h * h) := by ring
  have hk := Nat.div_add_mod' k h
  omega

/-- Settles O29, by the pairs of OUT: the byte `8k + y` of a plane is in tile k's column and row, and those from beyond the
sprite are zero. -/
theorem outTilesAreColumnMajor : Obligations.OutTilesAreColumnMajor := by
  intro s t hpass hplane hphase ht
  cases ht
  have hsize : s.spriteBytes = 8 * (s.tilesWide * s.tilesHigh) := Nat.mul_assoc _ _ _
  have hfit : s.spriteBytes ≤ 0x188 := hpass.spriteBytes_le (by rw [hphase]; rfl)
  refine ⟨fun k y hk hy => ?_, fun k y hk hk49 hy => ?_⟩
  · obtain ⟨heven, hodd⟩ := interleavePlanes_read s.wm (show 8 * k + y < 0x188 by omega)
    rw [outTileRow_eq, tile_byte_eq, heven, hodd]
  · obtain ⟨heven, hodd⟩ := hplane.interleave_beyond hphase (show s.spriteBytes ≤ 8 * k + y by omega) (by omega)
    rw [outTileRow_eq, heven, hodd]

end Sys2Proof.Machine
end

section
/-! SUPPORT. The host registers and the engine (R42, R88): an engine step reads neither CTRL nor SRC, so it runs alike whatever they
hold. -/

namespace Sys2Proof.Machine

/-! ### Other values in the host registers -/

/-- Puts other values in CTRL and SRC, the registers that host writes change while the engine is busy (R90, R92). -/
def withHostRegs (flip irqEn : Bool) (a : RomAddr) (s : State) : State :=
  { s with ctrlFlip := flip, ctrlIrqEn := irqEn, src := a }

/-- The answer of a read, with other values in the host registers of the state it leaves. -/
def readWithHostRegs {α : Type} (flip irqEn : Bool) (a : RomAddr) : Except State (α × State) → Except State (α × State)
  | .error e => .error (withHostRegs flip irqEn a e)
  | .ok (x, t) => .ok (x, withHostRegs flip irqEn a t)

/-- What an engine step reads, with other values in the host registers of the state it leaves. -/
def fetchedWithHostRegs (flip irqEn : Bool) (a : RomAddr) : Fetched → Fetched
  | .token i t => .token i (withHostRegs flip irqEn a t)
  | .more t => .more (withHostRegs flip irqEn a t)
  | .romOutOfRange t => .romOutOfRange (withHostRegs flip irqEn a t)
  | .quiescent => .quiescent
  | .unreachable => .unreachable

/-- The outcome of a step, with other values in the host registers of the next state. -/
def outcomeWithHostRegs (flip irqEn : Bool) (a : RomAddr) :
    Host.Outcome State Fault Refusal → Host.Outcome State Fault Refusal
  | .next t => .next (withHostRegs flip irqEn a t)
  | .fault r => .fault r
  | .refused r => .refused r

section
variable (flip irqEn : Bool) (a : RomAddr) (s : State)

/-! ### The bit reader -/

theorem romByte_withHostRegs (n : Nat) :
    romByte (withHostRegs flip irqEn a s) n = Prod.map id (withHostRegs flip irqEn a) (romByte s n) := by
  simp only [romByte, withHostRegs]
  split <;> rfl

theorem romFetch_withHostRegs :
    romFetch (withHostRegs flip irqEn a s) = readWithHostRegs flip irqEn a (romFetch s) := by
  rw [romFetch, romFetch, romByte_withHostRegs, apply_ite (readWithHostRegs flip irqEn a)]
  rfl

theorem readBit_withHostRegs :
    readBit (withHostRegs flip irqEn a s) = readWithHostRegs flip irqEn a (readBit s) := by
  rw [readBit, readBit, romFetch_withHostRegs, apply_ite (readWithHostRegs flip irqEn a)]
  cases romFetch s <;> rfl

theorem readBitsFrom_withHostRegs (k v : Nat) :
    readBitsFrom readBit k v (withHostRegs flip irqEn a s) =
      readWithHostRegs flip irqEn a (readBitsFrom readBit k v s) := by
  induction k generalizing v s with
  | zero => rfl
  | succ k ih =>
    rw [readBitsFrom, readBitsFrom, readBit_withHostRegs]
    cases readBit s with
    | error e => rfl
    | ok r => exact ih r.2 _

/-! ### The engine's read -/

theorem orientFrom_withHostRegs :
    orientFrom readBit (withHostRegs flip irqEn a s) = readWithHostRegs flip irqEn a (orientFrom readBit s) := by
  rw [orientFrom, orientFrom, readBit_withHostRegs]
  cases readBit s <;> rfl

theorem kindFrom_withHostRegs :
    kindFrom readBit (withHostRegs flip irqEn a s) = readWithHostRegs flip irqEn a (kindFrom readBit s) := by
  rw [kindFrom, kindFrom, readBit_withHostRegs]
  cases readBit s <;> rfl

theorem pairFrom_withHostRegs :
    pairFrom readBit (withHostRegs flip irqEn a s) = readWithHostRegs flip irqEn a (pairFrom readBit s) := by
  rw [pairFrom, pairFrom, readBitsFrom_withHostRegs]
  cases readBitsFrom readBit 2 0 s <;> rfl

theorem runValueFrom_withHostRegs (n : Nat) :
    runValueFrom readBit n (withHostRegs flip irqEn a s) = readWithHostRegs flip irqEn a (runValueFrom readBit n s) := by
  rw [runValueFrom, runValueFrom, readBitsFrom_withHostRegs]
  cases readBitsFrom readBit (n + 1) 0 s <;> rfl

theorem modeFrom_withHostRegs :
    modeFrom readBit (withHostRegs flip irqEn a s) = readWithHostRegs flip irqEn a (modeFrom readBit s) := by
  rw [modeFrom, modeFrom, readBit_withHostRegs]
  rcases readBit s with e | ⟨_ | _, t⟩
  · rfl
  · rfl
  · simp only [readWithHostRegs, readBit_withHostRegs]
    cases readBit t <;> rfl

theorem ofToken_withHostRegs (r : Except State (Instr × State)) :
    ofToken (readWithHostRegs flip irqEn a r) = fetchedWithHostRegs flip irqEn a (ofToken r) := by
  cases r <;> rfl

theorem fetchHeader_withHostRegs :
    fetchHeader (withHostRegs flip irqEn a s) = fetchedWithHostRegs flip irqEn a (fetchHeader s) := by
  rw [fetchHeader, fetchHeader, romFetch_withHostRegs]
  cases romFetch s <;> rfl

theorem fetchRunBit_withHostRegs :
    fetchRunBit (withHostRegs flip irqEn a s) = fetchedWithHostRegs flip irqEn a (fetchRunBit s) := by
  have hrlen : (withHostRegs flip irqEn a s).rlen = s.rlen := rfl
  rw [fetchRunBit, fetchRunBit, readBit_withHostRegs, hrlen]
  rcases readBit s with e | ⟨b, t⟩
  · rfl
  · simp only [readWithHostRegs]
    cases runBit s.rlen.toNat b <;> rfl

theorem fetchRunValue_withHostRegs :
    fetchRunValue (withHostRegs flip irqEn a s) = fetchedWithHostRegs flip irqEn a (fetchRunValue s) := by
  have hrlen : (withHostRegs flip irqEn a s).rlen = s.rlen := rfl
  rw [fetchRunValue, fetchRunValue, hrlen, runValueFrom_withHostRegs]
  rcases runValueFrom readBit s.rlen.toNat s with e | ⟨_ | i, t⟩ <;> rfl

/-- Phase by phase, the engine reads the same whatever the host registers hold (R42). -/
theorem fetch_withHostRegs : fetch (withHostRegs flip irqEn a s) = fetchedWithHostRegs flip irqEn a (fetch s) := by
  have hphase : (withHostRegs flip irqEn a s).phase = s.phase := rfl
  rw [fetch, fetch, hphase]
  cases s.phase
  case header => exact fetchHeader_withHostRegs flip irqEn a s
  case orient => simp only [orientFrom_withHostRegs, ofToken_withHostRegs]
  case mode => simp only [modeFrom_withHostRegs, ofToken_withHostRegs]
  case kind => simp only [kindFrom_withHostRegs, ofToken_withHostRegs]
  case data => simp only [pairFrom_withHostRegs, ofToken_withHostRegs]
  case rlePrefix => exact fetchRunBit_withHostRegs flip irqEn a s
  case rleValue => exact fetchRunValue_withHostRegs flip irqEn a s
  case idle | passSetup | rleWrite | unpack | interleave | done | error => rfl

/-! ### The tokens -/

theorem execHdr_withHostRegs (w h : BitVec 4) :
    execHdr w h (withHostRegs flip irqEn a s) = outcomeWithHostRegs flip irqEn a (execHdr w h s) := by
  simp only [execHdr, apply_ite (outcomeWithHostRegs flip irqEn a)]
  rfl

theorem cellWrite_withHostRegs (x : Byte) :
    cellWrite x (withHostRegs flip irqEn a s) = (cellWrite x s).map (withHostRegs flip irqEn a) := by
  rw [cellWrite, cellWrite, apply_ite (Option.map (withHostRegs flip irqEn a))]
  rfl

theorem advance_withHostRegs :
    advance (withHostRegs flip irqEn a s) = Prod.map id (withHostRegs flip irqEn a) (advance s) := by
  simp only [advance, apply_ite (Prod.map id (withHostRegs flip irqEn a))]
  rfl

theorem dispatch_withHostRegs (r : AdvanceResult) (p : Phase) :
    dispatch r p (withHostRegs flip irqEn a s) = withHostRegs flip irqEn a (dispatch r p s) := by
  cases r <;> rfl

theorem writePair_withHostRegs (c : Byte) :
    writePair c (withHostRegs flip irqEn a s) = outcomeWithHostRegs flip irqEn a (writePair c s) := by
  rw [writePair, writePair, cellWrite_withHostRegs]
  cases cellWrite c s with
  | none => rfl
  | some w =>
    simp only [Option.map_some, advance_withHostRegs, Prod.map_fst, Prod.map_snd, dispatch_withHostRegs]
    rfl

theorem execRleWrite_withHostRegs :
    execRleWrite (withHostRegs flip irqEn a s) = outcomeWithHostRegs flip irqEn a (execRleWrite s) := by
  rw [execRleWrite, execRleWrite, cellWrite_withHostRegs]
  cases cellWrite 0 s with
  | none => rfl
  | some w =>
    simp only [Option.map_some, advance_withHostRegs, finishRunCell_eq]
    exact congrArg _ (dispatch_withHostRegs flip irqEn a { (advance w).2 with rlecnt := (advance w).2.rlecnt - 1 } _ _)

theorem resetPtrs_withHostRegs : resetPtrs (withHostRegs flip irqEn a s) = withHostRegs flip irqEn a (resetPtrs s) := by
  rw [resetPtrs, resetPtrs, apply_ite (withHostRegs flip irqEn a)]
  rfl

theorem decodePlane_withHostRegs (b : Nat) (f : Bool) :
    decodePlane b f (withHostRegs flip irqEn a s) = withHostRegs flip irqEn a (decodePlane b f s) := rfl

theorem xorMerge_withHostRegs : xorMerge (withHostRegs flip irqEn a s) = withHostRegs flip irqEn a (xorMerge s) := by
  simp only [xorMerge, resetPtrs_withHostRegs, decodePlane_withHostRegs]
  rfl

theorem unpackBy_withHostRegs : unpackBy (withHostRegs flip irqEn a s) = withHostRegs flip irqEn a (unpackBy s) := by
  simp only [unpackBy, unpackMode1, unpackMode2, resetPtrs_withHostRegs, decodePlane_withHostRegs, xorMerge_withHostRegs,
    apply_ite (withHostRegs flip irqEn a)]
  rfl

theorem execUnpack_withHostRegs :
    execUnpack (withHostRegs flip irqEn a s) = outcomeWithHostRegs flip irqEn a (execUnpack s) := by
  rw [execUnpack, execUnpack, unpackBy_withHostRegs, apply_ite (outcomeWithHostRegs flip irqEn a)]
  rfl

theorem execInterleave_withHostRegs :
    execInterleave (withHostRegs flip irqEn a s) = outcomeWithHostRegs flip irqEn a (execInterleave s) := by
  simp only [execInterleave, outcomeWithHostRegs, withHostRegs]

/-- A token of the engine does the same whatever the host registers hold (R42). -/
theorem exec_withHostRegs {i : Instr} {p : Phase} (hr : ReadsIn p (contextOf i)) :
    exec i (withHostRegs flip irqEn a s) = outcomeWithHostRegs flip irqEn a (exec i s) := by
  cases i with
  | hdr w h => exact execHdr_withHostRegs flip irqEn a s w h
  | pair1 | pair2 | pair3 => exact writePair_withHostRegs flip irqEn a s _
  | rleWrite => exact execRleWrite_withHostRegs flip irqEn a s
  | unpack => exact execUnpack_withHostRegs flip irqEn a s
  | interleave => exact execInterleave_withHostRegs flip irqEn a s
  | orient | mode0 | mode1 | mode2 | kindRle | kindData | endData | runN0 | runN1 | runN2 | runN3 | runN4 | runN5 | runN6
  | runN7 | runN8 | runN9 | runN10 | runN11 | runN12 | runN13 | runN14 | runOverlong | passSetup => rfl
  | start d | ctrlWr d | clrSt d | srcWr0 d | srcWr1 d | srcWr2 d | rd a => exact hr.elim

/-- An engine step does the same whatever the host registers hold (R42, R88). -/
theorem engineStep_withHostRegs :
    engineStep (withHostRegs flip irqEn a s) = outcomeWithHostRegs flip irqEn a (engineStep s) := by
  rw [engineStep, engineStep, fetch_withHostRegs]
  cases hf : fetch s with
  | token i t => exact exec_withHostRegs flip irqEn a t (readsIn_of_phaseContext (fetch_token hf).2)
  | more t | romOutOfRange t | quiescent | unreachable => rfl

end

end Sys2Proof.Machine
end

section
/-! SUPPORT. The host commands one by one (R89 to R93): what each write leads to while RST is low, and what a read answers. -/

namespace Sys2Proof.Machine

/-! ### Writes while RST is low -/

section
variable {s : State} (hrst : s.rst = false) (d : Byte)
include hrst

/-- While busy START is a CTRL write (R89). -/
theorem exec_start_of_busy (hbusy : s.busy = true) : exec (.start d) s = .next (ctrlWrite d s) := by
  simp [exec, execStart, hostWrites_released hrst, hbusy]

/-- While not busy START begins a decode (R89). -/
theorem exec_start_of_not_busy (hbusy : s.busy = false) :
    exec (.start d) s = .next (startDecode (ctrlWrite d s)) := by
  simp [exec, execStart, hostWrites_released hrst, hbusy]

theorem exec_ctrlWr_of_released : exec (.ctrlWr d) s = .next (ctrlWrite d s) := by
  rw [exec, execCtrlWr, hostWrites_released hrst]

/-- CLRST clears DONE and ERR where a 1 is written (R91). -/
theorem exec_clrSt_of_released :
    exec (.clrSt d) s = .next { s with done := s.done && !d.getLsbD 1, err := s.err && !d.getLsbD 2 } := by
  rw [exec, execClrSt, hostWrites_released hrst]
  cases d.getLsbD 1 <;> cases d.getLsbD 2 <;> simp

end

/-- What a write of one byte of SRC makes of SRC (R92). -/
def srcAfter (i : Instr) (x : RomAddr) : RomAddr :=
  match i with
  | .srcWr0 d => x.extractLsb' 8 16 ++ d
  | .srcWr1 d => x.extractLsb' 16 8 ++ d ++ x.extractLsb' 0 8
  | .srcWr2 d => d ++ x.extractLsb' 0 16
  | _ => x

/-- A SRC write changes SRC only (R92). -/
theorem exec_srcWrite_of_released {s : State} (hrst : s.rst = false) {i : Instr} {d : Byte}
    (hi : i = .srcWr0 d ∨ i = .srcWr1 d ∨ i = .srcWr2 d) : exec i s = .next { s with src := srcAfter i s.src } := by
  rcases hi with rfl | rfl | rfl <;> exact congrArg _ (hostWrites_released hrst _)

/-! ### Writes and the engine -/

/-- A CTRL write before an engine step leads to the step's state with CTRL written (R88, R90). -/
theorem engineStep_ctrlWrite {s t : State} (d : Byte) (h : engineStep s = .next t) :
    engineStep (ctrlWrite d s) = .next (ctrlWrite d t) := by
  obtain ⟨-, -, hsrc, -⟩ := engineLeavesHostStateAlone s t h
  have hwrite : ctrlWrite d t = withHostRegs (d.getLsbD 1) (d.getLsbD 2) s.src t := by rw [← hsrc]; rfl
  rw [hwrite]
  exact (engineStep_withHostRegs _ _ _ s).trans (by rw [h]; rfl)

/-- Another value in SRC before an engine step leads to the step's state with that value in SRC (R88, R92). -/
theorem engineStep_withSrc {s t : State} (x : RomAddr) (h : engineStep s = .next t) :
    engineStep { s with src := x } = .next { t with src := x } := by
  obtain ⟨hflip, hirqEn, -⟩ := engineLeavesHostStateAlone s t h
  have hwrite : { t with src := x } = withHostRegs s.ctrlFlip s.ctrlIrqEn x t := by rw [← hflip, ← hirqEn]; rfl
  rw [hwrite]
  exact (engineStep_withHostRegs _ _ _ s).trans (by rw [h]; rfl)

/-- Settles O50: an engine step neither reads nor writes the host registers, so a write to them may come before it or after it. -/
theorem hostWritesCommuteWithTheEngine : Obligations.HostWritesCommuteWithTheEngine := by
  intro s t d hrst _ hbusy h
  obtain ⟨-, -, hsrc, -, -, -, -, -, -, hrst'⟩ := engineLeavesHostStateAlone s t h
  refine ⟨fun i hi => ⟨ctrlWrite d s, ?_, engineStep_ctrlWrite d h⟩, fun i hi => ?_⟩
  · rcases hi with rfl | rfl
    · exact exec_ctrlWr_of_released hrst d
    · exact exec_start_of_busy hrst d hbusy
  · refine ⟨_, _, exec_srcWrite_of_released hrst hi, exec_srcWrite_of_released (hrst'.trans hrst) hi, ?_⟩
    rw [hsrc]
    exact engineStep_withSrc _ h

/-- Settles O31: the registers START does not set are those the two states agree on. -/
theorem startForgetsEarlierDecodes : Obligations.StartForgetsEarlierDecodes := by
  intro s s' d hrst hrst' hbusy hbusy' hsrc hrom hcfg hout hread hinputs hfree
  rw [exec_start_of_not_busy hrst d hbusy, exec_start_of_not_busy hrst' d hbusy']
  simp only [startDecode, ctrlWrite, hrst, hrst', hsrc, hrom, hcfg, hout, hread, hinputs, hfree]

/-- Settles O33: under RST the write has no effect, and while busy DONE and ERR are already clear. -/
theorem statusWriteClearsWhereOne : Obligations.StatusWriteClearsWhereOne := by
  refine fun s d => ⟨fun hrst => congrArg _ (hostWrites_held hrst _), fun hrst =>
    ⟨_, exec_clrSt_of_released hrst d, rfl, rfl, fun hinv hbusy => ?_⟩⟩
  obtain ⟨-, hdone, herr, -, -⟩ := (statusInv_running_iff (hinv.busy_iff.symm.trans hbusy)).mp hinv
  have hdone' : (s.done && !d.getLsbD 1) = s.done := by rw [hdone, Bool.false_and]
  have herr' : (s.err && !d.getLsbD 2) = s.err := by rw [herr, Bool.false_and]
  rw [hdone', herr']

/-! ### Reads -/

/-- While not busy a read is exact at every address (R93). -/
theorem exec_rd_of_not_busy {s : State} (hbusy : s.busy = false) (a : HostAddr) :
    exec (.rd a) s = .next { s with hrdata := portByte s a } := by
  rw [exec, execRd, hbusy, Bool.false_and]
  rfl

/-- Settles O35: the read is exact but where both the engine is busy and the address is in the view. -/
theorem hostReadAnswersTheMap : Obligations.HostReadAnswersTheMap := by
  refine fun s a => ⟨fun h => ?_, fun ⟨hbusy, hview⟩ => ⟨Config.freeReadByte s.freeCtr, ?_⟩⟩
  · rcases h with hbusy | hview
    · exact exec_rd_of_not_busy hbusy a
    · exact execRd_exact s hview
  · rw [exec, execRd, hbusy, hview]
    rfl

end Sys2Proof.Machine
end

section
/-! SUPPORT. The error state (R95 to R97): a read at the end of the ROM, and what each error comes from. -/

namespace Sys2Proof.Machine

/-! ### A read at the end of the ROM -/

/-- The seven phases that read a byte or a bit of the stream (R24, R95). -/
def readingPhases : List Phase := [.header, .orient, .mode, .kind, .data, .rlePrefix, .rleValue]

/-- At the end of the ROM, with no unread bit, the engine's read fails and moves nothing (R56, R96). -/
theorem fetch_at_end {s : State} (hp : s.phase ∈ readingPhases) (h0 : s.phase = .header ∨ s.inCnt = 0)
    (hend : s.cfg.romSize ≤ s.inPtr.toNat) : fetch s = .romOutOfRange s := by
  rcases h0 with hq | h0
  · simp only [fetch, hq, fetchHeader, romFetch_at_end hend]
  · have hbit := readBit_at_end h0 hend
    have hbits (k : Nat) : readBitsFrom readBit (k + 1) 0 s = .error s := by rw [readBitsFrom, hbit]
    unfold fetch
    cases hq : s.phase with
    | header => simp only [fetchHeader, romFetch_at_end hend]
    | orient => simp only [orientFrom, hbit, ofToken]
    | mode => simp only [modeFrom, hbit, ofToken]
    | kind => simp only [kindFrom, hbit, ofToken]
    | data => simp only [pairFrom, hbits 1, ofToken]
    | rlePrefix => simp only [fetchRunBit, hbit]
    | rleValue => simp only [fetchRunValue, runValueFrom, hbits]
    | idle | passSetup | rleWrite | unpack | interleave | done | error => rw [hq] at hp; exact absurd hp (by decide)

/-- Settles O39: the read fails where it stands, and the failure is raised at the cursor. -/
theorem readPastTheRomEntersTheErrorState : Obligations.ReadPastTheRomEntersTheErrorState :=
  fun _ hp h0 hend => engineStep_of_romOutOfRange (fetch_at_end hp h0 hend)

/-! ### Where a failing read stands -/

/-- A read that fails does so at the end of the ROM (R56). -/
def FailsAtEnd {α : Type} (r : Except State (α × State)) : Prop :=
  ∀ e, r = .error e → e.cfg.romSize ≤ e.inPtr.toNat

theorem readBit_failsAtEnd (s : State) : FailsAtEnd (readBit s) := fun _ h => by
  obtain ⟨rfl, -, hend⟩ := readBit_error h
  exact hend

theorem readBits_failsAtEnd (k v : Nat) (s : State) : FailsAtEnd (readBitsFrom readBit k v s) := fun _ h => by
  obtain ⟨-, -, hend⟩ := readBits_error h
  exact hend

theorem orientFrom_failsAtEnd (s : State) : FailsAtEnd (orientFrom readBit s) := fun e h => by
  unfold orientFrom at h
  split at h <;> cases h
  exact readBit_failsAtEnd s e ‹_›

theorem modeFrom_failsAtEnd (s : State) : FailsAtEnd (modeFrom readBit s) := fun e h => by
  unfold modeFrom at h
  split at h
  · cases h; exact readBit_failsAtEnd s e ‹_›
  · cases h
  · split at h <;> cases h
    exact readBit_failsAtEnd _ e ‹_›

theorem kindFrom_failsAtEnd (s : State) : FailsAtEnd (kindFrom readBit s) := fun e h => by
  unfold kindFrom at h
  split at h <;> cases h
  exact readBit_failsAtEnd s e ‹_›

theorem pairFrom_failsAtEnd (s : State) : FailsAtEnd (pairFrom readBit s) := fun e h => by
  unfold pairFrom at h
  split at h <;> cases h
  exact readBits_failsAtEnd 2 0 s e ‹_›

theorem runValueFrom_failsAtEnd (n : Nat) (s : State) : FailsAtEnd (runValueFrom readBit n s) := fun e h => by
  unfold runValueFrom at h
  split at h <;> cases h
  exact readBits_failsAtEnd (n + 1) 0 s e ‹_›

/-- The engine's read fails only in a phase that reads, and at the end of the ROM (R56, R95). -/
theorem fetch_romOutOfRange_at_end {s e : State} (h : fetch s = .romOutOfRange e) :
    s.phase ∈ readingPhases ∧ e.cfg.romSize ≤ e.inPtr.toNat := by
  cases hp : s.phase <;> simp only [fetch, hp, reduceCtorEq] at h
  case header =>
    unfold fetchHeader at h
    split at h <;> cases h
    obtain ⟨rfl, hend⟩ := romFetch_error ‹_›
    exact ⟨by decide, hend⟩
  case orient => exact ⟨by decide, orientFrom_failsAtEnd s e (ofToken_romOutOfRange h)⟩
  case mode => exact ⟨by decide, modeFrom_failsAtEnd s e (ofToken_romOutOfRange h)⟩
  case kind => exact ⟨by decide, kindFrom_failsAtEnd s e (ofToken_romOutOfRange h)⟩
  case data => exact ⟨by decide, pairFrom_failsAtEnd s e (ofToken_romOutOfRange h)⟩
  case rlePrefix =>
    unfold fetchRunBit at h
    split at h
    · cases h; exact ⟨by decide, readBit_failsAtEnd s e ‹_›⟩
    · split at h <;> cases h
  case rleValue =>
    unfold fetchRunValue at h
    split at h <;> cases h
    exact ⟨by decide, runValueFrom_failsAtEnd _ s e ‹_›⟩

/-! ### The tokens that raise an error -/

/-- A header token is the byte at the cursor (R58). -/
theorem fetch_hdr {s u : State} {w h : BitVec 4} (hf : fetch s = .token (.hdr w h) u) :
    s.phase = .header ∧ u.inPtr = s.inPtr + 1 := by
  have hp : s.phase = .header := readsIn_of_phaseContext (fetch_token hf).2
  refine ⟨hp, ?_⟩
  simp only [fetch, hp] at hf
  unfold fetchHeader at hf
  split at hf <;> cases hf
  obtain ⟨-, -, hu⟩ := romFetch_ok ‹_›
  rw [hu]

theorem runBit_overlong {n : Nat} {b : Bool} (h : runBit n b = .overlong) : n = 14 := by
  unfold runBit at h
  split at h
  · split at h
    · assumption
    · cases h
  · cases h

/-- No run value completes an overlong run (R52). -/
theorem runToken_ne_runOverlong (n v : Nat) : runToken n v ≠ some .runOverlong := by
  unfold runToken
  split <;> simp only [ne_eq, Option.some.injEq, reduceCtorEq, not_false_eq_true]

/-- An overlong run is read in RLE_PREFIX, after fourteen 1-bits (R66). -/
theorem fetch_runOverlong {s u : State} (hf : fetch s = .token .runOverlong u) : s.phase = .rlePrefix ∧ s.rlen = 14 := by
  rcases readsIn_of_phaseContext (fetch_token hf).2 with hp | hp <;> simp only [fetch, hp] at hf
  · refine ⟨hp, ?_⟩
    unfold fetchRunBit at hf
    split at hf
    · cases hf
    · split at hf
      · exact BitVec.eq_of_toNat_eq (runBit_overlong ‹_›)
      · cases hf
      · cases hf
  · unfold fetchRunValue at hf
    split at hf <;> cases hf
    rename_i hv
    unfold runValueFrom at hv
    split at hv
    · cases hv
    · exact absurd (Prod.mk.inj (Except.ok.inj hv)).1 (runToken_ne_runOverlong _ _)

theorem dispatch_phase_ne_error {p : Phase} (hp : p ≠ .error) (r : AdvanceResult) (s : State) :
    (dispatch r p s).phase ≠ .error := by
  cases r with
  | notYetReady => exact hp
  | restart | done => exact nofun

theorem writePair_phase_ne_error {s t : State} {c : Byte} (h : writePair c s = .next t) : t.phase ≠ .error := by
  unfold writePair at h
  split at h <;> cases h
  exact dispatch_phase_ne_error (p := .data) nofun _ _

theorem execRleWrite_phase_ne_error {s t : State} (h : execRleWrite s = .next t) : t.phase ≠ .error := by
  unfold execRleWrite at h
  split at h <;> cases h
  rw [finishRunCell_eq]
  exact dispatch_phase_ne_error (by split <;> exact nofun) _ _

/-- Of the engine's tokens only a header and an overlong run lead to ERROR (R58, R66, R95). -/
theorem exec_to_error {i : Instr} {s t : State} (hr : ReadsIn s.phase (contextOf i)) (h : exec i s = .next t)
    (ht : t.phase = .error) : (∃ w b, i = .hdr w b) ∨ i = .runOverlong := by
  cases i with
  | hdr w b => exact .inl ⟨w, b, rfl⟩
  | runOverlong => exact .inr rfl
  | orient | mode0 | mode1 | mode2 | kindRle | kindData | endData | runN0 | runN1 | runN2 | runN3 | runN4 | runN5 | runN6
  | runN7 | runN8 | runN9 | runN10 | runN11 | runN12 | runN13 | runN14 | interleave => cases h; cases ht
  | passSetup =>
    cases h
    cases hf : s.fpd <;> simp [hf] at ht
  | pair1 | pair2 | pair3 => exact absurd ht (writePair_phase_ne_error h)
  | rleWrite => exact absurd ht (execRleWrite_phase_ne_error h)
  | unpack =>
    simp only [exec, execUnpack] at h
    split at h <;> cases h
    cases ht
  | start | ctrlWr | clrSt | srcWr0 | srcWr1 | srcWr2 | rd => exact hr.elim

/-- A header that leads to ERROR names an illegal dimension (R58). -/
theorem exec_hdr_to_error {w b : BitVec 4} {s t : State} (h : exec (.hdr w b) s = .next t) (ht : t.phase = .error) :
    t.errCode = .dim ∧ t.faultAddr = s.inPtr - 1 ∧ ¬(legalDim t.tilesWide = true ∧ legalDim t.tilesHigh = true) := by
  rw [exec, execHdr] at h
  split at h
  · cases h; cases ht
  · rename_i hlegal
    cases h
    refine ⟨rfl, rfl, ?_⟩
    rw [raise_tilesWide, raise_tilesHigh, State.tilesWide, State.tilesHigh, BitVec.extractLsb'_append_eq_left,
      BitVec.extractLsb'_append_eq_right, ← Bool.and_eq_true]
    exact hlegal

/-- Settles O41: a failing read, an illegal header or an overlong run; a bit of a unary part leads on inside the run. -/
theorem errorsComeFromTheirNamedRules : Obligations.ErrorsComeFromTheirNamedRules := by
  intro s t hs h ht
  rcases engineStep_next h with ⟨i, u, hf, hm, hc, he⟩ | hmore | ⟨u, hf, rfl⟩ | ⟨-, rfl⟩
  · have hread : ReadsIn u.phase (contextOf i) := hm.phase_eq ▸ readsIn_of_phaseContext hc
    rcases exec_to_error hread he ht with ⟨w, b, rfl⟩ | rfl
    · obtain ⟨hp, hptr⟩ := fetch_hdr hf
      obtain ⟨hcode, haddr, hdims⟩ := exec_hdr_to_error he ht
      exact .inr (.inl ⟨hcode, hp, by rw [haddr, hptr, BitVec.add_sub_cancel], hdims⟩)
    · obtain ⟨hp, hrlen⟩ := fetch_runOverlong hf
      cases he
      exact .inr (.inr ⟨rfl, hp, hrlen, rfl, rfl⟩)
  · obtain ⟨hp, b, u, -, hm, ⟨-, -, rfl⟩ | ⟨-, rfl⟩⟩ := fetch_more hmore
    · cases (hm.phase_eq.trans hp).symm.trans ht
    · cases ht
  · obtain ⟨hp, hend⟩ := fetch_romOutOfRange_at_end hf
    exact .inl ⟨rfl, hend, rfl, hp⟩
  · exact absurd ht hs

end Sys2Proof.Machine
end

section
/-! SUPPORT. The quiescent phases (R98, R105): the engine takes no steps, and which inputs leave them. -/

namespace Sys2Proof.Machine

theorem engineStep_of_quiescent {s : State} (hp : phaseBusy s.phase = false) : engineStep s = .next s := by
  rw [engineStep, (fetch_quiescent_iff s).mpr hp]

theorem hostWrites_phase {s t : State} (h : t.phase = s.phase) : (hostWrites s t).phase = s.phase := by
  unfold hostWrites
  split
  · rfl
  · exact h

/-- Of the host's commands only START, with RST low, can change the phase (R89 to R93, R106). -/
theorem exec_host_phase {i : Instr} {s t : State} (hi : contextOf i = .hostWrite ∨ contextOf i = .hostRead)
    (h : exec i s = .next t) (hne : t.phase ≠ s.phase) : s.rst = false ∧ ∃ d, i = .start d := by
  have keeps {u : State} (ht : exec i s = .next (hostWrites s u)) (hu : u.phase = s.phase) : False := by
    cases ht.symm.trans h
    exact hne (hostWrites_phase hu)
  cases i with
  | start d =>
    refine ⟨?_, d, rfl⟩
    by_contra hrst
    cases h
    exact hne (congrArg _ (hostWrites_held (by simpa using hrst) _))
  | ctrlWr | clrSt | srcWr0 | srcWr1 | srcWr2 => exact (keeps rfl rfl).elim
  | rd a =>
    rw [exec, execRd] at h
    split at h <;> cases h <;> exact absurd rfl hne
  | _ => rcases hi with hi | hi <;> cases hi

/-- START is the write to CTRL with bit 0 set (R89). -/
theorem hostWriteInstr_start {a : HostAddr} {d c : Byte} (h : hostWriteInstr a d = some (.start c)) :
    a = 0x000 ∧ d.getLsbD 0 = true := by
  unfold hostWriteInstr at h
  split at h
  · refine ⟨‹_›, ?_⟩
    split at h
    · assumption
    · cases h
  · repeat' split at h
    all_goals cases h

/-- The inputs that can change the phase: RST, and with RST low a write to CTRL with bit 0 set (R105, R106). -/
theorem inputStep_phase {e : Event} {s t : State} (h : inputStep e s = .next t) (hne : t.phase ≠ s.phase) :
    e = .rst true ∨ (e = .rst false ∧ s.rst = true) ∨
      ∃ d : Byte, d.getLsbD 0 = true ∧ s.rst = false ∧ e = .hostWrite 0x000 d := by
  cases e with
  | hostWrite a d =>
    cases hi : hostWriteInstr a d with
    | none =>
      rw [inputStep_of_ignored hi] at h
      cases h
      exact absurd rfl hne
    | some i =>
      rw [inputStep_of_command hi] at h
      obtain ⟨hrst, c, rfl⟩ := exec_host_phase (.inl (hostWriteInstr_some hi).1) h hne
      obtain ⟨rfl, hd⟩ := hostWriteInstr_start hi
      exact .inr (.inr ⟨d, hd, hrst, rfl⟩)
  | hostRead a =>
    obtain ⟨-, c, hc⟩ := exec_host_phase (i := .rd a) (.inr rfl) h hne
    cases hc
  | romWrite a d =>
    simp only [inputStep, applyRomWrite] at h
    split at h <;> cases h
    exact absurd rfl hne
  | rst level =>
    cases h
    rcases driveRst_cases level s with ⟨hl | hl, -⟩ | ⟨-, -, heq⟩
    · exact .inl (congrArg _ hl)
    · cases level
      · exact .inr (.inl ⟨rfl, hl⟩)
      · exact .inl rfl
    · exact absurd (congrArg _ heq) hne

/-- Settles O43: a pending input arrives at once, so a step is that input, or the engine step that does nothing. -/
theorem quiescencePersistsUntilStartOrReset : Obligations.QuiescencePersistsUntilStartOrReset := by
  have hrest {s : State} (hp : phaseBusy s.phase = false) (hi : s.inputs = []) : step s = .next s :=
    (step_of_no_input s hi).trans (engineStep_of_quiescent hp)
  refine ⟨fun s hp => ⟨engineStep_of_quiescent hp, hrest hp⟩, fun s t hp h hne => ?_⟩
  cases hi : s.inputs with
  | nil =>
    rw [hrest hp hi] at h
    cases h
    exact absurd rfl hne
  | cons p rest =>
    rw [step_of_due hi (.inr hp)] at h
    exact ⟨p, rest, rfl, inputStep_phase (s := { s with inputs := rest }) h hne⟩

end Sys2Proof.Machine
end

section
/-! SUPPORT. RST and the reset values (R87, R106): the base of the invariants, what RST does when it is driven, and what a step does
while it is asserted. -/

namespace Sys2Proof.Machine

/-! ### The reset values -/

/-- Settles O47: the reset column, register by register. -/
theorem resetHoldsTheResetValues : Obligations.ResetHoldsTheResetValues := by
  unfold Obligations.ResetHoldsTheResetValues
  decide

theorem memoryInv_reset : MemoryInv State.reset where
  wm_wf := Memory.unspecified_wf 0
  wm_size := rfl
  out_wf := Memory.unspecified_wf 1
  out_size := rfl
  rom_wf := Memory.zero_wf
  rom_size := rfl
  rom_fill := rfl
  size_range := by decide

theorem statusInv_reset : StatusInv State.reset where
  busy_iff := rfl
  done_phase := nofun
  err_phase := nofun
  code_none := by decide
  addr_zero := fun _ => rfl

/-- In IDLE nothing is known of the planes (R10). -/
theorem planeInv_reset : PlaneInv State.reset where
  wm_known := fun h => absurd rfl h
  beyond_zero := nofun
  plane_zero := nofun
  other_zero := fun _ h => by rcases h with h | h <;> cases h
  ahead_zero := nofun

/-- While RST is low the reset invariant asks for nothing. -/
theorem ResetInv.of_released {s : State} (h : s.rst = false) : ResetInv s := fun hrst => by
  rw [h] at hrst
  cases hrst

/-- Once RST is driven high the reset values stand (R106). -/
theorem driveRst_held (s : State) : ResetInv (driveRst true s) := applyReset_held s

/-- Settles O52: each invariant on the reset state, and RST driven high from any state. -/
theorem resetMeetsTheInvariants : Obligations.ResetMeetsTheInvariants :=
  ⟨memoryInv_reset, statusInv_reset, passInv_reset, planeInv_reset, .of_released rfl, driveRst_held⟩

/-- RST driven high, or low from high, puts the reset values in place (R106). -/
theorem driveRst_eq_applyReset {level : Bool} {s : State} (h : level = true ∨ s.rst = true) :
    driveRst level s = applyReset level s :=
  if_pos (by simpa using h)

/-- RST driven low where it is low changes nothing. -/
theorem driveRst_low {s : State} (h : s.rst = false) : driveRst false s = s := if_neg (by simp [h])

/-- A due RST is the step. -/
theorem step_of_due_rst {s : State} {p : Input} {rest : List Input} {level : Bool} (hi : s.inputs = p :: rest)
    (he : p.event = .rst level) (hd : p.delay = 0 ∨ phaseBusy s.phase = false) :
    step s = .next (driveRst level { s with inputs := rest }) := by
  rw [step_of_due hi hd, he]
  rfl

/-- Settles O48: the step drives RST, which puts the reset values in place but where it is low and stays low. -/
theorem resetAbortsAnyDecode : Obligations.ResetAbortsAnyDecode := by
  intro s p rest level hi he hd
  rw [step_of_due_rst hi he hd]
  refine ⟨fun h => ⟨_, congrArg _ (driveRst_eq_applyReset h), rfl⟩, fun hlow hrst => ?_⟩
  rw [hlow]
  exact congrArg _ (driveRst_low hrst)

/-- CTRL, STATUS, ERRCODE, SRC and FAULTADDR are 0 after reset (R27 to R31). -/
theorem controlByte_reset (n : Nat) : controlByte State.reset n = 0x00 := by
  unfold controlByte
  split <;> rfl

/-- Of the debug view only ROT has a reset value other than 0 (R14). -/
theorem debugByte_reset (n : Nat) : debugByte State.reset n = if n = 0x014 then 0x03 else 0x00 := by
  unfold debugByte
  split
  case h_19 => rw [if_neg ‹_›]
  all_goals rfl

/-! ### The reset values stay -/

/-- The data that is not the block's may change under the reset values (R106, log 7). -/
theorem ResetInv.withHostData {s : State} (h : ResetInv s) (m : Memory) (d : Byte) (l : List Input) (n : Nat) :
    ResetInv { s with rom := m, hrdata := d, inputs := l, freeCtr := n } :=
  fun hrst => congrArg (fun u : State => { u with rom := m, hrdata := d, inputs := l, freeCtr := n }) (h hrst)

section
variable {s : State} (hs : ResetInv s) (hrst : s.rst = true)
include hs hrst

theorem ResetInv.busy_eq : s.busy = false := congrArg State.busy (hs hrst)

theorem ResetInv.quiescent : phaseBusy s.phase = false := congrArg (fun u => phaseBusy u.phase) (hs hrst)

theorem ResetInv.irq_eq : irq s = false := congrArg irq (hs hrst)

theorem ResetInv.controlByte_eq (n : Nat) : controlByte s n = 0x00 :=
  (congrArg (controlByte · n) (hs hrst)).trans (controlByte_reset n)

theorem ResetInv.debugByte_eq (n : Nat) : debugByte s n = if n = 0x014 then 0x03 else 0x00 :=
  (congrArg (debugByte · n) (hs hrst)).trans (debugByte_reset n)

/-- Below the windows a read answers the reset value of its register (R14, R26, R33). -/
theorem ResetInv.portByte_eq {a : HostAddr} (ha : a.toNat < 0x400) :
    portByte s a = if a = 0x014 then 0x03 else 0x00 := by
  have hrot : a = 0x014 ↔ a.toNat = 0x014 := BitVec.toNat_inj.symm
  simp only [hrot]
  rcases Nat.lt_or_ge a.toNat 0x00C with hc | hc
  · rw [portByte_control s hc, hs.controlByte_eq hrst, if_neg (by omega)]
  rcases Nat.lt_or_ge a.toNat 0x01F with hv | hv
  · rw [portByte_debug s hc hv, hs.debugByte_eq hrst]
  · rw [portByte_above s hv, if_neg (by omega), if_neg (by omega), if_neg (by omega)]

end

/-- While RST is asserted no host write has an effect (R106). -/
theorem exec_hostWrite_of_held {i : Instr} {s : State} (hi : contextOf i = .hostWrite) (hrst : s.rst = true) :
    exec i s = .next s := by
  cases i with
  | start | ctrlWr | clrSt | srcWr0 | srcWr1 | srcWr2 => exact congrArg _ (hostWrites_held hrst _)
  | _ => cases hi

/-- RST is driven by its own input only (R87). -/
theorem HostMove.rst_eq {e : Event} {s t : State} (hm : HostMove e s t) (he : ∀ level, e ≠ .rst level) : t.rst = s.rst := by
  cases hm with
  | reset level h => exact absurd h (he level)
  | port | start | clear | romWrite => rfl

/-- A host write is ignored or runs a command (R33, R55). -/
theorem inputStep_hostWrite_next {a : HostAddr} {d : Byte} {s t : State} (h : inputStep (.hostWrite a d) s = .next t) :
    t = s ∨ ∃ i, contextOf i = .hostWrite ∧ exec i s = .next t := by
  cases hi : hostWriteInstr a d with
  | none =>
    cases (inputStep_of_ignored hi s).symm.trans h
    exact .inl rfl
  | some i => exact .inr ⟨i, (hostWriteInstr_some hi).1, (inputStep_of_command hi s).symm.trans h⟩

/-- A ROM change that is answered writes its byte and, while busy, records the one before it (R109, log 5). -/
theorem applyRomWrite_next {a : RomAddr} {d : Byte} {s t : State} (h : applyRomWrite a d s = .next t) :
    t = { s with
      rom := s.rom.write a.toNat d
      romStale := if s.busy then (a.toNat, s.rom.read a.toNat) :: s.romStale else s.romStale } := by
  unfold applyRomWrite at h
  split at h <;> cases h
  rfl

/-- A host write is without effect under RST, and leaves RST low where it is low (R87, R106). -/
theorem ResetInv.hostWrite {s t : State} {a : HostAddr} {d : Byte} (hs : ResetInv s)
    (h : inputStep (.hostWrite a d) s = .next t) : ResetInv t := by
  cases hrst : s.rst with
  | false => exact .of_released (((inputStep_move h).rst_eq nofun).trans hrst)
  | true =>
    rcases inputStep_hostWrite_next h with rfl | ⟨i, hi, he⟩
    · exact hs
    · cases (exec_hostWrite_of_held hi hrst).symm.trans he
      exact hs

/-- A read changes only the read data and perhaps the free-value counter (R93). -/
theorem ResetInv.hostRead {s t : State} {a : HostAddr} (hs : ResetInv s) (h : execRd a s = .next t) : ResetInv t := by
  unfold execRd at h
  split at h <;> cases h
  · exact hs.withHostData s.rom _ s.inputs _
  · exact hs.withHostData s.rom _ s.inputs s.freeCtr

/-- A changed ROM byte leaves the registers, and under RST nothing is recorded, for the engine is not busy (R109). -/
theorem ResetInv.romWrite {s t : State} {a : RomAddr} {d : Byte} (hs : ResetInv s)
    (h : applyRomWrite a d s = .next t) : ResetInv t := by
  rw [applyRomWrite_next h]
  intro hrst
  have hkept := hs.withHostData (s.rom.write a.toNat d) s.hrdata s.inputs s.freeCtr hrst
  simpa only [hs.busy_eq hrst, Bool.false_eq_true, if_false] using hkept

/-- RST driven high brings the reset values, its release leaves nothing to keep (R106). -/
theorem ResetInv.rst {s : State} (hs : ResetInv s) (level : Bool) : ResetInv (driveRst level s) := by
  cases level with
  | true => exact driveRst_held s
  | false =>
    cases hrst : s.rst with
    | true =>
      rw [driveRst_eq_applyReset (.inr hrst)]
      exact .of_released rfl
    | false =>
      rw [driveRst_low hrst]
      exact hs

theorem ResetInv.input {e : Event} {s t : State} (hs : ResetInv s) (h : inputStep e s = .next t) : ResetInv t := by
  cases e with
  | hostWrite a d => exact hs.hostWrite h
  | hostRead a => exact hs.hostRead h
  | romWrite a d => exact hs.romWrite h
  | rst level =>
    cases h
    exact hs.rst level

/-- IDLE takes no engine steps (R105), and no engine step drives RST. -/
theorem ResetInv.engine {s t : State} (hs : ResetInv s) (h : engineStep s = .next t) : ResetInv t := by
  intro ht
  obtain ⟨-, -, -, -, -, -, -, -, -, hrst⟩ := engineLeavesHostStateAlone s t h
  rw [engineStep_of_quiescent (hs.quiescent (hrst.symm.trans ht))] at h
  cases h
  exact hs ht

theorem ResetInv.step {s t : State} (hs : ResetInv s) (h : step s = .next t) : ResetInv t := by
  rcases step_next h with ⟨e, u, hd, hi⟩ | ⟨-, he⟩
  · obtain ⟨-, rest, -, -, -, rfl⟩ := dueInput_some hd
    exact (hs.withHostData s.rom s.hrdata rest s.freeCtr).input hi
  · exact (hs.withHostData s.rom s.hrdata (tickInputs s).inputs s.freeCtr).engine he

/-- Settles O60: each input and the engine keep the reset values, and these fix IRQ, PHASE and every register's byte. -/
theorem stepKeepsTheResetValuesWhileRstIsAsserted : Obligations.StepKeepsTheResetValuesWhileRstIsAsserted := by
  refine ⟨fun _ _ => ResetInv.step, fun s hs hrst => ⟨hs.irq_eq hrst, hs.quiescent hrst, fun a ha => ?_⟩⟩
  rw [exec_rd_of_not_busy (hs.busy_eq hrst), hs.portByte_eq hrst ha]

end Sys2Proof.Machine
end

section
/-! SUPPORT. The host commands on the registers (R89, R90, R92, R109): while RST is low each sets its own, and on a running decode none
reaches the engine. -/

namespace Sys2Proof.Machine

/-! ### Each command's registers -/

/-- A decode begins with the line low (R34, R89). -/
theorem irq_startDecode (s : State) : irq (startDecode s) = false := Bool.and_false _

/-- Settles O30: without effect under RST, a CTRL write while busy, and the start of a decode otherwise. -/
theorem startBeginsADecodeUnlessBusy : Obligations.StartBeginsADecodeUnlessBusy := by
  refine fun s d _ => ⟨exec_hostWrite_of_held rfl, fun hrst hbusy => exec_start_of_busy hrst d hbusy, fun hrst hbusy => ?_⟩
  exact ⟨_, exec_start_of_not_busy hrst d hbusy, irq_startDecode _, Memory.read_zero, rfl⟩

/-- Settles O32: without effect under RST, and otherwise the write of the two bits. -/
theorem controlWriteStoresTwoBits : Obligations.ControlWriteStoresTwoBits :=
  fun _ d _ => ⟨exec_hostWrite_of_held rfl, fun hrst => ⟨_, exec_ctrlWr_of_released hrst d, rfl, rfl⟩⟩

/-- The byte of a SRC write stands in its place, and the other bits are as before (R92). -/
theorem getLsbD_srcAfter {i : Instr} {d : Byte} {k : Nat}
    (hi : (i, k) ∈ [(Instr.srcWr0 d, 0), (Instr.srcWr1 d, 1), (Instr.srcWr2 d, 2)]) (x : RomAddr) {n : Nat} (hn : n < 24) :
    (srcAfter i x).getLsbD n = if 8 * k ≤ n ∧ n ≤ 8 * k + 7 then d.getLsbD (n - 8 * k) else x.getLsbD n := by
  simp only [List.mem_cons, Prod.mk.injEq, List.not_mem_nil, or_false] at hi
  rcases hi with ⟨rfl, rfl⟩ | ⟨rfl, rfl⟩ | ⟨rfl, rfl⟩ <;>
    simp only [srcAfter, BitVec.getLsbD_append, BitVec.getLsbD_extractLsb']
  · grind
  · grind
  · grind

/-- Settles O34: without effect under RST, and otherwise one byte of SRC. -/
theorem sourceWriteSetsOneByte : Obligations.SourceWriteSetsOneByte := by
  intro s d i k hik
  have hi : i = .srcWr0 d ∨ i = .srcWr1 d ∨ i = .srcWr2 d := by
    simp only [List.mem_cons, Prod.mk.injEq, List.not_mem_nil, or_false] at hik
    exact hik.imp And.left (Or.imp And.left And.left)
  refine ⟨exec_hostWrite_of_held (by rcases hi with rfl | rfl | rfl <;> rfl), fun hrst => ?_⟩
  exact ⟨_, exec_srcWrite_of_released hrst hi, rfl, fun n hn => getLsbD_srcAfter hik s.src hn⟩

/-! ### A running decode -/

/-- `t` is `s` with perhaps other values in CTRL, SRC, the read data and the free-value counter. -/
def HostOnly (s t : State) : Prop :=
  ∃ flip irqEn a d n, t = { s with ctrlFlip := flip, ctrlIrqEn := irqEn, src := a, hrdata := d, freeCtr := n }

theorem HostOnly.refl (s : State) : HostOnly s s := ⟨_, _, _, _, _, rfl⟩

theorem hostWrites_hostOnly {s t : State} (h : HostOnly s t) : HostOnly s (hostWrites s t) := by
  unfold hostWrites
  split
  · exact .refl s
  · exact h

/-- A running decode has neither DONE nor ERR for CLRST to clear (R28, R91). -/
theorem exec_clrSt_of_running {s : State} (d : Byte) (hinv : StatusInv s) (hp : phaseBusy s.phase = true) :
    exec (.clrSt d) s = .next s := by
  obtain ⟨hheld, hreleased⟩ := statusWriteClearsWhereOne s d
  cases hrst : s.rst with
  | true => exact hheld hrst
  | false =>
    obtain ⟨t, ht, -, -, hsame⟩ := hreleased hrst
    rw [ht, hsame hinv (hinv.busy_iff.trans hp)]

/-- On a running decode START is a CTRL write (R89) and CLRST does nothing, so no command reaches the engine. -/
theorem exec_host_of_running {i : Instr} {s t : State} (hi : contextOf i = .hostWrite ∨ contextOf i = .hostRead)
    (hinv : StatusInv s) (hp : phaseBusy s.phase = true) (h : exec i s = .next t) : HostOnly s t := by
  have hbusy : s.busy = true := hinv.busy_iff.trans hp
  have hwrite {u : State} (hu : HostOnly s u) (he : exec i s = .next (hostWrites s u)) : HostOnly s t := by
    cases he.symm.trans h
    exact hostWrites_hostOnly hu
  cases i with
  | start d =>
    refine hwrite (u := ctrlWrite d s) ⟨_, _, _, _, _, rfl⟩ ?_
    rw [exec, execStart, ctrlWrite_busy, if_pos hbusy]
  | ctrlWr | srcWr0 | srcWr1 | srcWr2 => exact hwrite ⟨_, _, _, _, _, rfl⟩ rfl
  | clrSt d =>
    cases (exec_clrSt_of_running d hinv hp).symm.trans h
    exact .refl s
  | rd a =>
    rw [exec, execRd] at h
    split at h <;> cases h <;> exact ⟨_, _, _, _, _, rfl⟩
  | _ => rcases hi with hi | hi <;> cases hi

/-- No input but RST and a changed ROM byte reaches a running engine (R42, R112). -/
theorem inputStep_of_running {e : Event} {s t : State} (he : ∀ level, e ≠ .rst level) (hrom : ∀ a d, e ≠ .romWrite a d)
    (hinv : StatusInv s) (hp : phaseBusy s.phase = true) (h : inputStep e s = .next t) : HostOnly s t := by
  cases e with
  | hostWrite a d =>
    rcases inputStep_hostWrite_next h with rfl | ⟨i, hi, he⟩
    · exact .refl t
    · exact exec_host_of_running (.inl hi) hinv hp he
  | hostRead a => exact exec_host_of_running (i := .rd a) (.inr rfl) hinv hp h
  | romWrite a d => exact absurd rfl (hrom a d)
  | rst level => exact absurd rfl (he level)

/-- Settles O44: a changed ROM byte is that byte and its record, any other input is the host's own registers. -/
theorem inputsLeaveARunningEngineAlone : Obligations.InputsLeaveARunningEngineAlone := by
  intro s t u e hinv hp hd he h
  obtain ⟨-, rest, -, -, -, rfl⟩ := dueInput_some hd
  have hinv' : StatusInv { s with inputs := rest } := hinv.upkeep (dueInput_upkeep hd)
  cases e with
  | romWrite a d =>
    rw [applyRomWrite_next h]
    exact ⟨fun hrom => absurd rfl (hrom a d), rfl⟩
  | hostWrite | hostRead =>
    obtain ⟨_, _, _, _, _, rfl⟩ := inputStep_of_running he nofun hinv' hp h
    exact ⟨fun _ => ⟨rfl, rfl⟩, rfl⟩
  | rst level => exact absurd rfl (he level)

end Sys2Proof.Machine
end
